-- ==== Sys2Proof/Word.lean ====
section
/-! DEFINITION. The widths the spec's rules name: `u8`, `u16`, `u32` (00_scope.md R10). -/

namespace Sys2Proof

/-- An 8-bit value (R10): a message byte, a header byte, the packet error code. -/
abbrev Byte := BitVec 8

/-- A 16-bit value (R10): a host address, ARG_A, ARG_B, RX_LEN, RAW_LEN. -/
abbrev Half := BitVec 16

/-- A 32-bit value (R10): a register access, the command word, the message integrity check. -/
abbrev Word := BitVec 32

end Sys2Proof
end

