-- ==== Sys2Proof/Config.lean ====
section
/-! DEFINITION. The implementation parameters (00_scope.md R8) and the values the spec leaves free. -/

namespace Sys2Proof

/-- The parameters of R8. The machine carries them in `State.config`, which no step writes, so that each
meaning takes them as an argument (assumption log, entry 22). -/
structure Config where
  /-- `REPLY_CAP`: bytes of REPLYBUF. -/
  replyCap : Nat
  /-- `MSG_CAP`: bytes of MSGBUF. -/
  msgCap : Nat
  /-- `OUT_CAP`: bytes of OUTBUF. -/
  outCap : Nat
  /-- `OPEN_ATTEMPTS`: how often the open routine tries (R175). -/
  openAttempts : Nat
  /-- `MTU_RESET`: the reset value of the MTU register (R9). -/
  mtuReset : Byte
  /-- `MSG_TAG`: the message tag of every transmitted packet (R74). -/
  msgTag : BitVec 3
  /-- `MCTP_CMD_CODE`: header byte 1 of every transmitted packet (R71). -/
  cmdCode : Byte
  /-- `MCTP_HDR_VERSION`: header byte 4 of every transmitted packet (R72). -/
  hdrVersion : Byte
  /-- `CRC32_REFLECTED`: which of R103 and R104 `crc32` is. -/
  crc32Reflected : Bool
  /-- `POST_WRITE_DELAY` (R229): a duration on which no rule depends, so that no meaning reads it; `none`
  where, as R8 has it for this hardware, it is OPEN (assumption log, entry 10). -/
  postWriteDelay : Option Nat
deriving DecidableEq, Repr

/-- The values this hardware takes (the table of R8). -/
def Config.mfe : Config where
  replyCap := 5120
  msgCap := 5120
  outCap := 5120
  openAttempts := 10
  mtuReset := 64
  msgTag := 3
  cmdCode := 0x0F
  hdrVersion := 0x01
  crc32Reflected := true
  postWriteDelay := none

/-- The legal ranges: those R8 gives the capacities (the windows of R51 are 8 KiB each; decisions D19 and
D41), and for `MTU_RESET` those of the register it resets (R26; assumption log, entry 9). -/
def Config.Legal (c : Config) : Prop :=
  (73 ≤ c.replyCap ∧ c.replyCap ≤ 8192) ∧ (1 ≤ c.msgCap ∧ c.msgCap ≤ 8192) ∧
  (1 ≤ c.outCap ∧ c.outCap ≤ 8192) ∧ (1 ≤ c.mtuReset.toNat ∧ c.mtuReset.toNat ≤ 250)

/-- FREE VALUE. `Config.freeByte window draw i` is byte `i` of the buffer whose window starts at host
address `window`, as the `draw`-th havoc of that buffer left it (R12 `havoc`; R40, R145, R215).
Nothing constrains it: it has no body. See the assumption log, entry 5. -/
opaque Config.freeByte : Nat → Nat → Nat → Byte

end Sys2Proof
end

