-- ==== Sys2Proof/Syntax.lean ====
section
/-! DEFINITION. The nine host commands (30_encoding.md R88; one constructor per row of
spec/opcode_table.json) and the fields of a command word (R87). -/

namespace Sys2Proof

/-- The host commands of R88. Their other operands stand in ARG_A and ARG_B (R90). -/
inductive Instr where
  /-- `CRC8` (R102). -/
  | crc8
  /-- `CRC32` (R106). -/
  | crc32
  /-- `FRAME` (R123). -/
  | frame
  /-- `DEFRAME` (R146). -/
  | deframe
  /-- `EXECUTE` (R177). -/
  | execute
  /-- `EXTRACT` (R161): `adm`, the response is an MI-Admin one; `dstp`, a destination is supplied. -/
  | extract (adm dstp : Bool)
  /-- `PEEK` (R165). -/
  | peek
  /-- `OPEN` (R175). -/
  | openBus
  /-- `CLOSE` (R176). -/
  | closeBus
deriving DecidableEq, Repr

/-- The four fields of the command word (the table of R87). -/
structure CommandWord where
  /-- Bits 7..0, the opcode. -/
  op : BitVec 8
  /-- Bit 8. -/
  adm : Bool
  /-- Bit 9. -/
  dstp : Bool
  /-- Bits 31..10, reserved. -/
  reserved : BitVec 22
deriving DecidableEq, Repr

end Sys2Proof
end

