-- ==== Sys2Proof/WellFormed.lean ====
section
/-! DEFINITION. Which command words are legal (30_encoding.md R89, stated as a check on the fields of
R87), and which instructions are: those whose fields are a legal word. -/

namespace Sys2Proof

/-- R89, first condition: the opcode is one of the nine of R88. -/
def CommandWord.opcodeKnown (f : CommandWord) : Bool := 1 ≤ f.op.toNat && f.op.toNat ≤ 9

/-- R89, second condition: bits 31..10 are 0. -/
def CommandWord.reservedClear (f : CommandWord) : Bool := f.reserved == 0

/-- R89, third condition: only EXTRACT (opcode 6) takes bit 8 or bit 9. -/
def CommandWord.flagsAllowed (f : CommandWord) : Bool := f.op == 6 || (!f.adm && !f.dstp)

/-- A word that R89 does not call illegal. -/
def CommandWord.wellFormed (f : CommandWord) : Bool :=
  f.opcodeKnown && f.reservedClear && f.flagsAllowed

/-- The fields of an instruction (the rows of R88). -/
def Instr.fields : Instr → CommandWord
  | .crc8 => ⟨1, false, false, 0⟩
  | .crc32 => ⟨2, false, false, 0⟩
  | .frame => ⟨3, false, false, 0⟩
  | .deframe => ⟨4, false, false, 0⟩
  | .execute => ⟨5, false, false, 0⟩
  | .extract adm dstp => ⟨6, adm, dstp, 0⟩
  | .peek => ⟨7, false, false, 0⟩
  | .openBus => ⟨8, false, false, 0⟩
  | .closeBus => ⟨9, false, false, 0⟩

/-- An instruction is well formed when its fields are a legal word. The syntax admits no other
instruction (R89: every word is one row of R88 or illegal). -/
def Instr.wellFormed (i : Instr) : Bool := i.fields.wellFormed

end Sys2Proof
end

