-- ==== Sys2Proof/Decode.lean ====
section
/-! DEFINITION. Decoding the value written to CMD (30_encoding.md R87 to R89), and encoding.
A command is one 32-bit register write (R52), so no byte order enters. -/

namespace Sys2Proof

/-- Why a word is illegal: the three conditions of R89, in the order this decoder looks at them.
Every one of them ends the command with `BadOp`, so the order has no effect. -/
inductive Illegal where
  /-- A bit of 31..10 is 1. -/
  | reservedBits
  /-- Bit 8 or bit 9 is 1 and the opcode is not EXTRACT's. -/
  | flagsNotAllowed
  /-- The opcode is 0x00 or in 0x0A..0xFF. -/
  | unknownOpcode
deriving DecidableEq, Repr

/-- The fields of a word (the table of R87). -/
def splitWord (w : Word) : CommandWord :=
  { op := w.extractLsb' 0 8, adm := w.getLsbD 8, dstp := w.getLsbD 9, reserved := w.extractLsb' 10 22 }

/-- The command that takes flags or not, by its opcode (the rows of R88). -/
def opcodeRow (op : Nat) (adm dstp : Bool) : Except Illegal Instr :=
  match op with
  | 1 => .ok .crc8
  | 2 => .ok .crc32
  | 3 => .ok .frame
  | 4 => .ok .deframe
  | 5 => .ok .execute
  | 6 => .ok (.extract adm dstp)
  | 7 => .ok .peek
  | 8 => .ok .openBus
  | 9 => .ok .closeBus
  | _ => .error .unknownOpcode

/-- The command a word written to CMD encodes, or the condition of R89 that makes it illegal. -/
def decode (w : Word) : Except Illegal Instr :=
  let f := splitWord w
  if f.reserved ≠ 0 then .error .reservedBits
  else if f.op ≠ 6 ∧ (f.adm = true ∨ f.dstp = true) then .error .flagsNotAllowed
  else opcodeRow f.op.toNat f.adm f.dstp

/-- The opcode byte (R88). -/
def opcodeOf : Instr → BitVec 8
  | .crc8 => 0x01
  | .crc32 => 0x02
  | .frame => 0x03
  | .deframe => 0x04
  | .execute => 0x05
  | .extract _ _ => 0x06
  | .peek => 0x07
  | .openBus => 0x08
  | .closeBus => 0x09

/-- The flag bits of the word: ADM at bit 8, DSTP at bit 9 (R87). -/
def flagBits : Instr → Word
  | .extract adm dstp => (if adm then 0x100#32 else 0#32) ||| (if dstp then 0x200#32 else 0#32)
  | _ => 0

/-- The word of a command (R88): its opcode in bits 7..0, its flags, and zeros above. -/
def encode (i : Instr) : Word := (opcodeOf i).zeroExtend 32 ||| flagBits i

/-- The instruction read from an opcode-table word of `nbits` bits whose value is `w`. The word is the
32-bit value of the CMD write (R87); bits above `nbits` are 0, and a value that does not fit 32 bits
is no command word. -/
def decodeTableWord (nbits w : Nat) : Option Instr :=
  let v := w % 2 ^ nbits
  if v < 2 ^ 32 then (decode (BitVec.ofNat 32 v)).toOption else none

end Sys2Proof
end

