-- ==== Sys2Proof/Machine/State.lean ====
section
/-! DEFINITION. Everything the spec gives the machine (10_state.md), as plain data, and the machine
right after reset (R40). -/

namespace Sys2Proof.Machine

open Sys2Proof

/-- The machine never stops with a fault: every error of the spec is a status code a command leaves in
STATUS.ERR (R195 to R197) or an answer of the host port (R208), and no trap exists (R201). So this
type has no constructor: nothing raises one, which is safe. -/
inductive Fault
deriving DecidableEq, Repr

/-- Why a step has no meaning. -/
inductive Refusal where
  /-- An instruction not modelled yet, by its mnemonic: raised by an arm of `exec` only. Safe: nothing
  is claimed of the instruction. No arm raises it. -/
  | notModelled (mnemonic : String)
deriving DecidableEq, Repr

/-- The status codes of R195, the values of STATUS.ERR. -/
inductive StatusCode where
  /-- Code 0: the command completed successfully. -/
  | ok
  /-- Code 1: every `BusOpen` attempt answered `Err`. -/
  | transportOpenFailure
  /-- Code 2: a bus write, read or close failed. -/
  | transportIOFailure
  /-- Code 3: EXTRACT's capacity exceeds OUTBUF. -/
  | allocationFailure
  /-- Code 4: EXTRACT without a destination. -/
  | noBuffer
  /-- Code 5: a received PEC differs from the recomputed one. -/
  | pecMismatch
  /-- Code 6: a received byte count is below 5 or above MTU + 5. -/
  | badByteCount
  /-- Code 7: a received packet would pass REPLYBUF's capacity. -/
  | replyOverflow
  /-- Code 8: an operand length or span passes its buffer. -/
  | badLength
  /-- Code 9: FRAME or DEFRAME while the bus is not open. -/
  | notOpen
  /-- Code 10: EXTRACT or PEEK without a valid reply. -/
  | noReply
  /-- Code 11: the command word is illegal. -/
  | badOp
deriving DecidableEq, Repr

/-- The three byte buffers (R38). -/
inductive Space where
  /-- `MSGBUF`, the outgoing message (R55). -/
  | msg
  /-- `REPLYBUF`, the received bytes (R56). -/
  | reply
  /-- `OUTBUF`, the destination of EXTRACT and PEEK (R57). -/
  | out
deriving DecidableEq, Repr

/-- The bytes of the three buffers that hold a known value, by host address (R51), in one canonical
form (`Memory.wf` in Machine/Ops.lean). A byte that is not listed has no value of its own: it is the
draw `Config.freeByte` (assumption log, entry 5). -/
abbrev Memory := List Host.Cell

/-- The eight header bytes of a packet (the table of R71). -/
structure Header where
  /-- Byte 0, destination bus address. -/
  dstAddr : Byte
  /-- Byte 1, command code. -/
  cmdCode : Byte
  /-- Byte 2, byte count (R73). -/
  byteCount : Byte
  /-- Byte 3, source bus address. -/
  srcAddr : Byte
  /-- Byte 4, header version in bits 3..0 (R72). -/
  version : Byte
  /-- Byte 5, destination endpoint ID. -/
  dstEid : Byte
  /-- Byte 6, source endpoint ID. -/
  srcEid : Byte
  /-- Byte 7, packet-control byte (R74). -/
  control : Byte
deriving DecidableEq, Repr

/-- The four bus transactions (R13), as the MFE issues them. -/
inductive BusOp where
  /-- `BusOpen()`. -/
  | busOpen
  /-- `BusClose()`. -/
  | busClose
  /-- `BusWrite(bytes)`. -/
  | busWrite (bytes : List Byte)
  /-- `BusRead(n)`. -/
  | busRead (n : Nat)
deriving DecidableEq, Repr

/-- An answer of the transport bus (R13): `Err`, or `Ok` with what the transaction it answers reads of
it: a `BusWrite` reads `count` (its `Ok(k)`), a `BusRead` reads `bytes` (its `Ok(t)`), the other two
read neither (assumption log, entry 3). -/
inductive BusAnswer where
  | ok (count : Nat) (bytes : List Byte)
  | err
deriving DecidableEq, Repr

/-- What the bus does in one step while a transaction is in progress: it answers, or is silent for that
step (R226; assumption log, entries 1 and 3). -/
inductive BusEvent where
  | answer (a : BusAnswer)
  | silent
deriving DecidableEq, Repr

/-- The four kinds of access of the host port (R50). -/
inductive HostAccess where
  | write32 (a : Half) (v : Word)
  | read32 (a : Half)
  | write8 (a : Half) (b : Byte)
  | read8 (a : Half)
deriving DecidableEq, Repr

/-- What the host and the platform do next: a host access (R50), the reset event (R215), or nothing for
one step, so that reset can arrive at any step of a command (assumption log, entry 2). -/
inductive Input where
  | host (access : HostAccess)
  | reset
  | wait
deriving DecidableEq, Repr

/-- The port's answer to one host access (R50): a write that completed, the value of a read, or the
access error, whose read data is 0. -/
inductive PortAnswer where
  | done
  | word (v : Word)
  | byte (b : Byte)
  | error (data : Word)
deriving DecidableEq, Repr

/-- The commands that use the bus, the current command of R35. -/
inductive BusCommand where
  | frame
  | deframe
  | execute
  | openBus
  | closeBus
deriving DecidableEq, Repr

/-- The framer's local state (R35; `frame_phase` of R123): the message length, the MTU read at the
start (R115), the packet count, and the index of the packet whose write is awaited. -/
structure Sending where
  len : Nat
  mtu : Nat
  count : Nat
  index : Nat
deriving DecidableEq, Repr

/-- The deframer's local state (`deframe_phase` of R136): MTU and PEC_CHECK as read at the start
(R135), the raw bytes, payload bytes and packets accepted so far. -/
structure Receiving where
  mtu : Nat
  check : Bool
  raw : Nat
  received : Nat
  accepted : Nat
deriving DecidableEq, Repr

/-- The phase of the running command (R35), named by the bus transaction whose answer it awaits. -/
inductive Phase where
  /-- The open routine's `attempt`-th `BusOpen` (R175). -/
  | opening (attempt : Nat)
  /-- The framer's `BusWrite` (R122). -/
  | sending (f : Sending)
  /-- The deframer's header read (R137). -/
  | awaitHeader (r : Receiving)
  /-- The deframer's body read, with the header latched (R140). -/
  | awaitBody (r : Receiving) (h : Header)
  /-- `BusClose` (R176). -/
  | closing
deriving DecidableEq, Repr

/-- The internal sequencing state of R35: the current command, the packets an EXECUTE has sent before
its receive phase, and the phase. -/
structure Running where
  command : BusCommand
  sent : Nat
  phase : Phase
deriving DecidableEq, Repr

/-- The machine. The first field holds its parameters (R8; assumption log, entry 22), the first group is
the register set of R20, the second the buffers of R38, the third the internal state of R35, the last
the model's own account of the machine's surroundings (assumption log, entries 2 to 4). -/
structure State where
  /-- The implementation parameters (R8). No step writes them. -/
  config : Config
  /-- ARG_A[15:0] (R22). -/
  argA : Half
  /-- ARG_B[15:0] (R23). -/
  argB : Half
  /-- STATUS.ERR (R31). -/
  err : StatusCode
  /-- STATUS.REPLY_VALID (R32). -/
  replyValid : Bool
  /-- STATUS.BUS_OPEN (R33). -/
  busOpen : Bool
  /-- STATUS.SHORT (R34). -/
  short : Bool
  /-- RESULT (R25). -/
  result : Word
  /-- RX_LEN[15:0] (R29). -/
  rxLen : Half
  /-- RAW_LEN[15:0] (R30). -/
  rawLen : Half
  /-- MTU[7:0] (R26). -/
  mtu : Byte
  /-- ADDR (R27). -/
  addr : Word
  /-- OPTIONS[2:0] (R28). -/
  options : BitVec 3
  /-- The bytes of MSGBUF, REPLYBUF and OUTBUF that hold a known value (R38). -/
  mem : Memory
  /-- The number of MSGBUF's current draw. -/
  msgDraw : Nat
  /-- The number of REPLYBUF's current draw. -/
  replyDraw : Nat
  /-- The number of OUTBUF's current draw. -/
  outDraw : Nat
  /-- The command that runs, if one does (R35). -/
  running : Option Running
  /-- What host and platform will do, in order (R50, R62, R215). -/
  inputs : List Input
  /-- What the bus will do, in order (R13). -/
  bus : List BusEvent
  /-- The bus transactions issued so far, in order (R65). -/
  busLog : List BusOp
  /-- The host port's answers so far, in order (R50). -/
  portLog : List PortAnswer
deriving DecidableEq, Repr

/-- The machine with the parameters `c` right after reset (R40), with nothing to come from host or bus. -/
def State.resetWith (c : Config) : State where
  config := c
  argA := 0x0000
  argB := 0x0000
  err := .ok
  replyValid := false
  busOpen := false
  short := false
  result := 0x00000000
  rxLen := 0x0000
  rawLen := 0x0000
  mtu := c.mtuReset
  addr := 0x00000000
  options := 0b101
  mem := []
  msgDraw := 0
  replyDraw := 0
  outDraw := 0
  running := none
  inputs := []
  bus := []
  busLog := []
  portLog := []

/-- This hardware right after reset (R8, R40). -/
def State.reset : State := State.resetWith Config.mfe

end Sys2Proof.Machine
end

