-- ==== Sys2Proof/Machine/Flags.lean ====
section
/-! DEFINITION. The fields of the registers and of the packet-control byte: STATUS (10_state.md R24),
ADDR (R27), OPTIONS (R28), control byte (30_encoding.md R74). -/

namespace Sys2Proof.Machine

open Sys2Proof

/-- The value of a flag bit: 1 or 0. -/
def bit (b : Bool) : Nat := if b then 1 else 0

/-- The number of a status code (the table of R195). -/
def StatusCode.toByte : StatusCode → Byte
  | .ok => 0
  | .transportOpenFailure => 1
  | .transportIOFailure => 2
  | .allocationFailure => 3
  | .noBuffer => 4
  | .pecMismatch => 5
  | .badByteCount => 6
  | .replyOverflow => 7
  | .badLength => 8
  | .notOpen => 9
  | .noReply => 10
  | .badOp => 11

/-- STATUS as the host reads it (R24): ERR in bits 7..0, REPLY_VALID bit 8, BUS_OPEN bit 9, SHORT bit
10, the rest 0. -/
def statusWord (s : State) : Word :=
  BitVec.ofNat 32 (s.err.toByte.toNat + 0x100 * bit s.replyValid + 0x200 * bit s.busOpen + 0x400 * bit s.short)

/-- ADDR.DST_ADDR (R27). -/
def dstAddr (s : State) : Byte := s.addr.extractLsb' 0 8

/-- ADDR.SRC_ADDR (R27). -/
def srcAddr (s : State) : Byte := s.addr.extractLsb' 8 8

/-- ADDR.DST_EID (R27). -/
def dstEid (s : State) : Byte := s.addr.extractLsb' 16 8

/-- ADDR.SRC_EID (R27). -/
def srcEid (s : State) : Byte := s.addr.extractLsb' 24 8

/-- OPTIONS.TO (R28), the tag-owner bit of every transmitted packet. -/
def tagOwner (s : State) : Bool := s.options.getLsbD 0

/-- OPTIONS.PEC_XOR_FIRST (R28). -/
def pecXorFirst (s : State) : Bool := s.options.getLsbD 1

/-- OPTIONS.PEC_CHECK (R28). -/
def pecCheck (s : State) : Bool := s.options.getLsbD 2

/-- The packet-control byte of R74: SOM bit 7, EOM bit 6, the sequence number `k mod 4` in bits 5..4, TO
bit 3, the message tag in bits 2..0. -/
def controlByte (c : Config) (som eom : Bool) (k : Nat) (tagOwner : Bool) : Byte :=
  BitVec.ofNat 8 (0x80 * bit som + 0x40 * bit eom + 0x10 * (k % 4) + 0x08 * bit tagOwner + c.msgTag.toNat)

/-- The end-of-message flag of a header: bit 6 of its control byte (R74, R143). -/
def Header.eom (h : Header) : Bool := h.control.getLsbD 6

/-- The MTU register takes a written value only when it is in 1..250 (R26). -/
def mtuLegal (v : Nat) : Bool := 1 ≤ v && v ≤ 250

end Sys2Proof.Machine
end

