-- ==== Sys2Proof/Machine/Ops.lean ====
section
/-! DEFINITION. The operations every command is made of: memory (20_memory.md R51 to R57), ending a
command (60_exceptions.md R197), issuing a bus transaction (R13), the reset event (R215). -/

namespace Sys2Proof.Machine

open Sys2Proof

/-! ### Memory as a list of cells -/

/-- The canonical form: addresses strictly rising. (An unlisted address reads as no value, and no cell
can equal that, so equal memories are equal lists.) -/
abbrev Memory.wf (m : Memory) : Prop := m.Pairwise fun x y => x.1 < y.1

/-- The byte listed at an address, if one is. -/
def Memory.read? : Memory → Nat → Option Byte
  | [], _ => none
  | (a, b) :: m, x => if a = x then some b else Memory.read? m x

/-- The cells of consecutive bytes from address `a` on. -/
def cells : Nat → List Byte → Memory
  | _, [] => []
  | a, b :: bs => (a, b) :: cells (a + 1) bs

/-- The cells below an address. -/
def Memory.below (m : Memory) (a : Nat) : Memory := m.filter fun e => e.1 < a

/-- The cells from an address on. -/
def Memory.atOrAbove (m : Memory) (a : Nat) : Memory := m.filter fun e => a ≤ e.1

/-- Store consecutive bytes from address `a` on. -/
def Memory.write (m : Memory) (a : Nat) (bs : List Byte) : Memory :=
  m.below a ++ cells a bs ++ m.atOrAbove (a + bs.length)

/-- Forget the bytes at the `n` addresses from `a` on. -/
def Memory.erase (m : Memory) (a n : Nat) : Memory := m.below a ++ m.atOrAbove (a + n)

/-! ### The three buffers -/

/-- The host address of a buffer's byte 0 (R51). -/
def Space.base : Space → Nat
  | .msg => 0x2000
  | .reply => 0x4000
  | .out => 0x6000

/-- A buffer's capacity (R8, R38). -/
def Space.cap (c : Config) : Space → Nat
  | .msg => c.msgCap
  | .reply => c.replyCap
  | .out => c.outCap

/-- The number of a buffer's current draw. -/
def drawOf (s : State) : Space → Nat
  | .msg => s.msgDraw
  | .reply => s.replyDraw
  | .out => s.outDraw

/-- Byte `i` of a buffer (R12): the byte stored there, or the draw where none has been stored since the
buffer's last havoc. An index beyond the capacity (which only EXTRACT after a change of MTU computes)
reads a free value too (assumption log, entry 7). -/
def readByte (s : State) (sp : Space) (i : Nat) : Byte :=
  if i < sp.cap s.config then (s.mem.read? (sp.base + i)).getD (Config.freeByte sp.base (drawOf s sp) i)
  else Config.freeByte sp.base (drawOf s sp) i

/-- `MemRead(SPACE, a, n)` (R12). -/
def memRead (s : State) (sp : Space) (a n : Nat) : List Byte :=
  (List.range n).map fun i => readByte s sp (a + i)

/-- `MemWrite(SPACE, a, n, bs)` (R12), `n` being the length of `bs`. -/
def memWrite (sp : Space) (a : Nat) (bs : List Byte) (s : State) : State :=
  { s with mem := s.mem.write (sp.base + a) bs }

/-- `havoc(SPACE)` (R12): every byte of the buffer becomes an unconstrained value. -/
def havoc (sp : Space) (s : State) : State :=
  let s := { s with mem := s.mem.erase sp.base (sp.cap s.config) }
  match sp with
  | .msg => { s with msgDraw := s.msgDraw + 1 }
  | .reply => { s with replyDraw := s.replyDraw + 1 }
  | .out => { s with outDraw := s.outDraw + 1 }

/-- The buffer and index an address of the windows names (R51); none where it is unmapped. -/
def windowOf (c : Config) (a : Nat) : Option (Space × Nat) :=
  if 0x2000 ≤ a ∧ a < 0x2000 + c.msgCap then some (.msg, a - 0x2000)
  else if 0x4000 ≤ a ∧ a < 0x4000 + c.replyCap then some (.reply, a - 0x4000)
  else if 0x6000 ≤ a ∧ a < 0x6000 + c.outCap then some (.out, a - 0x6000)
  else none

/-! ### Ending a command -/

/-- The port answers an access (R50). -/
def answer (p : PortAnswer) (s : State) : State := { s with portLog := s.portLog ++ [p] }

/-- The command is complete (R5, R21, R31, R34): it leaves its status code, its SHORT flag and its RESULT,
no command runs any more, and its CMD write completes. -/
def finish (code : StatusCode) (short : Bool) (result : Word) (s : State) : State :=
  answer .done { s with err := code, short := short, result := result, running := none }

/-- `raise Error(code)` (R197), the one way a command ends with an error: ERR takes the code, SHORT is
cleared, RESULT holds `result` (what the command wrote to it before raising, or 0 if it wrote none),
the command is over, and every other piece of state stays as the command's earlier statements left
it. Nothing is saved and no handler runs, so there is nothing to return from (R201). -/
def raiseError (code : StatusCode) (result : Word) (s : State) : State := finish code false result s

/-- Successful completion with SHORT clear, as every command but EXTRACT has it. -/
def succeed (result : Word) (s : State) : State := finish .ok false result s

/-! ### The bus -/

/-- Issue a bus transaction and await its answer in the phase `r` (R13, R65). -/
def issue (op : BusOp) (r : Running) (s : State) : State :=
  { s with busLog := s.busLog ++ [op], running := some r }

/-! ### The reset event -/

/-- The reset event (R215, R216): every register takes its reset value, every byte of the three buffers
becomes a draw, a running command ends without completing and its CMD write completes. No bus
transaction is issued, and what host and bus will do is not affected (R218; assumption log, entry 17). -/
def resetEvent (s : State) : State :=
  { State.resetWith s.config with
    msgDraw := s.msgDraw + 1
    replyDraw := s.replyDraw + 1
    outDraw := s.outDraw + 1
    inputs := s.inputs
    bus := s.bus
    busLog := s.busLog
    portLog := if s.running.isSome then s.portLog ++ [.done] else s.portLog }

end Sys2Proof.Machine
end

