-- ==== Sys2Proof/Machine/Operands.lean ====
section
/-! DEFINITION. Operand assembly (30_encoding.md R90): unsigned 16-bit numbers from ARG_A and ARG_B, never
scaled or sign-extended. -/

namespace Sys2Proof.Machine

open Sys2Proof

/-- `off`, the span start of CRC8 and CRC32 (R22, R90). -/
def spanStart (s : State) : Nat := s.argA.toNat

/-- `ARG_B` as a number: the span length of CRC8 and CRC32, the message length of FRAME and EXECUTE, the
destination capacity of EXTRACT, the byte count of PEEK (R23, R90). -/
def operandB (s : State) : Nat := s.argB.toNat

/-- The MTU register as a number (R26). -/
def mtuOf (s : State) : Nat := s.mtu.toNat

/-- RX_LEN as a number (R29). -/
def receivedLength (s : State) : Nat := s.rxLen.toNat

end Sys2Proof.Machine
end

