-- ==== Sys2Proof/Machine/Checksum.lean ====
section
/-! DEFINITION. The checksum engine and its commands CRC8 and CRC32 (40_checksum.md). -/

namespace Sys2Proof.Machine

open Sys2Proof

/-- `n` repetitions of a shift step. -/
def repeated {α : Type} (f : α → α) : Nat → α → α
  | 0, x => x
  | n + 1, x => repeated f n (f x)

/-- One shift of CRC-8 (R100): polynomial 0x07, most significant bit first. -/
def crc8Shift (c : Byte) : Byte := if c.getLsbD 7 then (c <<< 1) ^^^ 0x07 else c <<< 1

/-- One byte of CRC-8 (R100). -/
def crc8Byte (c b : Byte) : Byte := repeated crc8Shift 8 (c ^^^ b)

/-- `crc8` (R100): initial value 0, no reflection, no final exclusive-OR. -/
def crc8 (s : List Byte) : Byte := s.foldl crc8Byte 0x00

/-- One shift of the reflected CRC-32 (R103). -/
def crc32ShiftReflected (c : Word) : Word :=
  if c.getLsbD 0 then (c >>> 1) ^^^ 0x82F63B78 else c >>> 1

/-- One byte of the reflected CRC-32 (R103). -/
def crc32ByteReflected (c : Word) (b : Byte) : Word :=
  repeated crc32ShiftReflected 8 (c ^^^ b.zeroExtend 32)

/-- One shift of the unreflected CRC-32 (R104). -/
def crc32ShiftPlain (c : Word) : Word := if c.getLsbD 31 then (c <<< 1) ^^^ 0x1EDC6F41 else c <<< 1

/-- One byte of the unreflected CRC-32 (R104). -/
def crc32BytePlain (c : Word) (b : Byte) : Word :=
  repeated crc32ShiftPlain 8 (c ^^^ (b.zeroExtend 32 <<< 24))

/-- `crc32` (R103, R104, by the parameter `CRC32_REFLECTED`): initial value and final exclusive-OR
0xFFFFFFFF. The bitwise form; no table is kept (R105). -/
def crc32 (cfg : Config) (s : List Byte) : Word :=
  (if cfg.crc32Reflected then s.foldl crc32ByteReflected 0xFFFFFFFF else s.foldl crc32BytePlain 0xFFFFFFFF)
    ^^^ 0xFFFFFFFF

/-- A checksum over the MSGBUF span `[ARG_A, ARG_A + ARG_B)` into RESULT, or `BadLength` when the span
passes MSG_CAP, the sum taken without wrap (R102, R106). -/
def checksumCommand (f : List Byte → Word) (s : State) : State :=
  if spanStart s + operandB s > s.config.msgCap then raiseError .badLength 0 s
  else succeed (f (memRead s .msg (spanStart s) (operandB s))) s

/-- `CRC8` (R102). -/
def execCrc8 (s : State) : Host.Outcome State Fault Refusal :=
  .next (checksumCommand (fun bytes => (crc8 bytes).zeroExtend 32) s)

/-- `CRC32` (R106). -/
def execCrc32 (s : State) : Host.Outcome State Fault Refusal :=
  .next (checksumCommand (crc32 s.config) s)

end Sys2Proof.Machine
end

