-- ==== Sys2Proof/Machine/Packet.lean ====
section
/-! DEFINITION. The MCTP packet: its header, its PEC, how a message is cut into packets (30_encoding.md R70
to R79; 41_framer.md R116 to R122). -/

namespace Sys2Proof.Machine

open Sys2Proof

/-! ### Headers -/

/-- The header as the byte list that travels (R71). -/
def Header.toBytes (h : Header) : List Byte :=
  [h.dstAddr, h.cmdCode, h.byteCount, h.srcAddr, h.version, h.dstEid, h.srcEid, h.control]

/-- The header in an answer to the 8-byte read (R137); none when the answer's length is not 8. -/
def Header.ofBytes? : List Byte → Option Header
  | [b0, b1, b2, b3, b4, b5, b6, b7] => some ⟨b0, b1, b2, b3, b4, b5, b6, b7⟩
  | _ => none

/-- The header-tail, bytes 4..7 (R76). -/
def Header.tail (h : Header) : List Byte := [h.version, h.dstEid, h.srcEid, h.control]

/-- The PEC of a packet: CRC-8 over the header-tail and the payload (R76, R120). -/
def pecOf (h : Header) (payload : List Byte) : Byte := crc8 (h.tail ++ payload)

/-! ### Segmentation -/

/-- How many packets a message of `len` bytes takes at MTU `m` (R116). -/
def packetCount (len m : Nat) : Nat := if len ≤ m then 1 else (len + m - 1) / m

/-- The payload length of packet `k` (R117). -/
def payloadLength (len m k : Nat) : Nat := min m (len - k * m)

/-- The header of packet `k` of `n`, carrying `l` payload bytes (R118, R119). -/
def packetHeader (s : State) (l k n : Nat) : Header where
  dstAddr := dstAddr s
  cmdCode := s.config.cmdCode
  byteCount := BitVec.ofNat 8 (l + 5)
  srcAddr := srcAddr s
  version := s.config.hdrVersion
  dstEid := dstEid s
  srcEid := srcEid s
  control := controlByte s.config (k == 0) (k + 1 == n) k (tagOwner s)

/-- What the PEC byte of a packet of `n` is exclusive-ORed with: `MSGBUF[0]` when the message is one
packet and PEC_XOR_FIRST is set, nothing else ever (R121). -/
def pecMask (s : State) (n : Nat) : Byte :=
  if n = 1 ∧ pecXorFirst s = true then readByte s .msg 0 else 0

/-- Packet `k` of the message `f` describes, as one byte list: header, payload, PEC byte (R122). -/
def packetBytes (s : State) (f : Sending) (k : Nat) : List Byte :=
  let l := payloadLength f.len f.mtu k
  let h := packetHeader s l k f.count
  let p := memRead s .msg (k * f.mtu) l
  h.toBytes ++ p ++ [pecOf h p ^^^ pecMask s f.count]

end Sys2Proof.Machine
end

