-- ==== Sys2Proof/Machine/Deframer.lean ====
section
/-! DEFINITION. The receive phase `deframe_phase` (42_deframer.md R135 to R145), one function per bus
transaction, and how DEFRAME and EXECUTE end with it (R146, 44_session.md R177). -/

namespace Sys2Proof.Machine

open Sys2Proof

/-- RESULT after a receive phase (R25): the packets accepted, and for EXECUTE the packets sent in the
upper half (R178). -/
def exchangeResult (command : BusCommand) (sent accepted : Nat) : Word :=
  match command with
  | .execute => (BitVec.ofNat 32 sent <<< 16) ||| BitVec.ofNat 32 accepted
  | _ => BitVec.ofNat 32 accepted

/-- `fail(code)` (R145) and the `raise` that follows it: REPLYBUF becomes a draw, RX_LEN and RAW_LEN
keep the totals of the accepted packets. -/
def receiveFailed (command : BusCommand) (sent : Nat) (r : Receiving) (code : StatusCode)
    (s : State) : State :=
  raiseError code (exchangeResult command sent r.accepted) (havoc .reply s)

/-- The head of the packet loop: the header must fit, then it is read (R137, R139). -/
def awaitPacket (command : BusCommand) (sent : Nat) (r : Receiving) (s : State) : State :=
  if r.raw + 8 > s.config.replyCap then receiveFailed command sent r .replyOverflow s
  else issue (.busRead 8) ⟨command, sent, .awaitHeader r⟩ s

/-- The start of a receive phase (R135). -/
def startReceive (command : BusCommand) (sent : Nat) (s : State) : State :=
  awaitPacket command sent ⟨mtuOf s, pecCheck s, 0, 0, 0⟩ { s with rawLen := 0, rxLen := 0 }

/-- The answer to the header read: stored verbatim, then its byte count is checked, then the body must
fit, then the body is read (R137 to R139). -/
def headerAnswered (command : BusCommand) (sent : Nat) (r : Receiving) (a : BusAnswer)
    (s : State) : State :=
  match a with
  | .err => receiveFailed command sent r .transportIOFailure s
  | .ok _ t =>
    match Header.ofBytes? t with
    | none => receiveFailed command sent r .transportIOFailure s
    | some h =>
      let s := memWrite .reply r.raw t s
      let bc := h.byteCount.toNat
      if bc < 5 ∨ bc > r.mtu + 5 then receiveFailed command sent r .badByteCount s
      else if r.raw + 8 + (bc - 4) > s.config.replyCap then receiveFailed command sent r .replyOverflow s
      else issue (.busRead (bc - 4)) ⟨command, sent, .awaitBody r h⟩ s

/-- Whether the PEC byte that ends a received body is the recomputed one (R141). -/
def pecMatches (h : Header) (body : List Byte) : Bool :=
  pecOf h (body.take (body.length - 1)) == body.getD (body.length - 1) 0

/-- The counts after one more packet of byte count `bc` is accepted (R142). -/
def Receiving.accept (r : Receiving) (bc : Nat) : Receiving :=
  { r with raw := r.raw + bc + 4, received := r.received + (bc - 5), accepted := r.accepted + 1 }

/-- The answer to the body read: stored verbatim, its PEC validated if PEC_CHECK was set, the packet
counted, and the loop left at end of message (R140 to R143). -/
def bodyAnswered (command : BusCommand) (sent : Nat) (r : Receiving) (h : Header)
    (a : BusAnswer) (s : State) : State :=
  let bc := h.byteCount.toNat
  match a with
  | .err => receiveFailed command sent r .transportIOFailure s
  | .ok _ t =>
    if t.length ≠ bc - 4 then receiveFailed command sent r .transportIOFailure s
    else
      let s := memWrite .reply (r.raw + 8) t s
      if r.check = true ∧ pecMatches h t = false then receiveFailed command sent r .pecMismatch s
      else
        let r := r.accept bc
        let s := { s with rawLen := BitVec.ofNat 16 r.raw, rxLen := BitVec.ofNat 16 r.received }
        if h.eom then succeed (exchangeResult command sent r.accepted) { s with replyValid := true }
        else awaitPacket command sent r s

end Sys2Proof.Machine
end

