-- ==== Sys2Proof/Machine/Framer.lean ====
section
/-! DEFINITION. The transmit phase `frame_phase` (41_framer.md R115 to R122), one function per bus
transaction, and what FRAME and EXECUTE do after it (R123, 44_session.md R177). -/

namespace Sys2Proof.Machine

open Sys2Proof

/-- Hand packet `f.index` to the bus as one write (R122). -/
def sendPacket (command : BusCommand) (f : Sending) (s : State) : State :=
  issue (.busWrite (packetBytes s f f.index)) ⟨command, 0, .sending f⟩ s

/-- The start of a transmit phase: the MTU is read once (R115) and fixes the packet count (R116). -/
def startSend (command : BusCommand) (len : Nat) (s : State) : State :=
  sendPacket command ⟨len, mtuOf s, packetCount len (mtuOf s), 0⟩ s

/-- A write failed after `sent` packets were written (R122). FRAME reports the count and leaves REPLYBUF
(R123, R198). EXECUTE reports it in the upper half, issues no read, and its reply content is undefined
like that of any failure past its open phase (R177; assumption log, entry 8). -/
def sendFailed (command : BusCommand) (sent : Nat) (s : State) : State :=
  match command with
  | .execute => raiseError .transportIOFailure (exchangeResult .execute sent 0) (havoc .reply s)
  | _ => raiseError .transportIOFailure (BitVec.ofNat 32 sent) s

/-- Every packet is written: FRAME is complete (R123), EXECUTE goes on to receive (R177). -/
def allSent (command : BusCommand) (sent : Nat) (s : State) : State :=
  match command with
  | .execute => startReceive .execute sent s
  | _ => succeed (BitVec.ofNat 32 sent) s

/-- The answer to a packet's write: it succeeded when the bus reports the packet's whole length (R122). -/
def writeAnswered (command : BusCommand) (f : Sending) (a : BusAnswer) (s : State) : State :=
  match a with
  | .err => sendFailed command f.index s
  | .ok count _ =>
    if count ≠ payloadLength f.len f.mtu f.index + 9 then sendFailed command f.index s
    else if f.index + 1 < f.count then sendPacket command { f with index := f.index + 1 } s
    else allSent command f.count s

end Sys2Proof.Machine
end

