-- ==== Sys2Proof/Machine/Session.lean ====
section
/-! DEFINITION. The open routine and the close (44_session.md R175, R176), and the step that takes a
running command from one bus transaction to the next (00_scope.md R3, R13). -/

namespace Sys2Proof.Machine

open Sys2Proof

/-- The bus is open after `attempts` attempts of this command: OPEN is complete (R175), EXECUTE clears
REPLY_VALID and transmits (R177). -/
def opened (command : BusCommand) (attempts : Nat) (s : State) : State :=
  match command with
  | .execute => startSend .execute (operandB s) { s with replyValid := false }
  | _ => succeed (BitVec.ofNat 32 attempts) s

/-- Every attempt failed: OPEN reports the attempts (R175), EXECUTE reports 0 (R177, R178). -/
def openFailed (command : BusCommand) (s : State) : State :=
  match command with
  | .execute => raiseError .transportOpenFailure 0 s
  | _ => raiseError .transportOpenFailure (BitVec.ofNat 32 s.config.openAttempts) s

/-- The `attempt`-th `BusOpen`, unless the bound is passed (R175). -/
def tryOpen (command : BusCommand) (attempt : Nat) (s : State) : State :=
  if attempt ≤ s.config.openAttempts then issue .busOpen ⟨command, 0, .opening attempt⟩ s
  else openFailed command s

/-- `open_phase` (R175): nothing is issued when the bus is open already. -/
def startOpen (command : BusCommand) (s : State) : State :=
  if s.busOpen then opened command 0 s else tryOpen command 1 s

/-- The answer to a `BusOpen` (R175). -/
def openAnswered (command : BusCommand) (attempt : Nat) (a : BusAnswer) (s : State) : State :=
  match a with
  | .ok _ _ => opened command attempt { s with busOpen := true }
  | .err => tryOpen command (attempt + 1) s

/-- The answer to `BusClose`: BUS_OPEN is cleared whatever it is (R176). -/
def closeAnswered (a : BusAnswer) (s : State) : State :=
  match a with
  | .ok _ _ => succeed 0 { s with busOpen := false }
  | .err => raiseError .transportIOFailure 0 { s with busOpen := false }

/-- The running command takes the bus's answer to its transaction and goes on to its next transaction
or to its end. -/
def takeAnswer (r : Running) (a : BusAnswer) (s : State) : State :=
  match r.phase with
  | .opening attempt => openAnswered r.command attempt a s
  | .sending f => writeAnswered r.command f a s
  | .awaitHeader p => headerAnswered r.command r.sent p a s
  | .awaitBody p h => bodyAnswered r.command r.sent p h a s
  | .closing => closeAnswered a s

/-- One step of the MFE (R3, R13): the bus answers the transaction in progress and the command goes on to
the next one, or the bus is silent for this step, or it never answers again (R226). With no command
running, nothing. -/
def tick (s : State) : State :=
  match s.running, s.bus with
  | some r, .answer a :: rest => takeAnswer r a { s with bus := rest }
  | some _, .silent :: rest => { s with bus := rest }
  | some _, [] => s
  | none, _ => s

end Sys2Proof.Machine
end

