-- ==== Sys2Proof/Machine/Exchange.lean ====
section
/-! DEFINITION. The commands that use the bus: FRAME (41_framer.md R123), DEFRAME (42_deframer.md R146),
OPEN, CLOSE, EXECUTE (44_session.md R175 to R177). Each makes its checks in the order of
60_exceptions.md R199, then issues its first bus transaction, or completes where it needs none; `tick`
(Machine/Session.lean) takes it on from there, one transaction a step. -/

namespace Sys2Proof.Machine

open Sys2Proof

/-- `FRAME` (R123): `BadLength`, then `NotOpen`, then REPLY_VALID is cleared and the message goes out. -/
def frameCommand (s : State) : State :=
  if operandB s > s.config.msgCap then raiseError .badLength 0 s
  else if s.busOpen = false then raiseError .notOpen 0 s
  else startSend .frame (operandB s) { s with replyValid := false }

/-- `DEFRAME` (R146): `NotOpen`, then REPLY_VALID is cleared and a message is received. -/
def deframeCommand (s : State) : State :=
  if s.busOpen = false then raiseError .notOpen 0 s
  else startReceive .deframe 0 { s with replyValid := false }

/-- `EXECUTE` (R177): `BadLength`, then the open phase, the frame phase and the deframe phase. -/
def executeCommand (s : State) : State :=
  if operandB s > s.config.msgCap then raiseError .badLength 0 s
  else startOpen .execute s

/-- `OPEN` (R175). -/
def openCommand (s : State) : State := startOpen .openBus s

/-- `CLOSE` (R176): RESULT is cleared first, and no transaction is issued when the bus is not open. -/
def closeCommand (s : State) : State :=
  if s.busOpen = false then succeed 0 s
  else issue .busClose ⟨.closeBus, 0, .closing⟩ { s with result := 0 }

/-- `FRAME` (R123). -/
def execFrame (s : State) : Host.Outcome State Fault Refusal := .next (frameCommand s)

/-- `DEFRAME` (R146). -/
def execDeframe (s : State) : Host.Outcome State Fault Refusal := .next (deframeCommand s)

/-- `EXECUTE` (R177). -/
def execExecute (s : State) : Host.Outcome State Fault Refusal := .next (executeCommand s)

/-- `OPEN` (R175). -/
def execOpen (s : State) : Host.Outcome State Fault Refusal := .next (openCommand s)

/-- `CLOSE` (R176). -/
def execClose (s : State) : Host.Outcome State Fault Refusal := .next (closeCommand s)

end Sys2Proof.Machine
end

