-- ==== Sys2Proof/Machine/Extraction.lean ====
section
/-! DEFINITION. The message-extraction offset calculator and its commands EXTRACT and PEEK
(43_extraction.md). -/

namespace Sys2Proof.Machine

open Sys2Proof

/-- The message offset of the first data byte: 8 for an MI response, 20 for an MI-Admin one (R155). -/
def dataStart (adm : Bool) : Nat := 8 + 12 * bit adm

/-- The overhead bytes of a response: 12 for MI, 24 for MI-Admin (R155). -/
def overhead (adm : Bool) : Nat := 12 + 12 * bit adm

/-- The logical length: the received length less the overhead, saturating at 0 (R156). -/
def logicalLength (adm : Bool) (received : Nat) : Nat := received - overhead adm

/-- How many bytes are copied (R157). -/
def copyCount (adm : Bool) (received cap : Nat) : Nat := min (logicalLength adm received) cap

/-- The raw position of message byte `m` at MTU `mtu` (R159). -/
def rawPosition (mtu m : Nat) : Nat := m / mtu * (mtu + 9) + 8 + m % mtu

/-- The bytes EXTRACT copies: data byte `i` is `REPLYBUF[pos(s + i)]` (R159, R161). -/
def extractedBytes (adm : Bool) (s : State) : List Byte :=
  (List.range (copyCount adm (receivedLength s) (operandB s))).map fun i =>
    readByte s .reply (rawPosition (mtuOf s) (dataStart adm + i))

/-- `EXTRACT` (R161): `NoBuffer`, then `AllocationFailure`, then `NoReply`, then the copy; SHORT is set
when more was requested than there is (R162). -/
def extractCommand (adm dstp : Bool) (s : State) : State :=
  if dstp = false then raiseError .noBuffer 0 s
  else if operandB s > s.config.outCap then raiseError .allocationFailure 0 s
  else if s.replyValid = false then raiseError .noReply 0 s
  else
    finish .ok (decide (operandB s > logicalLength adm (receivedLength s)))
      (BitVec.ofNat 32 (copyCount adm (receivedLength s) (operandB s)))
      (memWrite .out 0 (extractedBytes adm s) s)

/-- `PEEK` (R165): `BadLength`, then `NoReply`, then the raw copy of `REPLYBUF[8..8+n)`. -/
def peekCommand (s : State) : State :=
  if operandB s > s.config.outCap ∨ 8 + operandB s > s.config.replyCap then raiseError .badLength 0 s
  else if s.replyValid = false then raiseError .noReply 0 s
  else succeed (BitVec.ofNat 32 (operandB s)) (memWrite .out 0 (memRead s .reply 8 (operandB s)) s)

/-- `EXTRACT` (R161). -/
def execExtract (adm dstp : Bool) (s : State) : Host.Outcome State Fault Refusal :=
  .next (extractCommand adm dstp s)

/-- `PEEK` (R165). -/
def execPeek (s : State) : Host.Outcome State Fault Refusal := .next (peekCommand s)

end Sys2Proof.Machine
end

