-- ==== Sys2Proof/Machine/Dispatch.lean ====
section
/-! DEFINITION. The meaning of every host command, one arm per constructor (30_encoding.md R88). -/

namespace Sys2Proof.Machine

open Sys2Proof

def exec (i : Instr) (s : State) : Host.Outcome State Fault Refusal :=
  match i with
  | .crc8 => Sys2Proof.Machine.execCrc8 s
  | .crc32 => Sys2Proof.Machine.execCrc32 s
  | .frame => Sys2Proof.Machine.execFrame s
  | .deframe => Sys2Proof.Machine.execDeframe s
  | .execute => Sys2Proof.Machine.execExecute s
  | .extract adm dstp => Sys2Proof.Machine.execExtract adm dstp s
  | .peek => Sys2Proof.Machine.execPeek s
  | .openBus => Sys2Proof.Machine.execOpen s
  | .closeBus => Sys2Proof.Machine.execClose s

end Sys2Proof.Machine
end

