-- ==== Sys2Proof/Machine/HostPort.lean ====
section
/-! DEFINITION. The host port (10_state.md R20 to R30; 20_memory.md R50 to R61): register and window
accesses, and the CMD write that runs a command. -/

namespace Sys2Proof.Machine

open Sys2Proof

/-- The ten registers of R20. -/
inductive Reg where
  | cmd | argA | argB | status | result | rxLen | rawLen | mtu | addr | options
deriving DecidableEq, Repr

/-- The register at a host address (the offsets of R20); none where no register starts (R52, R54). -/
def regAt (a : Nat) : Option Reg :=
  match a with
  | 0x00 => some .cmd
  | 0x04 => some .argA
  | 0x08 => some .argB
  | 0x0C => some .status
  | 0x10 => some .result
  | 0x14 => some .rxLen
  | 0x18 => some .rawLen
  | 0x1C => some .mtu
  | 0x20 => some .addr
  | 0x24 => some .options
  | _ => none

/-- What a register reads as (R20 to R30): unused bits read 0, CMD reads 0. -/
def readReg (r : Reg) (s : State) : Word :=
  match r with
  | .cmd => 0
  | .argA => s.argA.zeroExtend 32
  | .argB => s.argB.zeroExtend 32
  | .status => statusWord s
  | .result => s.result
  | .rxLen => s.rxLen.zeroExtend 32
  | .rawLen => s.rawLen.zeroExtend 32
  | .mtu => s.mtu.zeroExtend 32
  | .addr => s.addr
  | .options => s.options.zeroExtend 32

/-- What a write to a register other than CMD does (R20 to R30): unused bits and read-only registers
ignore it, MTU takes legal values only (R26). (A write to CMD runs a command, `writeCmd`.) -/
def writeReg (r : Reg) (v : Word) (s : State) : State :=
  match r with
  | .argA => { s with argA := v.setWidth 16 }
  | .argB => { s with argB := v.setWidth 16 }
  | .mtu => if mtuLegal v.toNat then { s with mtu := v.setWidth 8 } else s
  | .addr => { s with addr := v }
  | .options => { s with options := v.setWidth 3 }
  | .cmd | .status | .result | .rxLen | .rawLen => s

/-- An illegal command word is a command that ends with `BadOp` (R89, R208). -/
def badOpCommand (s : State) : State := raiseError .badOp 0 s

/-- A write to CMD (R21): the word's command starts. The port answers the access when the command is
complete (`finish`). -/
def writeCmd (v : Word) (s : State) : Host.Outcome State Fault Refusal :=
  match decode v with
  | .error _ => .next (badOpCommand s)
  | .ok i => exec i s

/-- `HostWrite8(a, b)` (R50 to R57): MSGBUF takes the byte, REPLYBUF and OUTBUF ignore it, any other
address is an access error. -/
def write8 (a : Nat) (b : Byte) (s : State) : State :=
  match windowOf s.config a with
  | some (.msg, i) => answer .done (memWrite .msg i [b] s)
  | some (_, _) => answer .done s
  | none => answer (.error 0) s

/-- `HostRead8(a)` (R50 to R57): the byte of the window, or an access error. -/
def read8 (a : Nat) (s : State) : State :=
  match windowOf s.config a with
  | some (sp, i) => answer (.byte (readByte s sp i)) s
  | none => answer (.error 0) s

/-- `HostRead32(a)` (R50 to R54): a register, or an access error. -/
def read32 (a : Nat) (s : State) : State :=
  match regAt a with
  | some r => answer (.word (readReg r s)) s
  | none => answer (.error 0) s

/-- `HostWrite32(a, v)` (R50 to R54): a command, a register, or an access error. -/
def write32 (a : Nat) (v : Word) (s : State) : Host.Outcome State Fault Refusal :=
  match regAt a with
  | some .cmd => writeCmd v s
  | some r => .next (answer .done (writeReg r v s))
  | none => .next (answer (.error 0) s)

/-- One host access (R50). -/
def hostAccess (x : HostAccess) (s : State) : Host.Outcome State Fault Refusal :=
  match x with
  | .write32 a v => write32 a.toNat v s
  | .read32 a => .next (read32 a.toNat s)
  | .write8 a b => .next (write8 a.toNat b s)
  | .read8 a => .next (read8 a.toNat s)

/-- One step of the machine (R3): the reset event if it comes next (R215); else one step of the running
command if one runs (the host port is then blocked, R50); else the next host access, or nothing (the
MFE is idle and waits for an access). -/
def takeStep (s : State) : Host.Outcome State Fault Refusal :=
  match s.inputs with
  | .reset :: rest => .next (resetEvent { s with inputs := rest })
  | .wait :: rest => .next (tick { s with inputs := rest })
  | .host x :: rest => if s.running.isSome then .next (tick s) else hostAccess x { s with inputs := rest }
  | [] => .next (tick s)

end Sys2Proof.Machine
end

