-- ==== Sys2Proof/Machine/Step.lean ====
section
/-! DEFINITION. One step of the machine (`takeStep` in Machine/HostPort.lean), and how an instruction is
placed before it. -/

namespace Sys2Proof.Machine

open Sys2Proof

def step (s : State) : Host.Outcome State Fault Refusal := takeStep s

/-- `s` with the 32-bit word of an opcode-table row as the next host access, a write to CMD. The MFE
fetches no program (R36): the CMD write is how an instruction reaches it, and the port takes the
access only when no command runs, so a running command is taken away (assumption log, entry 11). -/
def State.withFetchWord (s : State) (nbits w : Nat) : State :=
  { s with
    running := none
    inputs := .host (.write32 0x0000 (BitVec.ofNat 32 (w % 2 ^ nbits))) :: s.inputs }

end Sys2Proof.Machine
end

