-- ==== Sys2Proof/Machine/Assembler.lean ====
section
/-! DEFINITION. The assembler lines of 30_encoding.md R91: each stands for a list of host accesses. They
are no instructions of the MFE; tests and host programs are written with them. -/

namespace Sys2Proof.Machine

open Sys2Proof

/-- The address of a register (R20). -/
def Reg.address : Reg → Half
  | .cmd => 0x00
  | .argA => 0x04
  | .argB => 0x08
  | .status => 0x0C
  | .result => 0x10
  | .rxLen => 0x14
  | .rawLen => 0x18
  | .mtu => 0x1C
  | .addr => 0x20
  | .options => 0x24

/-- The lines of R91. -/
inductive Line where
  | wr32 (r : Reg) (v : Word)
  | rd32 (r : Reg)
  | wr8 (a : Half) (b : Byte)
  | rd8 (a : Half)
  /-- A bare command mnemonic: one CMD write. -/
  | command (i : Instr)
  | crc8 (off len : Half)
  | crc32 (off len : Half)
  | frame (len : Half)
  | execute (len : Half)
  | extract (adm dstp : Bool) (cap : Half)
  | peek (n : Half)
  | loadMsg (bytes : List Byte)
  | setAddr (dstAddr srcAddr dstEid srcEid : Byte)
deriving DecidableEq, Repr

/-- Byte writes to consecutive addresses. -/
def loadBytes : Half → List Byte → List HostAccess
  | _, [] => []
  | a, b :: bs => .write8 a b :: loadBytes (a + 1) bs

/-- The host accesses a line stands for (the table of R91). -/
def expandLine : Line → List HostAccess
  | .wr32 r v => [.write32 r.address v]
  | .rd32 r => [.read32 r.address]
  | .wr8 a b => [.write8 a b]
  | .rd8 a => [.read8 a]
  | .command i => [.write32 Reg.cmd.address (encode i)]
  | .crc8 off len =>
    [.write32 Reg.argA.address (off.zeroExtend 32), .write32 Reg.argB.address (len.zeroExtend 32),
     .write32 Reg.cmd.address (encode .crc8)]
  | .crc32 off len =>
    [.write32 Reg.argA.address (off.zeroExtend 32), .write32 Reg.argB.address (len.zeroExtend 32),
     .write32 Reg.cmd.address (encode .crc32)]
  | .frame len => [.write32 Reg.argB.address (len.zeroExtend 32), .write32 Reg.cmd.address (encode .frame)]
  | .execute len => [.write32 Reg.argB.address (len.zeroExtend 32), .write32 Reg.cmd.address (encode .execute)]
  | .extract adm dstp cap =>
    [.write32 Reg.argB.address (cap.zeroExtend 32), .write32 Reg.cmd.address (encode (.extract adm dstp))]
  | .peek n => [.write32 Reg.argB.address (n.zeroExtend 32), .write32 Reg.cmd.address (encode .peek)]
  | .loadMsg bytes => loadBytes 0x2000 bytes
  | .setAddr da sa de se =>
    [.write32 Reg.addr.address
      ((se.zeroExtend 32 <<< 24) ||| (de.zeroExtend 32 <<< 16) ||| (sa.zeroExtend 32 <<< 8) ||| da.zeroExtend 32)]

/-- A host program as the inputs of the machine. -/
def program (lines : List Line) : List Input := lines.flatMap fun l => (expandLine l).map .host

end Sys2Proof.Machine
end

