-- ==== Sys2Proof/Machine/Message.lean ====
section
/-! DEFINITION. The NVMe-MI messages of 30_encoding.md R80 to R86: the bytes the host builds and a responder
sends. The MFE reads none of these fields (R80, R81), so no command depends on this file; statements and
tests about whole exchanges are written with it. -/

namespace Sys2Proof.Machine

open Sys2Proof

/-- The `n` bytes of a number, least significant first (R85, R86). -/
def littleEndian : Nat → Nat → List Byte
  | 0, _ => []
  | n + 1, v => BitVec.ofNat 8 v :: littleEndian n (v / 256)

/-- The fields of the message header (the table of R80). -/
structure MessageHeader where
  /-- Message type, byte 0 bits 6..0. -/
  messageType : BitVec 7
  /-- Integrity check present, byte 0 bit 7. -/
  integrityCheck : Bool
  /-- Command slot identifier, byte 1 bit 0. -/
  slot : Bool
  /-- NVMe-MI message type, byte 1 bits 6..3: 1 MI, 2 MI-Admin. -/
  nmimt : BitVec 4
  /-- Request (0) or response (1), byte 1 bit 7. -/
  response : Bool
deriving DecidableEq, Repr

/-- The four bytes of the message header, reserved bits 0 (R80). -/
def MessageHeader.toBytes (h : MessageHeader) : List Byte :=
  [BitVec.ofNat 8 (h.messageType.toNat + 0x80 * bit h.integrityCheck),
   BitVec.ofNat 8 (bit h.slot + 0x08 * h.nmimt.toNat + 0x80 * bit h.response), 0, 0]

/-- The header of an NVMe-MI message with its integrity check: message type 4, slot 0 (R80). -/
def miHeader (admin response : Bool) : MessageHeader := ⟨4, true, false, if admin then 2 else 1, response⟩

/-- A message with its MIC: the CRC-32 of everything before it, least significant byte first (R85). -/
def withMic (cfg : Config) (body : List Byte) : List Byte := body ++ littleEndian 4 (crc32 cfg body).toNat

/-- An MI request (R81). -/
def miRequest (cfg : Config) (opcode : Byte) (cdw0 cdw1 : Word) (data : List Byte) : List Byte :=
  withMic cfg ((miHeader false false).toBytes ++ [opcode, 0, 0, 0] ++ littleEndian 4 cdw0.toNat
    ++ littleEndian 4 cdw1.toNat ++ data)

/-- An MI-Admin request (R82); `cdws` are cdw2 to cdw15. -/
def adminRequest (cfg : Config) (opcode flags : Byte) (controller : Half) (nsid : Word) (cdws : Vector Word 14)
    (data : List Byte) : List Byte :=
  withMic cfg ((miHeader true false).toBytes ++ [opcode, flags] ++ littleEndian 2 controller.toNat
    ++ littleEndian 4 nsid.toNat ++ cdws.toList.flatMap (fun w => littleEndian 4 w.toNat) ++ data)

/-- An MI response: message header, status field, response data, MIC (R83). -/
def miResponse (cfg : Config) (status : Vector Byte 4) (data : List Byte) : List Byte :=
  withMic cfg ((miHeader false true).toBytes ++ status.toList ++ data)

/-- An MI-Admin response: message header, status field, completion-queue echo, data, MIC (R84). -/
def adminResponse (cfg : Config) (status : Vector Byte 4) (echo : Vector Byte 12) (data : List Byte) : List Byte :=
  withMic cfg ((miHeader true true).toBytes ++ status.toList ++ echo.toList ++ data)

end Sys2Proof.Machine
end

