-- ==== Sys2Proof/Safety.lean ====
section
/-! DEFINITION. The terms the statements are made in: the invariant of the machine, the packets of a
message on their way out, and packets as the bus delivers them. -/

namespace Sys2Proof.Machine

open Sys2Proof

/-! ### Where the machine stands -/

/-- The orchestrator's state InExchange (R179): an EXECUTE past its open phase is running. In every other
state it is Idle. -/
def inExchange (s : State) : Bool :=
  match s.running with
  | some ⟨.execute, _, .opening _⟩ => false
  | some ⟨.execute, _, _⟩ => true
  | _ => false

/-! ### Steps of a running command -/

/-- No reset reaches the machine in the next `n` steps of a running command. (A host access that comes next
stays where it is: the port is blocked, R50.) -/
def NoResetFor : Nat → List Input → Prop
  | 0, _ => True
  | _ + 1, [] => True
  | _ + 1, .host _ :: _ => True
  | _ + 1, .reset :: _ => False
  | n + 1, .wait :: rest => NoResetFor n rest

/-- What host and platform still have to do after `n` steps of a running command without a reset: a `wait`
passes with each step, a host access stays. -/
def inputsAfter : Nat → List Input → List Input
  | n + 1, .wait :: rest => inputsAfter n rest
  | _, inputs => inputs

/-- The bus gives these answers, one a step, and then does `rest`. -/
def answered (answers : List BusAnswer) (rest : List BusEvent) : List BusEvent := answers.map .answer ++ rest

/-- A list of bus events in which the bus answers every transaction. -/
def AlwaysAnswers (events : List BusEvent) : Prop := ∀ e ∈ events, e ≠ .silent

/-- The same answers of the bus with no silent step between them. -/
def answersOnly (events : List BusEvent) : List BusEvent := events.filter fun e => decide (e ≠ .silent)

/-- The transaction whose answer a command awaits in a phase (R13, R35). -/
def awaited (s : State) : Phase → BusOp
  | .opening _ => .busOpen
  | .sending f => .busWrite (packetBytes s f f.index)
  | .awaitHeader _ => .busRead 8
  | .awaitBody _ h => .busRead (h.byteCount.toNat - 4)
  | .closing => .busClose

/-- A transaction that opens the bus. -/
def BusOp.isOpen : BusOp → Bool
  | .busOpen => true
  | _ => false

/-- A transaction that closes the bus. -/
def BusOp.isClose : BusOp → Bool
  | .busClose => true
  | _ => false

/-- A transaction that writes. -/
def BusOp.isWrite : BusOp → Bool
  | .busWrite _ => true
  | _ => false

/-- A transaction that reads. -/
def BusOp.isRead : BusOp → Bool
  | .busRead _ => true
  | _ => false

/-- The bounds of R227 on the transactions of one command, kind by kind. -/
def WithinBounds (c : Config) (ops : List BusOp) : Prop :=
  ops.countP BusOp.isOpen ≤ c.openAttempts ∧ ops.countP BusOp.isWrite ≤ max 1 c.msgCap ∧
  ops.countP BusOp.isRead ≤ 2 * (c.replyCap / 9) + 1 ∧ ops.countP BusOp.isClose ≤ 1

/-- As many bus answers as no command outlasts (R227). -/
def enoughAnswers (c : Config) : Nat := c.openAttempts + max 1 c.msgCap + (2 * (c.replyCap / 9) + 1)

/-! ### The invariant -/

/-- The reply counters: RAW_LEN counts 9 bytes a packet more than RX_LEN, stays within REPLYBUF (of `cap`
bytes), and both are 0 when no packet was accepted (R29, R30, R142, R147). -/
def CountersOk (cap raw received accepted : Nat) : Prop :=
  raw = received + 9 * accepted ∧ raw ≤ cap ∧ (accepted = 0 → received = 0)

/-- A command in its transmit or receive phase has the bus open and no valid reply (R32, R33). -/
def InTransfer (s : State) : Prop := s.busOpen = true ∧ s.replyValid = false

/-- A receive phase agrees with the registers (R135, R142). -/
def ReceivingOk (s : State) (command : BusCommand) (r : Receiving) : Prop :=
  (command = .deframe ∨ command = .execute) ∧ InTransfer s ∧ r.mtu = s.mtu.toNat ∧ r.check = pecCheck s ∧
  r.raw = s.rawLen.toNat ∧ r.received = s.rxLen.toNat ∧
  CountersOk s.config.replyCap r.raw r.received r.accepted ∧ r.raw + 8 ≤ s.config.replyCap

/-- What holds while a command waits in a phase (R35). -/
def PhaseOk (s : State) (command : BusCommand) : Phase → Prop
  | .opening attempt =>
    (command = .openBus ∨ (command = .execute ∧ s.argB.toNat ≤ s.config.msgCap)) ∧ s.busOpen = false ∧
      1 ≤ attempt ∧ attempt ≤ s.config.openAttempts
  | .sending f =>
    (command = .frame ∨ command = .execute) ∧ InTransfer s ∧ f.mtu = s.mtu.toNat ∧ f.len = s.argB.toNat ∧
      f.len ≤ s.config.msgCap ∧ f.count = packetCount f.len f.mtu ∧ f.index < f.count
  | .awaitHeader r => ReceivingOk s command r
  | .awaitBody r h =>
    ReceivingOk s command r ∧ 5 ≤ h.byteCount.toNat ∧ h.byteCount.toNat ≤ r.mtu + 5 ∧
      r.raw + h.byteCount.toNat + 4 ≤ s.config.replyCap
  | .closing => command = .closeBus ∧ s.busOpen = true ∧ s.result = 0

/-- The invariant of the machine: its parameters are legal (R8), memory is in canonical form and lists
mapped addresses only (R51), the MTU is legal (R26), the reply counters agree (R29, R30), a valid reply has at
least one packet (R32, R146), and the running command is in a state its rules give (R35). -/
structure Inv (s : State) : Prop where
  config : s.config.Legal
  memory : s.mem.wf
  mapped : ∀ e ∈ s.mem, (windowOf s.config e.1).isSome = true
  mtu : 1 ≤ s.mtu.toNat ∧ s.mtu.toNat ≤ 250
  counters : ∃ n, CountersOk s.config.replyCap s.rawLen.toNat s.rxLen.toNat n
  reply : s.replyValid = true → 9 ≤ s.rawLen.toNat
  phase : ∀ r, s.running = some r → PhaseOk s r.command r.phase

/-! ### The packets FRAME sends -/

/-- What `frame_phase(len)` computes at its start in state `s`: the packet count (R116) at the current MTU. -/
def sendingOf (s : State) : Sending :=
  ⟨s.argB.toNat, s.mtu.toNat, packetCount s.argB.toNat s.mtu.toNat, 0⟩

/-- The packets of the message `MSGBUF[0..ARG_B)`, in order (R122). -/
def framePackets (s : State) : List (List Byte) :=
  (List.range (sendingOf s).count).map (packetBytes s (sendingOf s))

/-- The writes that hand packets to the bus. -/
def writesOf (packets : List (List Byte)) : List BusOp := packets.map .busWrite

/-- By these answers the bus reports every one of these packets wholly written (R122). (The bytes of an
answer are no part of what a write reads.) -/
def Acknowledge (answers : List BusAnswer) (packets : List (List Byte)) : Prop :=
  List.Forall₂ (fun a p => ∃ unread, a = .ok p.length unread) answers packets

/-! ### The open phase -/

/-- The answers that carry a command through its open phase (R175): none when the bus is open, else fewer
`Err` than there are attempts, and then an `Ok`. -/
def OpensBus (s : State) (answers : List BusAnswer) : Prop :=
  if s.busOpen then answers = []
  else ∃ n count unread, n < s.config.openAttempts ∧ answers = List.replicate n .err ++ [.ok count unread]

/-! ### Packets the bus delivers -/

/-- One packet as two reads deliver it: its header, its payload, its PEC byte. (`unread` are the counts of
the two answers, which a read does not look at.) -/
structure Delivery where
  header : Header
  payload : List Byte
  pec : Byte
  unread : Nat × Nat
deriving DecidableEq, Repr

/-- The bytes of the packet, verbatim (R140). -/
def Delivery.raw (d : Delivery) : List Byte := d.header.toBytes ++ d.payload ++ [d.pec]

/-- The two answers that deliver the packet (R137, R140). -/
def Delivery.answers (d : Delivery) : List BusAnswer :=
  [.ok d.unread.1 d.header.toBytes, .ok d.unread.2 (d.payload ++ [d.pec])]

/-- The reads that fetch the packet (R60, R65). -/
def Delivery.reads (d : Delivery) : List BusOp := [.busRead 8, .busRead (d.payload.length + 1)]

/-- The byte count says what the packet carries, the payload is no more than an MTU, and the PEC is right
where it is checked (R138, R141). -/
def Delivery.Acceptable (mtu : Nat) (check : Bool) (d : Delivery) : Prop :=
  d.header.byteCount.toNat = d.payload.length + 5 ∧ d.payload.length ≤ mtu ∧
  (check = true → d.pec = pecOf d.header d.payload)

/-- The raw bytes of delivered packets, in order. -/
def rawOf (ds : List Delivery) : List Byte := ds.flatMap Delivery.raw

/-- The payloads of delivered packets, in order: the reassembled message (R147). -/
def messageOf (ds : List Delivery) : List Byte := ds.flatMap Delivery.payload

/-- The answers that deliver packets. -/
def answersOf (ds : List Delivery) : List BusAnswer := ds.flatMap Delivery.answers

/-- The reads that fetch packets. -/
def readsOf (ds : List Delivery) : List BusOp := ds.flatMap Delivery.reads

/-- Packets that leave a receive phase in its loop: each is acceptable, none has EOM, and they fit
REPLYBUF (R139, R143). -/
def Continues (s : State) (ds : List Delivery) : Prop :=
  (∀ d ∈ ds, d.Acceptable s.mtu.toNat (s.options.getLsbD 2) ∧ d.header.eom = false) ∧
  (rawOf ds).length ≤ s.config.replyCap

/-- A whole response: acceptable packets, the last and no other with EOM, that fit REPLYBUF (R143). -/
def Response (s : State) (ds : List Delivery) (last : Delivery) : Prop :=
  Continues s ds ∧ last.Acceptable s.mtu.toNat (s.options.getLsbD 2) ∧ last.header.eom = true ∧
  (rawOf (ds ++ [last])).length ≤ s.config.replyCap

/-- A packet FRAME sent, as a bus that sends it back delivers it: its first eight bytes, then the rest. -/
def echoOf (packet : List Byte) : List BusAnswer := [.ok 0 (packet.take 8), .ok 0 (packet.drop 8)]

/-- The state DEFRAME leaves when its reception fails after the packets `ds` (R145): the reply is a draw (the
next of the model's numbered draws: assumption log, entries 5 and 6), the counters and the log are those
of the packets accepted, `ops` are the reads issued after them, and each read took a step. -/
def failedReception (s : State) (ds : List Delivery) (code : StatusCode) (ops : List BusOp)
    (rest : List BusEvent) : State :=
  { s with
    err := code
    short := false
    replyValid := false
    result := BitVec.ofNat 32 ds.length
    rawLen := BitVec.ofNat 16 (rawOf ds).length
    rxLen := BitVec.ofNat 16 (messageOf ds).length
    mem := s.mem.erase 0x4000 s.config.replyCap
    replyDraw := s.replyDraw + 1
    running := none
    inputs := inputsAfter (2 * ds.length + ops.length) s.inputs
    bus := rest
    busLog := s.busLog ++ readsOf ds ++ ops
    portLog := s.portLog ++ [.done] }

end Sys2Proof.Machine
end

