-- ==== Sys2Proof/Certificates/Slice0/Obligations.lean ====
section
/-! DEFINITION. The statements about the model, each the Lean form of rules of spec/ (OBLIGATIONS.json says
which). The packet layout, the byte positions and the register fields are written out here from the rules
and not through the functions the meanings use, except where a definition of Sys2Proof/Safety.lean says
what it abbreviates. A command that uses the bus is stated as `exec`, which issues its first transaction,
and a run of as many steps as the bus gives answers (R3, R13); what the bus does after them is any list. -/

open Sys2Proof Sys2Proof.Machine

/-! ### Command words -/

/-- R87 to R89: the decoder reads an instruction from exactly one word, the one the encoder writes. -/
def Obligations.DecodeIffEncode : Prop :=
  ∀ (w : Word) (i : Instr), decode w = .ok i ↔ w = encode i

/-- R88: the words of the opcode map. -/
def Obligations.CommandWordsDecode : Prop :=
  decode 0x00000001 = .ok .crc8 ∧ decode 0x00000002 = .ok .crc32 ∧ decode 0x00000003 = .ok .frame ∧
  decode 0x00000004 = .ok .deframe ∧ decode 0x00000005 = .ok .execute ∧
  decode 0x00000006 = .ok (.extract false false) ∧ decode 0x00000106 = .ok (.extract true false) ∧
  decode 0x00000206 = .ok (.extract false true) ∧ decode 0x00000306 = .ok (.extract true true) ∧
  decode 0x00000007 = .ok .peek ∧ decode 0x00000008 = .ok .openBus ∧ decode 0x00000009 = .ok .closeBus

/-- R89: which words are illegal, what writing one does, and that every other word is a row of R88. -/
def Obligations.IllegalWordEndsWithBadOp : Prop :=
  ∀ (s : State) (w : Word) (rest : List Input), s.running = none →
    s.inputs = .host (.write32 0x0000 w) :: rest →
    let illegal : Prop :=
      (w.extractLsb' 0 8 = 0x00 ∨ 0x0A ≤ (w.extractLsb' 0 8).toNat) ∨ w.extractLsb' 10 22 ≠ 0 ∨
      (w.extractLsb' 0 8 ≠ 0x06 ∧ (w.getLsbD 8 = true ∨ w.getLsbD 9 = true))
    (illegal → step s = .next
      { s with inputs := rest, err := .badOp, short := false, result := 0, portLog := s.portLog ++ [.done] }) ∧
    (¬illegal → ∃ i, w = encode i)

/-! ### Steps -/

/-- R21: a step whose host access writes a legal word to CMD runs that command: the step is `exec` of it, with
the access taken from the list of inputs and nothing else around it. -/
def Obligations.StepRunsDecodedCommand : Prop :=
  ∀ (s : State) (w : Word) (rest : List Input) (i : Instr), s.running = none →
    s.inputs = .host (.write32 0x0000 w) :: rest → decode w = .ok i →
    ∃ t, exec i { s with inputs := rest } = .next t ∧ step s = .next t

/-- The model's choice (assumption log, entry 11): the word of an instruction that `withFetchWord` places is
the one the very next step runs. -/
def Obligations.FetchWordRunsCommand : Prop :=
  ∀ (s : State) (i : Instr), ∃ t, exec i { s with running := none } = .next t ∧
    step (s.withFetchWord 32 (encode i).toNat) = .next t

/-- R200 to R202: no trap and no fault exists, so every command and every step gives a next state. -/
def Obligations.EveryStepGivesANextState : Prop :=
  (∀ (i : Instr) (s : State), ∃ t, exec i s = .next t) ∧ (∀ s : State, ∃ t, step s = .next t)

/-- R207: between commands, with no access from the host, the machine holds all its state, however long the
host waits. -/
def Obligations.IdleMachineHoldsItsState : Prop :=
  ∀ s : State, s.running = none →
    (s.inputs = [] → step s = .next s) ∧
    (∀ rest, s.inputs = .wait :: rest → step s = .next { s with inputs := rest })

/-- R5, R50: while a command runs the port takes no access, and it answers the CMD write when the command is
over and not before. -/
def Obligations.PortBlockedWhileCommandRuns : Prop :=
  ∀ (s : State) (r : Running), s.running = some r → (∀ rest, s.inputs ≠ .reset :: rest) →
    ∃ t, step s = .next t ∧ (∀ x rest, s.inputs = .host x :: rest → t.inputs = s.inputs) ∧
      t.inputs = inputsAfter 1 s.inputs ∧
      (t.running = none → t.portLog = s.portLog ++ [.done]) ∧ (t.running ≠ none → t.portLog = s.portLog)

/-- R226: a command whose bus never answers never completes, however many steps pass, unless reset comes. -/
def Obligations.UnansweredCommandWaitsForReset : Prop :=
  ∀ (s : State) (r : Running) (n : Nat), s.running = some r → s.bus = [] → NoResetFor n s.inputs →
    Host.Core.run Sys2Proof.core n s = .next { s with inputs := inputsAfter n s.inputs }

/-- R227: every command completes when every bus transaction it issues is answered, one step an answer: a fresh
one within the bounds of each kind (at this hardware's parameters 10 opens, 5120 writes, 1137 reads), and one
that was waiting for the bus, the transaction it waited for among them. -/
def Obligations.CommandCompletesWhenAnswered : Prop :=
  (∀ (i : Instr) (s : State), Inv s → AlwaysAnswers s.bus → enoughAnswers s.config ≤ s.bus.length →
    NoResetFor (enoughAnswers s.config) s.inputs →
    ∃ b ops t, exec i s = .next b ∧ Host.Core.run Sys2Proof.core ops.length b = .next t ∧ t.running = none ∧
      t.busLog = s.busLog ++ ops ∧ t.bus = s.bus.drop ops.length ∧ WithinBounds s.config ops) ∧
  (∀ (s : State) (r : Running), Inv s → s.running = some r → AlwaysAnswers s.bus →
    enoughAnswers s.config ≤ s.bus.length → NoResetFor (enoughAnswers s.config) s.inputs →
    ∃ ops t, Host.Core.run Sys2Proof.core (ops.length + 1) s = .next t ∧ t.running = none ∧
      t.busLog = s.busLog ++ ops ∧ t.bus = s.bus.drop (ops.length + 1) ∧
      WithinBounds s.config (awaited s r.phase :: ops)) ∧
  enoughAnswers Config.mfe = 10 + 5120 + 1137

/-! ### Reset -/

/-- R40: the reset values, at this hardware's parameters, and that other parameters change MTU alone (R9). (That
an unwritten byte is the draw `Config.freeByte`, and that the draws are numbered from 0, is the model's:
assumption log, entries 5 and 6.) -/
def Obligations.ResetStateValues : Prop :=
  State.reset.argA = 0x0000 ∧ State.reset.argB = 0x0000 ∧ statusWord State.reset = 0x00000000 ∧
  State.reset.err = .ok ∧ State.reset.replyValid = false ∧ State.reset.busOpen = false ∧
  State.reset.short = false ∧ State.reset.result = 0x00000000 ∧ State.reset.rxLen = 0x0000 ∧
  State.reset.rawLen = 0x0000 ∧ State.reset.mtu = 64 ∧ State.reset.addr = 0x00000000 ∧
  State.reset.options = 0b101 ∧ State.reset.running = none ∧ State.reset.config = Config.mfe ∧
  (∀ (sp : Space) (i : Nat), readByte State.reset sp i = Config.freeByte sp.base 0 i) ∧
  ∀ c : Config, State.resetWith c = { State.reset with config := c, mtu := c.mtuReset }

/-- R215, R40: the reset event, whatever runs: the reset values, every buffer byte a new draw, no bus
transaction, and the pending CMD write of a running command completes. (That the draws are numbered is the
model's: assumption log, entries 5 and 6. That the list of bus events stays as it is, `t.bus = s.bus`, is the
model's reading of R216's ignored answer: assumption log, entry 17.) -/
def Obligations.ResetEventSetsResetValues : Prop :=
  ∀ (s : State) (rest : List Input), s.inputs = .reset :: rest →
    ∃ t, step s = .next t ∧ t.argA = 0x0000 ∧ t.argB = 0x0000 ∧ statusWord t = 0x00000000 ∧
      t.result = 0x00000000 ∧ t.rxLen = 0x0000 ∧ t.rawLen = 0x0000 ∧ t.mtu = s.config.mtuReset ∧
      t.addr = 0x00000000 ∧ t.options = 0b101 ∧ t.running = none ∧ t.config = s.config ∧
      (∀ (sp : Space) (i : Nat), readByte t sp i = Config.freeByte sp.base (drawOf s sp + 1) i) ∧
      t.busLog = s.busLog ∧ t.bus = s.bus ∧ t.inputs = rest ∧
      t.portLog = if s.running.isSome then s.portLog ++ [.done] else s.portLog

/-- R217: what the host reads after reset, before any command, whatever comes later. (A window reads the draw
numbered 0: assumption log, entries 5 and 6.) -/
def Obligations.RegistersReadAfterReset : Prop :=
  ∀ (rest : List Input) (events : List BusEvent),
    (∀ a v, (a, v) ∈ ([(0x0C, 0x00000000), (0x1C, 0x00000040), (0x24, 0x00000005), (0x20, 0), (0x10, 0),
        (0x14, 0), (0x18, 0)] : List (Half × Word)) →
      step { State.reset with inputs := .host (.read32 a) :: rest, bus := events } =
        .next { State.reset with inputs := rest, bus := events, portLog := [.word v] }) ∧
    (∀ (sp : Space) (i : Nat), i < 5120 →
      step { State.reset with inputs := .host (.read8 (BitVec.ofNat 16 (sp.base + i))) :: rest, bus := events } =
        .next
          { State.reset with
            inputs := rest, bus := events, portLog := [.byte (Config.freeByte sp.base 0 i)] })

/-! ### The invariant -/

/-- The invariant holds after reset (R40), at every legal choice of the parameters (R8). -/
def Obligations.InvariantHoldsAtReset : Prop :=
  Inv State.reset ∧ ∀ c : Config, c.Legal → Inv (State.resetWith c)

/-- Every step keeps the invariant: canonical memory inside the buffers (R51), a legal MTU (R26), the reply
counters (R29, R30), and a running command in a state of its rule (R35), whatever the host and the bus
do next. -/
def Obligations.StepKeepsTheInvariant : Prop :=
  ∀ s t : State, Inv s → step s = .next t → Inv t

/-! ### Host port -/

/-- R20, R22, R23, R27, R28: what a write to ARG_A, ARG_B, ADDR and OPTIONS leaves, and that the read-only
registers ignore writes. -/
def Obligations.RegisterWritesKeepUsedBits : Prop :=
  ∀ (s : State) (a : Half) (v : Word) (rest : List Input), s.running = none →
    s.inputs = .host (.write32 a v) :: rest →
    let t : State := { s with inputs := rest, portLog := s.portLog ++ [.done] }
    (a = 0x04 → step s = .next { t with argA := v.extractLsb' 0 16 }) ∧
    (a = 0x08 → step s = .next { t with argB := v.extractLsb' 0 16 }) ∧
    (a = 0x20 → step s = .next { t with addr := v }) ∧
    (a = 0x24 → step s = .next { t with options := v.extractLsb' 0 3 }) ∧
    (a = 0x0C ∨ a = 0x10 ∨ a = 0x14 ∨ a = 0x18 → step s = .next t)

/-- R26: MTU takes legal values only, reads zero-extended, is 64 after reset, and no command writes it. -/
def Obligations.MtuTakesLegalValuesOnly : Prop :=
  (∀ (s : State) (v : Word) (rest : List Input), s.running = none →
    s.inputs = .host (.write32 0x1C v) :: rest →
    (1 ≤ v.toNat ∧ v.toNat ≤ 250 → ∃ t, step s = .next t ∧ t.mtu.toNat = v.toNat ∧
      t = { s with inputs := rest, portLog := s.portLog ++ [.done], mtu := t.mtu }) ∧
    (¬(1 ≤ v.toNat ∧ v.toNat ≤ 250) →
      step s = .next { s with inputs := rest, portLog := s.portLog ++ [.done] })) ∧
  (∀ (s : State) (rest : List Input), s.running = none → s.inputs = .host (.read32 0x1C) :: rest →
    step s = .next { s with inputs := rest, portLog := s.portLog ++ [.word (s.mtu.zeroExtend 32)] }) ∧
  State.reset.mtu = 64 ∧
  (∀ (i : Instr) (s t : State), exec i s = .next t → t.mtu = s.mtu) ∧
  (∀ (s t : State) (r : Running), s.running = some r → (∀ rest, s.inputs ≠ .reset :: rest) →
    step s = .next t → t.mtu = s.mtu)

/-- R20 to R30: what each register reads as; a read changes nothing but the port's answers (R61). -/
def Obligations.RegisterReads : Prop :=
  ∀ (s : State) (a : Half) (rest : List Input), s.running = none → s.inputs = .host (.read32 a) :: rest →
    let answers (v : Word) : Prop := step s = .next { s with inputs := rest, portLog := s.portLog ++ [.word v] }
    (a = 0x00 → answers 0) ∧ (a = 0x04 → answers (s.argA.zeroExtend 32)) ∧
    (a = 0x08 → answers (s.argB.zeroExtend 32)) ∧ (a = 0x0C → answers (statusWord s)) ∧
    (a = 0x10 → answers s.result) ∧ (a = 0x14 → answers (s.rxLen.zeroExtend 32)) ∧
    (a = 0x18 → answers (s.rawLen.zeroExtend 32)) ∧ (a = 0x1C → answers (s.mtu.zeroExtend 32)) ∧
    (a = 0x20 → answers s.addr) ∧ (a = 0x24 → answers (s.options.zeroExtend 32))

/-- R24, R195: the fields of STATUS and the numbers of the status codes. -/
def Obligations.StatusRegisterLayout : Prop :=
  (∀ s : State, (statusWord s).extractLsb' 0 8 = s.err.toByte ∧ (statusWord s).getLsbD 8 = s.replyValid ∧
    (statusWord s).getLsbD 9 = s.busOpen ∧ (statusWord s).getLsbD 10 = s.short ∧
    (statusWord s).extractLsb' 11 21 = 0) ∧
  [StatusCode.ok, .transportOpenFailure, .transportIOFailure, .allocationFailure, .noBuffer, .pecMismatch,
    .badByteCount, .replyOverflow, .badLength, .notOpen, .noReply, .badOp].map StatusCode.toByte =
    [0, 1, 2, 3, 4, 5, 6, 7, 8, 9, 10, 11]

/-- R52, R53, R54: an access of the wrong width, to an address that is no register's, or to an unmapped address
is an access error, which changes no state. -/
def Obligations.WrongAccessesAreErrors : Prop :=
  ∀ (s : State) (rest : List Input) (a : Half), s.running = none →
    let error : Prop := step s = .next { s with inputs := rest, portLog := s.portLog ++ [.error 0] }
    let register : Prop := a ∈ ([0x00, 0x04, 0x08, 0x0C, 0x10, 0x14, 0x18, 0x1C, 0x20, 0x24] : List Half)
    let window : Prop := (0x2000 ≤ a.toNat ∧ a.toNat < 0x2000 + s.config.msgCap) ∨
      (0x4000 ≤ a.toNat ∧ a.toNat < 0x4000 + s.config.replyCap) ∨
      (0x6000 ≤ a.toNat ∧ a.toNat < 0x6000 + s.config.outCap)
    (∀ v, s.inputs = .host (.write32 a v) :: rest → ¬register → error) ∧
    (s.inputs = .host (.read32 a) :: rest → ¬register → error) ∧
    (∀ b, s.inputs = .host (.write8 a b) :: rest → ¬window → error) ∧
    (s.inputs = .host (.read8 a) :: rest → ¬window → error)

/-- R55: a byte write into MSGBUF's window stores that byte and changes no other byte and no register. -/
def Obligations.MessageWindowWriteStoresOneByte : Prop :=
  ∀ (s : State) (i : Nat) (b : Byte) (rest : List Input), s.config.Legal → i < s.config.msgCap →
    s.running = none → s.inputs = .host (.write8 (BitVec.ofNat 16 (0x2000 + i)) b) :: rest →
    ∃ t, step s = .next t ∧ readByte t .msg i = b ∧
      (∀ sp j, ¬(sp = .msg ∧ j = i) → readByte t sp j = readByte s sp j) ∧
      t = { s with inputs := rest, portLog := s.portLog ++ [.done], mem := t.mem }

/-- R55, R56, R57: a byte read of a window answers the byte and changes nothing; REPLYBUF's and OUTBUF's windows
ignore writes. -/
def Obligations.WindowReadsAndIgnoredWrites : Prop :=
  ∀ (s : State) (sp : Space) (i : Nat) (rest : List Input), s.config.Legal → i < sp.cap s.config →
    s.running = none →
    (s.inputs = .host (.read8 (BitVec.ofNat 16 (sp.base + i))) :: rest →
      step s = .next { s with inputs := rest, portLog := s.portLog ++ [.byte (readByte s sp i)] }) ∧
    (∀ b, s.inputs = .host (.write8 (BitVec.ofNat 16 (sp.base + i)) b) :: rest → sp ≠ .msg →
      step s = .next { s with inputs := rest, portLog := s.portLog ++ [.done] })

/-- R12, R51: `MemRead`, `MemWrite` and `havoc` on the three buffers: a stored byte string reads back, no byte
outside it changes in any buffer, and after `havoc` every byte of that buffer, and no other byte, is its next
draw. (That the draws are numbered is the model's: assumption log, entry 5.) -/
def Obligations.BufferReadsAndWrites : Prop :=
  ∀ (s : State) (sp : Space), s.config.Legal →
    (∀ (a : Nat) (bs : List Byte), a + bs.length ≤ sp.cap s.config →
      memRead (memWrite sp a bs s) sp a bs.length = bs ∧
      (∀ sp' i, ¬(sp' = sp ∧ a ≤ i ∧ i < a + bs.length) →
        readByte (memWrite sp a bs s) sp' i = readByte s sp' i) ∧
      memWrite sp a bs s = { s with mem := s.mem.write (sp.base + a) bs } ∧
      (s.mem.wf → (memWrite sp a bs s).mem.wf)) ∧
    (∀ sp' i, readByte (havoc sp s) sp' i =
      if sp' = sp then Config.freeByte sp.base (drawOf s sp + 1) i else readByte s sp' i)

/-! ### Checksum engine -/

/-- R102: CRC8 completes with the CRC-8 of its span, or ends with BadLength when the span passes MSG_CAP. -/
def Obligations.Crc8CommandResult : Prop :=
  ∀ s : State,
    (s.argA.toNat + s.argB.toNat ≤ s.config.msgCap → exec .crc8 s = .next
      { s with err := .ok, short := false, running := none, portLog := s.portLog ++ [.done]
               result := (crc8 (memRead s .msg s.argA.toNat s.argB.toNat)).zeroExtend 32 }) ∧
    (s.config.msgCap < s.argA.toNat + s.argB.toNat → exec .crc8 s = .next
      { s with err := .badLength, short := false, running := none, result := 0
               portLog := s.portLog ++ [.done] })

/-- R106: CRC32 completes with the CRC-32 of its span, or ends with BadLength when the span passes MSG_CAP. -/
def Obligations.Crc32CommandResult : Prop :=
  ∀ s : State,
    (s.argA.toNat + s.argB.toNat ≤ s.config.msgCap → exec .crc32 s = .next
      { s with err := .ok, short := false, running := none, portLog := s.portLog ++ [.done]
               result := crc32 s.config (memRead s .msg s.argA.toNat s.argB.toNat) }) ∧
    (s.config.msgCap < s.argA.toNat + s.argB.toNat → exec .crc32 s = .next
      { s with err := .badLength, short := false, running := none, result := 0
               portLog := s.portLog ++ [.done] })

/-- R100, R101: `crc8` is the engine with polynomial 0x07 (each byte exclusive-ORed into the register, which then
takes eight shifts, most significant bit first, from initial value 0 and with nothing at the end), and so 0xF4 on
the ASCII bytes "123456789"; `crc8` of nothing is 0, `crc8` is linear over GF(2), and so zero on zeros. -/
def Obligations.Crc8IsLinear : Prop :=
  (∀ s : List Byte, crc8 s =
    s.foldl (fun (c : Byte) b =>
      repeated (fun c => if c.getLsbD 7 then (c <<< 1) ^^^ 0x07 else c <<< 1) 8 (c ^^^ b)) 0x00) ∧
  crc8 [0x31, 0x32, 0x33, 0x34, 0x35, 0x36, 0x37, 0x38, 0x39] = 0xF4 ∧ crc8 [] = 0x00 ∧
  (∀ x y : List Byte, x.length = y.length →
    crc8 (List.zipWith (fun a b => a ^^^ b) x y) = crc8 x ^^^ crc8 y) ∧
  (∀ n : Nat, crc8 (List.replicate n 0x00) = 0x00)

/-- R106: two inputs that differ in one byte (so in particular in one bit) have different CRC-32 values, in
both forms of the engine. -/
def Obligations.Crc32DetectsOneChangedByte : Prop :=
  ∀ (cfg : Config) (before after : List Byte) (x y : Byte), x ≠ y →
    crc32 cfg (before ++ x :: after) ≠ crc32 cfg (before ++ y :: after)

/-- R105: a table-driven engine, with the table entry of `i` the eight-step inner loop started from `i` (or from
`i` in the top byte), gives the same function. -/
def Obligations.TableEngineIsCrc32 : Prop :=
  (∀ s : List Byte, crc32 { Config.mfe with crc32Reflected := true } s =
    s.foldl (fun (c : Word) b => (c >>> 8) ^^^
      repeated (fun c => if c.getLsbD 0 then (c >>> 1) ^^^ 0x82F63B78 else c >>> 1) 8
        ((c ^^^ b.zeroExtend 32) &&& 0xFF)) 0xFFFFFFFF ^^^ 0xFFFFFFFF) ∧
  (∀ s : List Byte, crc32 { Config.mfe with crc32Reflected := false } s =
    s.foldl (fun (c : Word) b => (c <<< 8) ^^^
      repeated (fun c => if c.getLsbD 31 then (c <<< 1) ^^^ 0x1EDC6F41 else c <<< 1) 8
        (((c >>> 24) ^^^ b.zeroExtend 32) <<< 24)) 0xFFFFFFFF ^^^ 0xFFFFFFFF)

/-! ### Framer -/

/-- R118, R119, R120, R121: every byte of packet `k` of a message, at this hardware's parameters. -/
def Obligations.PacketBytesFollowTheLayout : Prop :=
  ∀ (s : State) (f : Sending) (k : Nat), s.config = Config.mfe →
    let l := min f.mtu (f.len - k * f.mtu)
    let p := memRead s .msg (k * f.mtu) l
    let flag (p : Prop) [Decidable p] : Byte := if p then 1 else 0
    let control : Byte := (flag (k = 0) <<< 7) ||| (flag (k + 1 = f.count) <<< 6) |||
      (BitVec.ofNat 8 (k % 4) <<< 4) ||| (flag (s.options.getLsbD 0 = true) <<< 3) ||| (3 : Byte)
    let tail : List Byte := [0x01, s.addr.extractLsb' 16 8, s.addr.extractLsb' 24 8, control]
    packetBytes s f k =
      [s.addr.extractLsb' 0 8, 0x0F, BitVec.ofNat 8 (l + 5), s.addr.extractLsb' 8 8] ++ tail ++ p ++
      [if f.count = 1 ∧ s.options.getLsbD 1 = true then crc8 (tail ++ p) ^^^ readByte s .msg 0
       else crc8 (tail ++ p)]

/-- R75: the table of control bytes. -/
def Obligations.ControlByteTable : Prop :=
  controlByte Config.mfe true true 0 true = 0xCB ∧ controlByte Config.mfe true true 0 false = 0xC3 ∧
  controlByte Config.mfe true false 0 true = 0x8B ∧ controlByte Config.mfe true false 0 false = 0x83 ∧
  ∀ k : Nat,
    controlByte Config.mfe false false k true = [0x0B, 0x1B, 0x2B, 0x3B].getD (k % 4) 0 ∧
    controlByte Config.mfe false false k false = [0x03, 0x13, 0x23, 0x33].getD (k % 4) 0 ∧
    controlByte Config.mfe false true k true = [0x4B, 0x5B, 0x6B, 0x7B].getD (k % 4) 0 ∧
    controlByte Config.mfe false true k false = [0x43, 0x53, 0x63, 0x73].getD (k % 4) 0

/-- R116, R117: the packet count, the payload lengths, and that the payloads in order are the message. -/
def Obligations.PayloadsPartitionTheMessage : Prop :=
  ∀ (s : State) (len m : Nat), 1 ≤ m →
    let n := packetCount len m
    (len ≤ m → n = 1) ∧ (m < len → (n - 1) * m < len ∧ len ≤ n * m) ∧
    (∀ k, k + 1 < n → payloadLength len m k = m) ∧ payloadLength len m (n - 1) = len - (n - 1) * m ∧
    (1 ≤ len → 1 ≤ payloadLength len m (n - 1) ∧ payloadLength len m (n - 1) ≤ m) ∧
    (len = 0 → payloadLength len m 0 = 0) ∧
    (List.range n).flatMap (fun k => memRead s .msg (k * m) (payloadLength len m k)) =
      memRead s .msg 0 len

/-- R122, R123: FRAME with the bus writing every packet: one write a packet, in order, one step a write, and the
whole state after it. -/
def Obligations.FrameTransmitsTheMessage : Prop :=
  ∀ (s : State) (answers : List BusAnswer) (rest : List BusEvent), s.argB.toNat ≤ s.config.msgCap →
    s.busOpen = true → 1 ≤ s.mtu.toNat → Acknowledge answers (framePackets s) →
    s.bus = answered answers rest → NoResetFor answers.length s.inputs →
    ∃ b, exec .frame s = .next b ∧ Host.Core.run Sys2Proof.core answers.length b = .next
      { s with
        err := .ok, short := false, replyValid := false, running := none
        result := BitVec.ofNat 32 (framePackets s).length
        inputs := inputsAfter answers.length s.inputs
        bus := rest
        busLog := s.busLog ++ writesOf (framePackets s)
        portLog := s.portLog ++ [.done] }

/-- R122, R198: a write that fails, or reports another count than the packet's length, ends FRAME at once: no
further packet, TransportIOFailure, RESULT the packets written before it, REPLYBUF untouched. -/
def Obligations.FrameStopsAtAFailedWrite : Prop :=
  ∀ (s : State) (answers : List BusAnswer) (a : BusAnswer) (rest : List BusEvent) (packet : List Byte),
    s.argB.toNat ≤ s.config.msgCap → s.busOpen = true → 1 ≤ s.mtu.toNat →
    Acknowledge answers ((framePackets s).take answers.length) →
    (framePackets s)[answers.length]? = some packet →
    (∀ count unread, a = .ok count unread → count ≠ packet.length) →
    s.bus = answered (answers ++ [a]) rest → NoResetFor (answers.length + 1) s.inputs →
    ∃ b, exec .frame s = .next b ∧ Host.Core.run Sys2Proof.core (answers.length + 1) b = .next
      { s with
        err := .transportIOFailure, short := false, replyValid := false, running := none
        result := BitVec.ofNat 32 answers.length
        inputs := inputsAfter (answers.length + 1) s.inputs
        bus := rest
        busLog := s.busLog ++ writesOf ((framePackets s).take (answers.length + 1))
        portLog := s.portLog ++ [.done] }

/-- R123, R199: FRAME's refusals, in their order; nothing but ERR, SHORT and RESULT changes, and the CMD write
completes. -/
def Obligations.FrameRefusals : Prop :=
  ∀ s : State,
    (s.config.msgCap < s.argB.toNat → exec .frame s = .next
      { s with err := .badLength, short := false, result := 0, running := none, portLog := s.portLog ++ [.done] }) ∧
    (s.argB.toNat ≤ s.config.msgCap → s.busOpen = false → exec .frame s = .next
      { s with err := .notOpen, short := false, result := 0, running := none, portLog := s.portLog ++ [.done] })

/-- R3, R13, R35, R226: after `k` answered writes of more FRAME waits, whatever the bus does next, for the answer
to packet `k`, with its place in the message kept. -/
def Obligations.FrameWaitsForEachAnswer : Prop :=
  ∀ (s : State) (answers : List BusAnswer) (rest : List BusEvent), s.argB.toNat ≤ s.config.msgCap →
    s.busOpen = true → 1 ≤ s.mtu.toNat → Acknowledge answers ((framePackets s).take answers.length) →
    answers.length < (framePackets s).length → s.bus = answered answers rest →
    NoResetFor answers.length s.inputs →
    ∃ b, exec .frame s = .next b ∧ Host.Core.run Sys2Proof.core answers.length b = .next
      { s with
        replyValid := false
        running := some ⟨.frame, 0, .sending
          ⟨s.argB.toNat, s.mtu.toNat, (framePackets s).length, answers.length⟩⟩
        inputs := inputsAfter answers.length s.inputs
        bus := rest
        busLog := s.busLog ++ writesOf ((framePackets s).take (answers.length + 1)) }

/-! ### Deframer -/

/-- R136 to R143, R146, R147: DEFRAME with a whole response: REPLYBUF holds its bytes verbatim from offset 0,
the counters count it, two reads a packet, one step a read, and the whole state after it. -/
def Obligations.DeframeReceivesAResponse : Prop :=
  ∀ (s : State) (ds : List Delivery) (last : Delivery) (rest : List BusEvent), s.busOpen = true →
    Response s ds last → s.bus = answered (answersOf (ds ++ [last])) rest →
    NoResetFor (2 * (ds.length + 1)) s.inputs →
    ∃ b, exec .deframe s = .next b ∧ Host.Core.run Sys2Proof.core (2 * (ds.length + 1)) b = .next
      { s with
        err := .ok, short := false, replyValid := true, running := none
        result := BitVec.ofNat 32 (ds.length + 1)
        rawLen := BitVec.ofNat 16 (rawOf (ds ++ [last])).length
        rxLen := BitVec.ofNat 16 (messageOf (ds ++ [last])).length
        mem := s.mem.write 0x4000 (rawOf (ds ++ [last]))
        inputs := inputsAfter (2 * (ds.length + 1)) s.inputs
        bus := rest
        busLog := s.busLog ++ readsOf (ds ++ [last])
        portLog := s.portLog ++ [.done] }

/-- R146: DEFRAME's refusal; nothing but ERR, SHORT and RESULT changes, and the CMD write completes. -/
def Obligations.DeframeRefusedWhenNotOpen : Prop :=
  ∀ s : State, s.busOpen = false →
    exec .deframe s = .next
      { s with err := .notOpen, short := false, result := 0, running := none, portLog := s.portLog ++ [.done] }

/-- R137, R140, R145: a header read or a body read that fails, or answers another length, ends DEFRAME with
TransportIOFailure after the packets accepted so far. (That the reply is then the next numbered draw,
`failedReception`, is the model's: assumption log, entries 5 and 6.) -/
def Obligations.DeframeFailsOnAFailedRead : Prop :=
  ∀ (s : State) (ds : List Delivery) (a : BusAnswer) (rest : List BusEvent), s.busOpen = true → Continues s ds →
    ((rawOf ds).length + 8 ≤ s.config.replyCap → s.bus = answered (answersOf ds ++ [a]) rest →
      NoResetFor (2 * ds.length + 1) s.inputs → (∀ count t, a = .ok count t → t.length ≠ 8) →
      ∃ b, exec .deframe s = .next b ∧ Host.Core.run Sys2Proof.core (2 * ds.length + 1) b =
        .next (failedReception s ds .transportIOFailure [.busRead 8] rest)) ∧
    (∀ (h : Header) (unread : Nat), 5 ≤ h.byteCount.toNat → h.byteCount.toNat ≤ s.mtu.toNat + 5 →
      (rawOf ds).length + h.byteCount.toNat + 4 ≤ s.config.replyCap →
      s.bus = answered (answersOf ds ++ [.ok unread h.toBytes, a]) rest →
      NoResetFor (2 * ds.length + 2) s.inputs →
      (∀ count t, a = .ok count t → t.length ≠ h.byteCount.toNat - 4) →
      ∃ b, exec .deframe s = .next b ∧ Host.Core.run Sys2Proof.core (2 * ds.length + 2) b =
        .next (failedReception s ds .transportIOFailure [.busRead 8, .busRead (h.byteCount.toNat - 4)] rest))

/-- R138: a byte count below 5 or above MTU + 5 ends DEFRAME with BadByteCount; the body is not read. (That the
reply is then the next numbered draw, `failedReception`, is the model's: assumption log, entries 5 and 6.) -/
def Obligations.DeframeChecksTheByteCount : Prop :=
  ∀ (s : State) (ds : List Delivery) (h : Header) (unread : Nat) (rest : List BusEvent), s.busOpen = true →
    Continues s ds → (rawOf ds).length + 8 ≤ s.config.replyCap →
    s.bus = answered (answersOf ds ++ [.ok unread h.toBytes]) rest →
    NoResetFor (2 * ds.length + 1) s.inputs → (h.byteCount.toNat < 5 ∨ s.mtu.toNat + 5 < h.byteCount.toNat) →
    ∃ b, exec .deframe s = .next b ∧ Host.Core.run Sys2Proof.core (2 * ds.length + 1) b =
      .next (failedReception s ds .badByteCount [.busRead 8] rest)

/-- R139: a header or a body that would pass REPLY_CAP ends DEFRAME with ReplyOverflow and is not read. (That the
reply is then the next numbered draw, `failedReception`, is the model's: assumption log, entries 5 and 6.) -/
def Obligations.DeframeChecksTheCapacity : Prop :=
  ∀ (s : State) (ds : List Delivery) (rest : List BusEvent), s.busOpen = true → Continues s ds →
    (s.config.replyCap < (rawOf ds).length + 8 → s.bus = answered (answersOf ds) rest →
      NoResetFor (2 * ds.length) s.inputs →
      ∃ b, exec .deframe s = .next b ∧ Host.Core.run Sys2Proof.core (2 * ds.length) b =
        .next (failedReception s ds .replyOverflow [] rest)) ∧
    (∀ (h : Header) (unread : Nat), (rawOf ds).length + 8 ≤ s.config.replyCap → 5 ≤ h.byteCount.toNat →
      h.byteCount.toNat ≤ s.mtu.toNat + 5 → s.config.replyCap < (rawOf ds).length + 8 + (h.byteCount.toNat - 4) →
      s.bus = answered (answersOf ds ++ [.ok unread h.toBytes]) rest →
      NoResetFor (2 * ds.length + 1) s.inputs →
      ∃ b, exec .deframe s = .next b ∧ Host.Core.run Sys2Proof.core (2 * ds.length + 1) b =
        .next (failedReception s ds .replyOverflow [.busRead 8] rest))

/-- R141: with PEC_CHECK set, a packet whose PEC byte is not the CRC-8 of its header-tail and payload ends
DEFRAME with PecMismatch; it is not counted. (That the reply is then the next numbered draw, `failedReception`,
is the model's: assumption log, entries 5 and 6.) -/
def Obligations.DeframeChecksThePec : Prop :=
  ∀ (s : State) (ds : List Delivery) (d : Delivery) (rest : List BusEvent), s.busOpen = true →
    s.options.getLsbD 2 = true → Continues s ds →
    d.header.byteCount.toNat = d.payload.length + 5 → d.payload.length ≤ s.mtu.toNat →
    (rawOf (ds ++ [d])).length ≤ s.config.replyCap → s.bus = answered (answersOf (ds ++ [d])) rest →
    NoResetFor (2 * ds.length + 2) s.inputs →
    d.pec ≠ crc8 ([d.header.version, d.header.dstEid, d.header.srcEid, d.header.control] ++ d.payload) →
    ∃ b, exec .deframe s = .next b ∧ Host.Core.run Sys2Proof.core (2 * ds.length + 2) b =
      .next (failedReception s ds .pecMismatch d.reads rest)

/-- R149: what DEFRAME makes of the packets FRAME sent, with the same parameters and MTU: the message byte for
byte when `len + 9·n <= REPLY_CAP`, and ReplyOverflow otherwise. -/
def Obligations.FramedMessageRoundTrips : Prop :=
  ∀ (s t : State) (rest : List BusEvent), s.config.Legal → t.config = s.config →
    1 ≤ s.mtu.toNat → s.mtu.toNat ≤ 250 → s.argB.toNat ≤ s.config.msgCap → t.mtu = s.mtu → t.busOpen = true →
    (s.options.getLsbD 1 = false ∨ 2 ≤ (framePackets s).length ∨ t.options.getLsbD 2 = false) →
    t.bus = answered ((framePackets s).flatMap echoOf) rest →
    NoResetFor (2 * (framePackets s).length) t.inputs →
    (s.argB.toNat + 9 * (framePackets s).length ≤ s.config.replyCap →
      ∃ b u, exec .deframe t = .next b ∧
        Host.Core.run Sys2Proof.core (2 * (framePackets s).length) b = .next u ∧
        u.running = none ∧ u.err = .ok ∧ u.replyValid = true ∧
        u.result = BitVec.ofNat 32 (framePackets s).length ∧ u.rxLen.toNat = s.argB.toNat ∧
        u.rawLen.toNat = s.argB.toNat + 9 * (framePackets s).length ∧
        ∀ i < s.argB.toNat, readByte u .reply
          (i / s.mtu.toNat * (s.mtu.toNat + 9) + 8 + i % s.mtu.toNat) = readByte s .msg i) ∧
    (s.config.replyCap < s.argB.toNat + 9 * (framePackets s).length →
      ∃ b n u, exec .deframe t = .next b ∧ n < 2 * (framePackets s).length ∧
        Host.Core.run Sys2Proof.core n b = .next u ∧
        u.running = none ∧ u.err = .replyOverflow ∧ u.replyValid = false)

/-! ### Extraction -/

/-- R155 to R157, R159, R161, R162, R199: EXTRACT's refusals in their order, and its copy: which bytes, how many,
SHORT, and that nothing else changes. (A position at or beyond REPLY_CAP, which an MTU changed after the
reception gives, reads the model's free value: assumption log, entry 7.) -/
def Obligations.ExtractCopiesTheLogicalResponse : Prop :=
  ∀ (s : State) (adm : Bool), s.config.Legal →
    let start := if adm then 20 else 8
    let logical := s.rxLen.toNat - if adm then 24 else 12
    let count := min logical s.argB.toNat
    (exec (.extract adm false) s = .next
      { s with err := .noBuffer, short := false, result := 0, running := none, portLog := s.portLog ++ [.done] }) ∧
    (s.config.outCap < s.argB.toNat → exec (.extract adm true) s = .next
      { s with err := .allocationFailure, short := false, result := 0, running := none
               portLog := s.portLog ++ [.done] }) ∧
    (s.argB.toNat ≤ s.config.outCap → s.replyValid = false → exec (.extract adm true) s = .next
      { s with err := .noReply, short := false, result := 0, running := none, portLog := s.portLog ++ [.done] }) ∧
    (s.argB.toNat ≤ s.config.outCap → s.replyValid = true → ∃ t, exec (.extract adm true) s = .next t ∧
      t = { s with err := .ok, short := decide (logical < s.argB.toNat), result := BitVec.ofNat 32 count,
                   running := none, mem := t.mem, portLog := s.portLog ++ [.done] } ∧
      (∀ i < count, readByte t .out i = readByte s .reply
        ((start + i) / s.mtu.toNat * (s.mtu.toNat + 9) + 8 + (start + i) % s.mtu.toNat)) ∧
      (∀ i, count ≤ i → readByte t .out i = readByte s .out i) ∧
      (∀ i, readByte t .reply i = readByte s .reply i) ∧
      (∀ i, readByte t .msg i = readByte s .msg i))

/-- R147, R159: after a whole reception the raw position of every message byte is inside the raw bytes; and when
every packet but the last is an MTU, REPLYBUF holds that message byte there. -/
def Obligations.PositionsLieInTheReply : Prop :=
  ∀ (s : State) (ds : List Delivery) (last : Delivery) (rest : List BusEvent), s.config.Legal →
    s.busOpen = true → Response s ds last → s.bus = answered (answersOf (ds ++ [last])) rest →
    NoResetFor (2 * (ds.length + 1)) s.inputs →
    ∃ b t, exec .deframe s = .next b ∧ Host.Core.run Sys2Proof.core (2 * (ds.length + 1)) b = .next t ∧
      t.replyValid = true ∧ t.rxLen.toNat = (messageOf (ds ++ [last])).length ∧
      (∀ i < t.rxLen.toNat, rawPosition t.mtu.toNat i < t.rawLen.toNat) ∧
      ((∀ d ∈ ds, d.payload.length = s.mtu.toNat) → ∀ i < t.rxLen.toNat,
        some (readByte t .reply (rawPosition t.mtu.toNat i)) = (messageOf (ds ++ [last]))[i]?)

/-- R160: `data_offset` is 16 for MI and 28 for MI-Admin whenever the first data byte is in the first packet;
the spec's example beyond it. -/
def Obligations.DataOffsetInTheFirstPacket : Prop :=
  (∀ m, 8 < m → rawPosition m (dataStart false) = 16) ∧ (∀ m, 20 < m → rawPosition m (dataStart true) = 28) ∧
  rawPosition 16 (dataStart true) = 37

/-- R165, R199: PEEK's refusals in their order, and its raw copy of `REPLYBUF[8..8+n)`. -/
def Obligations.PeekCopiesRawBytes : Prop :=
  ∀ s : State, s.config.Legal →
    (s.config.outCap < s.argB.toNat ∨ s.config.replyCap < 8 + s.argB.toNat → exec .peek s = .next
      { s with err := .badLength, short := false, result := 0, running := none, portLog := s.portLog ++ [.done] }) ∧
    (s.argB.toNat ≤ s.config.outCap → 8 + s.argB.toNat ≤ s.config.replyCap → s.replyValid = false →
      exec .peek s = .next
        { s with err := .noReply, short := false, result := 0, running := none, portLog := s.portLog ++ [.done] }) ∧
    (s.argB.toNat ≤ s.config.outCap → 8 + s.argB.toNat ≤ s.config.replyCap → s.replyValid = true →
      ∃ t, exec .peek s = .next t ∧
        t = { s with err := .ok, short := false, result := BitVec.ofNat 32 s.argB.toNat, running := none,
                     mem := t.mem, portLog := s.portLog ++ [.done] } ∧
        (∀ i < s.argB.toNat, readByte t .out i = readByte s .reply (8 + i)) ∧
        (∀ i, s.argB.toNat ≤ i → readByte t .out i = readByte s .out i) ∧
        (∀ i, readByte t .reply i = readByte s .reply i) ∧
        (∀ i, readByte t .msg i = readByte s .msg i))

/-- R83, R84, R146, R161: a whole reception and extraction: the data of an MI or MI-Admin response that arrives
in MTU-sized packets stands in OUTBUF, byte for byte, up to the requested capacity. -/
def Obligations.ResponseDataReachesOutbuf : Prop :=
  ∀ (s : State) (adm : Bool) (ds : List Delivery) (last : Delivery) (rest : List BusEvent)
    (head status echo data mic : List Byte), s.config.Legal →
    s.busOpen = true → 1 ≤ s.mtu.toNat → s.argB.toNat ≤ s.config.outCap →
    Response s ds last → (∀ d ∈ ds, d.payload.length = s.mtu.toNat) →
    head.length = 4 → status.length = 4 → echo.length = (if adm then 12 else 0) → mic.length = 4 →
    messageOf (ds ++ [last]) = head ++ status ++ echo ++ data ++ mic →
    s.bus = answered (answersOf (ds ++ [last])) rest → NoResetFor (2 * (ds.length + 1)) s.inputs →
    ∃ b t u, exec .deframe s = .next b ∧ Host.Core.run Sys2Proof.core (2 * (ds.length + 1)) b = .next t ∧
      exec (.extract adm true) t = .next u ∧ u.err = .ok ∧
      u.result = BitVec.ofNat 32 (min data.length s.argB.toNat) ∧
      u.short = decide (data.length < s.argB.toNat) ∧
      ∀ i < min data.length s.argB.toNat, some (readByte u .out i) = data[i]?

/-! ### Session -/

/-- R175: OPEN issues no transaction on an open bus; else it tries until the first `Ok`, at most OPEN_ATTEMPTS
times, one step an attempt. -/
def Obligations.OpenRetriesUntilOk : Prop :=
  ∀ (s : State) (answers : List BusAnswer) (rest : List BusEvent), OpensBus s answers →
    s.bus = answered answers rest → NoResetFor answers.length s.inputs →
    ∃ b, exec .openBus s = .next b ∧ Host.Core.run Sys2Proof.core answers.length b = .next
      { s with
        err := .ok, short := false, busOpen := true, running := none
        result := BitVec.ofNat 32 answers.length
        inputs := inputsAfter answers.length s.inputs
        bus := rest
        busLog := s.busLog ++ List.replicate answers.length .busOpen
        portLog := s.portLog ++ [.done] }

/-- R175: OPEN_ATTEMPTS `Err` answers (ten on this hardware) end OPEN with TransportOpenFailure, the bus still
not open. -/
def Obligations.OpenFailsAfterItsAttempts : Prop :=
  ∀ (s : State) (rest : List BusEvent), s.busOpen = false →
    s.bus = List.replicate s.config.openAttempts (.answer .err) ++ rest →
    NoResetFor s.config.openAttempts s.inputs →
    ∃ b, exec .openBus s = .next b ∧ Host.Core.run Sys2Proof.core s.config.openAttempts b = .next
      { s with
        err := .transportOpenFailure, short := false, running := none
        result := BitVec.ofNat 32 s.config.openAttempts
        inputs := inputsAfter s.config.openAttempts s.inputs
        bus := rest
        busLog := s.busLog ++ List.replicate s.config.openAttempts .busOpen
        portLog := s.portLog ++ [.done] }

/-- R176: CLOSE on a closed bus issues no transaction; on an open one it clears RESULT, issues `BusClose`, and
its next step, the bus's answer, clears BUS_OPEN whatever the answer is. -/
def Obligations.CloseClearsBusOpen : Prop :=
  ∀ s : State,
    (s.busOpen = false → exec .closeBus s = .next
      { s with err := .ok, short := false, result := 0, running := none, portLog := s.portLog ++ [.done] }) ∧
    (s.busOpen = true →
      let b : State := { s with
        result := 0
        running := some ⟨.closeBus, 0, .closing⟩
        busLog := s.busLog ++ [.busClose] }
      exec .closeBus s = .next b ∧
      ∀ a rest, s.bus = .answer a :: rest → NoResetFor 1 s.inputs →
        step b = .next
          { s with
            err := if a = .err then .transportIOFailure else .ok
            short := false, result := 0, busOpen := false, running := none
            inputs := inputsAfter 1 s.inputs
            bus := rest
            busLog := s.busLog ++ [.busClose]
            portLog := s.portLog ++ [.done] })

/-- R177, R178: EXECUTE with a bus that opens, writes every packet and delivers a response: the transactions in
order, one step each, and the whole state after it. -/
def Obligations.ExecuteRunsAnExchange : Prop :=
  ∀ (s : State) (opens answers : List BusAnswer) (ds : List Delivery) (last : Delivery) (rest : List BusEvent),
    s.argB.toNat ≤ s.config.msgCap → 1 ≤ s.mtu.toNat → OpensBus s opens → Acknowledge answers (framePackets s) →
    Response s ds last → s.bus = answered (opens ++ answers ++ answersOf (ds ++ [last])) rest →
    let n := opens.length + answers.length + 2 * (ds.length + 1)
    NoResetFor n s.inputs →
    ∃ b, exec .execute s = .next b ∧ Host.Core.run Sys2Proof.core n b = .next
      { s with
        err := .ok, short := false, replyValid := true, busOpen := true, running := none
        result := (BitVec.ofNat 32 (framePackets s).length <<< 16) ||| BitVec.ofNat 32 (ds.length + 1)
        rawLen := BitVec.ofNat 16 (rawOf (ds ++ [last])).length
        rxLen := BitVec.ofNat 16 (messageOf (ds ++ [last])).length
        mem := s.mem.write 0x4000 (rawOf (ds ++ [last]))
        inputs := inputsAfter n s.inputs
        bus := rest
        busLog := s.busLog ++ List.replicate opens.length .busOpen ++ writesOf (framePackets s) ++
          readsOf (ds ++ [last])
        portLog := s.portLog ++ [.done] }

/-- R177: EXECUTE's refusals: a message beyond MSG_CAP issues no transaction, and OPEN_ATTEMPTS failed opens end
it with no write and no read, the previous reply kept. -/
def Obligations.ExecuteRefusals : Prop :=
  ∀ s : State,
    (s.config.msgCap < s.argB.toNat → exec .execute s = .next
      { s with err := .badLength, short := false, result := 0, running := none, portLog := s.portLog ++ [.done] }) ∧
    (∀ rest, s.argB.toNat ≤ s.config.msgCap → s.busOpen = false →
      s.bus = List.replicate s.config.openAttempts (.answer .err) ++ rest →
      NoResetFor s.config.openAttempts s.inputs →
      ∃ b, exec .execute s = .next b ∧ Host.Core.run Sys2Proof.core s.config.openAttempts b = .next
        { s with
          err := .transportOpenFailure, short := false, result := 0, running := none
          inputs := inputsAfter s.config.openAttempts s.inputs
          bus := rest
          busLog := s.busLog ++ List.replicate s.config.openAttempts .busOpen
          portLog := s.portLog ++ [.done] })

/-- R177, R178: a failed write ends EXECUTE with no read; RESULT has the packets written in its upper half, and
the reply is a draw (assumption log, entry 8), the next of the model's numbered draws (entries 5 and 6). -/
def Obligations.ExecuteStopsAtAFailedWrite : Prop :=
  ∀ (s : State) (opens answers : List BusAnswer) (a : BusAnswer) (rest : List BusEvent) (packet : List Byte),
    s.argB.toNat ≤ s.config.msgCap → 1 ≤ s.mtu.toNat → OpensBus s opens →
    Acknowledge answers ((framePackets s).take answers.length) →
    (framePackets s)[answers.length]? = some packet →
    (∀ count unread, a = .ok count unread → count ≠ packet.length) →
    s.bus = answered (opens ++ answers ++ [a]) rest →
    let n := opens.length + answers.length + 1
    NoResetFor n s.inputs →
    ∃ b, exec .execute s = .next b ∧ Host.Core.run Sys2Proof.core n b = .next
      { s with
        err := .transportIOFailure, short := false, replyValid := false, busOpen := true, running := none
        result := BitVec.ofNat 32 answers.length <<< 16
        mem := s.mem.erase 0x4000 s.config.replyCap
        replyDraw := s.replyDraw + 1
        inputs := inputsAfter n s.inputs
        bus := rest
        busLog := s.busLog ++ List.replicate opens.length .busOpen ++
          writesOf ((framePackets s).take (answers.length + 1))
        portLog := s.portLog ++ [.done] }

/-- R177, R181: OPEN and FRAME that succeed, followed by a DEFRAME that ends with any code, are EXECUTE: as many
steps and the same state, but for RESULT, whose halves are the results of FRAME and DEFRAME, and for the one
answer of the port. (With the bus open OPEN issues nothing; with none of the host's accesses waiting.) -/
def Obligations.ExecuteIsFrameThenDeframe : Prop :=
  ∀ (s o t u o' t' u' : State) (k n m : Nat), s.inputs = [] →
    exec .openBus s = .next o' → Host.Core.run Sys2Proof.core k o' = .next o → o.running = none → o.err = .ok →
    exec .frame o = .next t' → Host.Core.run Sys2Proof.core n t' = .next t → t.running = none → t.err = .ok →
    exec .deframe t = .next u' → Host.Core.run Sys2Proof.core m u' = .next u → u.running = none →
    ∃ b, exec .execute s = .next b ∧ Host.Core.run Sys2Proof.core (k + n + m) b = .next
      { u with result := (t.result <<< 16) ||| u.result, portLog := s.portLog ++ [.done] }

/-! ### Waiting for the bus -/

/-- R3, R13, R35, R226: where OPEN, EXECUTE, DEFRAME and CLOSE wait, whatever the bus does next: before each
attempt's answer, before each write's, before each header's and each body's, with the place in the command kept;
and a step in which the bus does not answer changes nothing of the command. -/
def Obligations.CommandsWaitForTheBus : Prop :=
  (∀ (s : State) (n : Nat) (rest : List BusEvent) (i : Instr) (command : BusCommand),
    (i = .openBus ∧ command = .openBus ∨
      i = .execute ∧ command = .execute ∧ s.argB.toNat ≤ s.config.msgCap) →
    s.busOpen = false → n < s.config.openAttempts → s.bus = List.replicate n (.answer .err) ++ rest →
    NoResetFor n s.inputs →
    ∃ b, exec i s = .next b ∧ Host.Core.run Sys2Proof.core n b = .next
      { s with
        running := some ⟨command, 0, .opening (n + 1)⟩
        inputs := inputsAfter n s.inputs
        bus := rest
        busLog := s.busLog ++ List.replicate (n + 1) .busOpen }) ∧
  (∀ (s : State) (opens answers : List BusAnswer) (rest : List BusEvent), s.argB.toNat ≤ s.config.msgCap →
    1 ≤ s.mtu.toNat → OpensBus s opens → Acknowledge answers ((framePackets s).take answers.length) →
    answers.length < (framePackets s).length → s.bus = answered (opens ++ answers) rest →
    NoResetFor (opens.length + answers.length) s.inputs →
    ∃ b, exec .execute s = .next b ∧ Host.Core.run Sys2Proof.core (opens.length + answers.length) b = .next
      { s with
        replyValid := false, busOpen := true
        running := some ⟨.execute, 0, .sending
          ⟨s.argB.toNat, s.mtu.toNat, (framePackets s).length, answers.length⟩⟩
        inputs := inputsAfter (opens.length + answers.length) s.inputs
        bus := rest
        busLog := s.busLog ++ List.replicate opens.length .busOpen ++
          writesOf ((framePackets s).take (answers.length + 1)) }) ∧
  (∀ (s : State) (ds : List Delivery) (rest : List BusEvent), s.mem.wf → Continues s ds →
    let place : Receiving :=
      ⟨s.mtu.toNat, s.options.getLsbD 2, (rawOf ds).length, (messageOf ds).length, ds.length⟩
    let waiting (n : Nat) (raw : List Byte) (r : Running) (ops : List BusOp) : State :=
      { s with
        replyValid := false, busOpen := true
        rawLen := BitVec.ofNat 16 (rawOf ds).length
        rxLen := BitVec.ofNat 16 (messageOf ds).length
        mem := s.mem.write 0x4000 raw
        running := some r
        inputs := inputsAfter n s.inputs
        bus := rest
        busLog := s.busLog ++ ops }
    let waits (i : Instr) (command : BusCommand) (sent : Nat) (before : List BusAnswer) (ops : List BusOp) : Prop :=
      ((rawOf ds).length + 8 ≤ s.config.replyCap →
        let n := before.length + 2 * ds.length
        s.bus = answered (before ++ answersOf ds) rest → NoResetFor n s.inputs →
        ∃ b, exec i s = .next b ∧ Host.Core.run Sys2Proof.core n b = .next
          (waiting n (rawOf ds) ⟨command, sent, .awaitHeader place⟩ (ops ++ readsOf ds ++ [.busRead 8]))) ∧
      (∀ (h : Header) (unread : Nat), 5 ≤ h.byteCount.toNat → h.byteCount.toNat ≤ s.mtu.toNat + 5 →
        (rawOf ds).length + h.byteCount.toNat + 4 ≤ s.config.replyCap →
        let n := before.length + 2 * ds.length + 1
        s.bus = answered (before ++ answersOf ds ++ [.ok unread h.toBytes]) rest → NoResetFor n s.inputs →
        ∃ b, exec i s = .next b ∧ Host.Core.run Sys2Proof.core n b = .next
          (waiting n (rawOf ds ++ h.toBytes) ⟨command, sent, .awaitBody place h⟩
            (ops ++ readsOf ds ++ [.busRead 8, .busRead (h.byteCount.toNat - 4)])))
    (s.busOpen = true → waits .deframe .deframe 0 [] []) ∧
    (∀ opens answers, s.argB.toNat ≤ s.config.msgCap → 1 ≤ s.mtu.toNat → OpensBus s opens →
      Acknowledge answers (framePackets s) →
      waits .execute .execute (framePackets s).length (opens ++ answers)
        (List.replicate opens.length .busOpen ++ writesOf (framePackets s)))) ∧
  (∀ (s : State) (r : Running), s.running = some r → (∀ rest, s.inputs ≠ .reset :: rest) →
    (s.bus = [] → step s = .next { s with inputs := inputsAfter 1 s.inputs }) ∧
    (∀ rest, s.bus = .silent :: rest → step s = .next { s with inputs := inputsAfter 1 s.inputs, bus := rest }))

/-- R3, R226: a bus that is silent for some steps between its answers only delays: whatever the machine does with
the same answers and no silence it does with them too, in at most one more step for each silent one. (While no
`wait` is among the inputs, which counts steps.) -/
def Obligations.SilenceOnlyDelays : Prop :=
  ∀ (s t : State) (n : Nat), .wait ∉ s.inputs →
    Host.Core.run Sys2Proof.core n { s with bus := answersOnly s.bus } = .next t →
    ∃ m u, Host.Core.run Sys2Proof.core m s = .next u ∧ m + u.bus.count .silent ≤ n + s.bus.count .silent ∧
      t = { u with bus := answersOnly u.bus }

/-! ### Messages -/

/-- R80 to R82, R85: the message headers the spec writes out, and the lengths of requests with `D` data bytes,
MIC included. -/
def Obligations.MessageLayouts : Prop :=
  (miHeader false false).toBytes = [0x84, 0x08, 0x00, 0x00] ∧
  (miHeader true false).toBytes = [0x84, 0x10, 0x00, 0x00] ∧
  (miHeader false true).toBytes = [0x84, 0x88, 0x00, 0x00] ∧
  (miHeader true true).toBytes = [0x84, 0x90, 0x00, 0x00] ∧
  (∀ c opcode cdw0 cdw1 data, (miRequest c opcode cdw0 cdw1 data).length = 20 + data.length) ∧
  (∀ c opcode flags controller nsid cdws data,
    (adminRequest c opcode flags controller nsid cdws data).length = 72 + data.length)

/-! ### The whole machine -/

/-- R8, R22, R23, R26, R27, R28, R55: no command writes the parameters, ARG_A, ARG_B, MTU, ADDR, OPTIONS or
MSGBUF, when it starts or as it goes on; and none takes one of the host's accesses. -/
def Obligations.ConfigurationIsTheHosts : Prop :=
  let kept (s t : State) : Prop :=
    t.config = s.config ∧ t.argA = s.argA ∧ t.argB = s.argB ∧ t.mtu = s.mtu ∧ t.addr = s.addr ∧
    t.options = s.options ∧ ∀ i, readByte t .msg i = readByte s .msg i
  (∀ (i : Instr) (s t : State), s.config.Legal → exec i s = .next t →
    kept s t ∧ t.inputs = s.inputs ∧
    t.portLog = if t.running = none then s.portLog ++ [.done] else s.portLog) ∧
  (∀ (s t : State) (r : Running), s.config.Legal → s.running = some r → (∀ rest, s.inputs ≠ .reset :: rest) →
    step s = .next t → kept s t ∧ t.inputs = inputsAfter 1 s.inputs)

/-- R24, R32, R33, R56, R57: which commands write REPLYBUF and its counters, OUTBUF, BUS_OPEN and REPLY_VALID,
when they start and as they go on. -/
def Obligations.OnlyTheirCommandsWrite : Prop :=
  let replyKept (s t : State) : Prop :=
    t.rxLen = s.rxLen ∧ t.rawLen = s.rawLen ∧ ∀ j, readByte t .reply j = readByte s .reply j
  let outKept (s t : State) : Prop := ∀ j, readByte t .out j = readByte s .out j
  (∀ (i : Instr) (s t : State), s.config.Legal → exec i s = .next t →
    (i ≠ .deframe → i ≠ .execute → replyKept s t) ∧
    ((∀ adm dstp, i ≠ .extract adm dstp) → i ≠ .peek → outKept s t) ∧
    (i ≠ .openBus → i ≠ .closeBus → i ≠ .execute → t.busOpen = s.busOpen) ∧
    (i ≠ .frame → i ≠ .deframe → i ≠ .execute → t.replyValid = s.replyValid) ∧
    (i = .crc8 ∨ i = .crc32 ∨ i = .peek ∨ (∃ adm dstp, i = .extract adm dstp) →
      t.running = none ∧ t.busLog = s.busLog ∧ t.bus = s.bus)) ∧
  (∀ (s t : State) (r : Running), Inv s → s.running = some r → (∀ rest, s.inputs ≠ .reset :: rest) →
    step s = .next t →
    (r.command ≠ .deframe → r.command ≠ .execute → replyKept s t) ∧ outKept s t ∧
    (r.command ≠ .openBus → r.command ≠ .closeBus → r.command ≠ .execute → t.busOpen = s.busOpen) ∧
    (r.command ≠ .frame → r.command ≠ .deframe → r.command ≠ .execute → t.replyValid = s.replyValid) ∧
    (∀ r', t.running = some r' → r'.command = r.command))

/-- R34: whenever a command other than EXTRACT is over, SHORT is 0; and SHORT is 0 after an EXTRACT that
fails. -/
def Obligations.ShortOnlyAfterExtract : Prop :=
  (∀ (i : Instr) (s t : State), exec i s = .next t → t.running = none →
    (∀ adm dstp, i ≠ .extract adm dstp) ∨ t.err ≠ .ok → t.short = false) ∧
  (∀ (s t : State) (r : Running), s.running = some r → step s = .next t → t.running = none → t.short = false)
end

