-- ==== Sys2Proof/Laws/State.lean ====
section
/-! SUPPORT. What each shared update of the state leaves in each field: one lemma per field per update, by
unfolding, tagged for simp. -/

namespace Sys2Proof.Machine

open Sys2Proof

variable (code : StatusCode) (sh : Bool) (r : Word) (s : State)
  (op : BusOp) (run : Running) (sp : Space) (a : Nat) (bs : List Byte) (p : PortAnswer)

/-! ### finish -/

@[simp] theorem finish_config : (finish code sh r s).config = s.config := rfl
@[simp] theorem finish_argA : (finish code sh r s).argA = s.argA := rfl
@[simp] theorem finish_argB : (finish code sh r s).argB = s.argB := rfl
@[simp] theorem finish_err : (finish code sh r s).err = code := rfl
@[simp] theorem finish_replyValid : (finish code sh r s).replyValid = s.replyValid := rfl
@[simp] theorem finish_busOpen : (finish code sh r s).busOpen = s.busOpen := rfl
@[simp] theorem finish_short : (finish code sh r s).short = sh := rfl
@[simp] theorem finish_result : (finish code sh r s).result = r := rfl
@[simp] theorem finish_rxLen : (finish code sh r s).rxLen = s.rxLen := rfl
@[simp] theorem finish_rawLen : (finish code sh r s).rawLen = s.rawLen := rfl
@[simp] theorem finish_mtu : (finish code sh r s).mtu = s.mtu := rfl
@[simp] theorem finish_addr : (finish code sh r s).addr = s.addr := rfl
@[simp] theorem finish_options : (finish code sh r s).options = s.options := rfl
@[simp] theorem finish_mem : (finish code sh r s).mem = s.mem := rfl
@[simp] theorem finish_msgDraw : (finish code sh r s).msgDraw = s.msgDraw := rfl
@[simp] theorem finish_replyDraw : (finish code sh r s).replyDraw = s.replyDraw := rfl
@[simp] theorem finish_outDraw : (finish code sh r s).outDraw = s.outDraw := rfl
@[simp] theorem finish_running : (finish code sh r s).running = none := rfl
@[simp] theorem finish_inputs : (finish code sh r s).inputs = s.inputs := rfl
@[simp] theorem finish_bus : (finish code sh r s).bus = s.bus := rfl
@[simp] theorem finish_busLog : (finish code sh r s).busLog = s.busLog := rfl
@[simp] theorem finish_portLog : (finish code sh r s).portLog = s.portLog ++ [.done] := rfl

/-! ### raiseError -/

@[simp] theorem raiseError_config : (raiseError code r s).config = s.config := rfl
@[simp] theorem raiseError_argA : (raiseError code r s).argA = s.argA := rfl
@[simp] theorem raiseError_argB : (raiseError code r s).argB = s.argB := rfl
@[simp] theorem raiseError_err : (raiseError code r s).err = code := rfl
@[simp] theorem raiseError_replyValid : (raiseError code r s).replyValid = s.replyValid := rfl
@[simp] theorem raiseError_busOpen : (raiseError code r s).busOpen = s.busOpen := rfl
@[simp] theorem raiseError_short : (raiseError code r s).short = false := rfl
@[simp] theorem raiseError_result : (raiseError code r s).result = r := rfl
@[simp] theorem raiseError_rxLen : (raiseError code r s).rxLen = s.rxLen := rfl
@[simp] theorem raiseError_rawLen : (raiseError code r s).rawLen = s.rawLen := rfl
@[simp] theorem raiseError_mtu : (raiseError code r s).mtu = s.mtu := rfl
@[simp] theorem raiseError_addr : (raiseError code r s).addr = s.addr := rfl
@[simp] theorem raiseError_options : (raiseError code r s).options = s.options := rfl
@[simp] theorem raiseError_mem : (raiseError code r s).mem = s.mem := rfl
@[simp] theorem raiseError_msgDraw : (raiseError code r s).msgDraw = s.msgDraw := rfl
@[simp] theorem raiseError_replyDraw : (raiseError code r s).replyDraw = s.replyDraw := rfl
@[simp] theorem raiseError_outDraw : (raiseError code r s).outDraw = s.outDraw := rfl
@[simp] theorem raiseError_running : (raiseError code r s).running = none := rfl
@[simp] theorem raiseError_inputs : (raiseError code r s).inputs = s.inputs := rfl
@[simp] theorem raiseError_bus : (raiseError code r s).bus = s.bus := rfl
@[simp] theorem raiseError_busLog : (raiseError code r s).busLog = s.busLog := rfl
@[simp] theorem raiseError_portLog : (raiseError code r s).portLog = s.portLog ++ [.done] := rfl

/-! ### succeed -/

@[simp] theorem succeed_config : (succeed r s).config = s.config := rfl
@[simp] theorem succeed_argA : (succeed r s).argA = s.argA := rfl
@[simp] theorem succeed_argB : (succeed r s).argB = s.argB := rfl
@[simp] theorem succeed_err : (succeed r s).err = .ok := rfl
@[simp] theorem succeed_replyValid : (succeed r s).replyValid = s.replyValid := rfl
@[simp] theorem succeed_busOpen : (succeed r s).busOpen = s.busOpen := rfl
@[simp] theorem succeed_short : (succeed r s).short = false := rfl
@[simp] theorem succeed_result : (succeed r s).result = r := rfl
@[simp] theorem succeed_rxLen : (succeed r s).rxLen = s.rxLen := rfl
@[simp] theorem succeed_rawLen : (succeed r s).rawLen = s.rawLen := rfl
@[simp] theorem succeed_mtu : (succeed r s).mtu = s.mtu := rfl
@[simp] theorem succeed_addr : (succeed r s).addr = s.addr := rfl
@[simp] theorem succeed_options : (succeed r s).options = s.options := rfl
@[simp] theorem succeed_mem : (succeed r s).mem = s.mem := rfl
@[simp] theorem succeed_msgDraw : (succeed r s).msgDraw = s.msgDraw := rfl
@[simp] theorem succeed_replyDraw : (succeed r s).replyDraw = s.replyDraw := rfl
@[simp] theorem succeed_outDraw : (succeed r s).outDraw = s.outDraw := rfl
@[simp] theorem succeed_running : (succeed r s).running = none := rfl
@[simp] theorem succeed_inputs : (succeed r s).inputs = s.inputs := rfl
@[simp] theorem succeed_bus : (succeed r s).bus = s.bus := rfl
@[simp] theorem succeed_busLog : (succeed r s).busLog = s.busLog := rfl
@[simp] theorem succeed_portLog : (succeed r s).portLog = s.portLog ++ [.done] := rfl

/-! ### issue -/

@[simp] theorem issue_config : (issue op run s).config = s.config := rfl
@[simp] theorem issue_argA : (issue op run s).argA = s.argA := rfl
@[simp] theorem issue_argB : (issue op run s).argB = s.argB := rfl
@[simp] theorem issue_err : (issue op run s).err = s.err := rfl
@[simp] theorem issue_replyValid : (issue op run s).replyValid = s.replyValid := rfl
@[simp] theorem issue_busOpen : (issue op run s).busOpen = s.busOpen := rfl
@[simp] theorem issue_short : (issue op run s).short = s.short := rfl
@[simp] theorem issue_result : (issue op run s).result = s.result := rfl
@[simp] theorem issue_rxLen : (issue op run s).rxLen = s.rxLen := rfl
@[simp] theorem issue_rawLen : (issue op run s).rawLen = s.rawLen := rfl
@[simp] theorem issue_mtu : (issue op run s).mtu = s.mtu := rfl
@[simp] theorem issue_addr : (issue op run s).addr = s.addr := rfl
@[simp] theorem issue_options : (issue op run s).options = s.options := rfl
@[simp] theorem issue_mem : (issue op run s).mem = s.mem := rfl
@[simp] theorem issue_msgDraw : (issue op run s).msgDraw = s.msgDraw := rfl
@[simp] theorem issue_replyDraw : (issue op run s).replyDraw = s.replyDraw := rfl
@[simp] theorem issue_outDraw : (issue op run s).outDraw = s.outDraw := rfl
@[simp] theorem issue_running : (issue op run s).running = some run := rfl
@[simp] theorem issue_inputs : (issue op run s).inputs = s.inputs := rfl
@[simp] theorem issue_bus : (issue op run s).bus = s.bus := rfl
@[simp] theorem issue_busLog : (issue op run s).busLog = s.busLog ++ [op] := rfl
@[simp] theorem issue_portLog : (issue op run s).portLog = s.portLog := rfl

/-! ### memWrite -/

@[simp] theorem memWrite_config : (memWrite sp a bs s).config = s.config := rfl
@[simp] theorem memWrite_argA : (memWrite sp a bs s).argA = s.argA := rfl
@[simp] theorem memWrite_argB : (memWrite sp a bs s).argB = s.argB := rfl
@[simp] theorem memWrite_err : (memWrite sp a bs s).err = s.err := rfl
@[simp] theorem memWrite_replyValid : (memWrite sp a bs s).replyValid = s.replyValid := rfl
@[simp] theorem memWrite_busOpen : (memWrite sp a bs s).busOpen = s.busOpen := rfl
@[simp] theorem memWrite_short : (memWrite sp a bs s).short = s.short := rfl
@[simp] theorem memWrite_result : (memWrite sp a bs s).result = s.result := rfl
@[simp] theorem memWrite_rxLen : (memWrite sp a bs s).rxLen = s.rxLen := rfl
@[simp] theorem memWrite_rawLen : (memWrite sp a bs s).rawLen = s.rawLen := rfl
@[simp] theorem memWrite_mtu : (memWrite sp a bs s).mtu = s.mtu := rfl
@[simp] theorem memWrite_addr : (memWrite sp a bs s).addr = s.addr := rfl
@[simp] theorem memWrite_options : (memWrite sp a bs s).options = s.options := rfl
@[simp] theorem memWrite_mem : (memWrite sp a bs s).mem = s.mem.write (sp.base + a) bs := rfl
@[simp] theorem memWrite_msgDraw : (memWrite sp a bs s).msgDraw = s.msgDraw := rfl
@[simp] theorem memWrite_replyDraw : (memWrite sp a bs s).replyDraw = s.replyDraw := rfl
@[simp] theorem memWrite_outDraw : (memWrite sp a bs s).outDraw = s.outDraw := rfl
@[simp] theorem memWrite_running : (memWrite sp a bs s).running = s.running := rfl
@[simp] theorem memWrite_inputs : (memWrite sp a bs s).inputs = s.inputs := rfl
@[simp] theorem memWrite_bus : (memWrite sp a bs s).bus = s.bus := rfl
@[simp] theorem memWrite_busLog : (memWrite sp a bs s).busLog = s.busLog := rfl
@[simp] theorem memWrite_portLog : (memWrite sp a bs s).portLog = s.portLog := rfl

/-! ### answer -/

@[simp] theorem answer_config : (answer p s).config = s.config := rfl
@[simp] theorem answer_argA : (answer p s).argA = s.argA := rfl
@[simp] theorem answer_argB : (answer p s).argB = s.argB := rfl
@[simp] theorem answer_err : (answer p s).err = s.err := rfl
@[simp] theorem answer_replyValid : (answer p s).replyValid = s.replyValid := rfl
@[simp] theorem answer_busOpen : (answer p s).busOpen = s.busOpen := rfl
@[simp] theorem answer_short : (answer p s).short = s.short := rfl
@[simp] theorem answer_result : (answer p s).result = s.result := rfl
@[simp] theorem answer_rxLen : (answer p s).rxLen = s.rxLen := rfl
@[simp] theorem answer_rawLen : (answer p s).rawLen = s.rawLen := rfl
@[simp] theorem answer_mtu : (answer p s).mtu = s.mtu := rfl
@[simp] theorem answer_addr : (answer p s).addr = s.addr := rfl
@[simp] theorem answer_options : (answer p s).options = s.options := rfl
@[simp] theorem answer_mem : (answer p s).mem = s.mem := rfl
@[simp] theorem answer_msgDraw : (answer p s).msgDraw = s.msgDraw := rfl
@[simp] theorem answer_replyDraw : (answer p s).replyDraw = s.replyDraw := rfl
@[simp] theorem answer_outDraw : (answer p s).outDraw = s.outDraw := rfl
@[simp] theorem answer_running : (answer p s).running = s.running := rfl
@[simp] theorem answer_inputs : (answer p s).inputs = s.inputs := rfl
@[simp] theorem answer_bus : (answer p s).bus = s.bus := rfl
@[simp] theorem answer_busLog : (answer p s).busLog = s.busLog := rfl
@[simp] theorem answer_portLog : (answer p s).portLog = s.portLog ++ [p] := rfl

/-! ### badOpCommand -/

@[simp] theorem badOpCommand_config : (badOpCommand s).config = s.config := rfl
@[simp] theorem badOpCommand_argA : (badOpCommand s).argA = s.argA := rfl
@[simp] theorem badOpCommand_argB : (badOpCommand s).argB = s.argB := rfl
@[simp] theorem badOpCommand_err : (badOpCommand s).err = .badOp := rfl
@[simp] theorem badOpCommand_replyValid : (badOpCommand s).replyValid = s.replyValid := rfl
@[simp] theorem badOpCommand_busOpen : (badOpCommand s).busOpen = s.busOpen := rfl
@[simp] theorem badOpCommand_short : (badOpCommand s).short = false := rfl
@[simp] theorem badOpCommand_result : (badOpCommand s).result = 0 := rfl
@[simp] theorem badOpCommand_rxLen : (badOpCommand s).rxLen = s.rxLen := rfl
@[simp] theorem badOpCommand_rawLen : (badOpCommand s).rawLen = s.rawLen := rfl
@[simp] theorem badOpCommand_mtu : (badOpCommand s).mtu = s.mtu := rfl
@[simp] theorem badOpCommand_addr : (badOpCommand s).addr = s.addr := rfl
@[simp] theorem badOpCommand_options : (badOpCommand s).options = s.options := rfl
@[simp] theorem badOpCommand_mem : (badOpCommand s).mem = s.mem := rfl
@[simp] theorem badOpCommand_msgDraw : (badOpCommand s).msgDraw = s.msgDraw := rfl
@[simp] theorem badOpCommand_replyDraw : (badOpCommand s).replyDraw = s.replyDraw := rfl
@[simp] theorem badOpCommand_outDraw : (badOpCommand s).outDraw = s.outDraw := rfl
@[simp] theorem badOpCommand_running : (badOpCommand s).running = none := rfl
@[simp] theorem badOpCommand_inputs : (badOpCommand s).inputs = s.inputs := rfl
@[simp] theorem badOpCommand_bus : (badOpCommand s).bus = s.bus := rfl
@[simp] theorem badOpCommand_busLog : (badOpCommand s).busLog = s.busLog := rfl
@[simp] theorem badOpCommand_portLog : (badOpCommand s).portLog = s.portLog ++ [.done] := rfl

/-! ### havoc -/

@[simp] theorem havoc_config : (havoc sp s).config = s.config := by cases sp <;> rfl
@[simp] theorem havoc_argA : (havoc sp s).argA = s.argA := by cases sp <;> rfl
@[simp] theorem havoc_argB : (havoc sp s).argB = s.argB := by cases sp <;> rfl
@[simp] theorem havoc_err : (havoc sp s).err = s.err := by cases sp <;> rfl
@[simp] theorem havoc_replyValid : (havoc sp s).replyValid = s.replyValid := by cases sp <;> rfl
@[simp] theorem havoc_busOpen : (havoc sp s).busOpen = s.busOpen := by cases sp <;> rfl
@[simp] theorem havoc_short : (havoc sp s).short = s.short := by cases sp <;> rfl
@[simp] theorem havoc_result : (havoc sp s).result = s.result := by cases sp <;> rfl
@[simp] theorem havoc_rxLen : (havoc sp s).rxLen = s.rxLen := by cases sp <;> rfl
@[simp] theorem havoc_rawLen : (havoc sp s).rawLen = s.rawLen := by cases sp <;> rfl
@[simp] theorem havoc_mtu : (havoc sp s).mtu = s.mtu := by cases sp <;> rfl
@[simp] theorem havoc_addr : (havoc sp s).addr = s.addr := by cases sp <;> rfl
@[simp] theorem havoc_options : (havoc sp s).options = s.options := by cases sp <;> rfl
@[simp] theorem havoc_mem : (havoc sp s).mem = s.mem.erase sp.base (sp.cap s.config) := by cases sp <;> rfl
@[simp] theorem havoc_msg_msgDraw : (havoc .msg s).msgDraw = s.msgDraw + 1 := rfl
@[simp] theorem havoc_reply_msgDraw : (havoc .reply s).msgDraw = s.msgDraw := rfl
@[simp] theorem havoc_out_msgDraw : (havoc .out s).msgDraw = s.msgDraw := rfl
@[simp] theorem havoc_msg_replyDraw : (havoc .msg s).replyDraw = s.replyDraw := rfl
@[simp] theorem havoc_reply_replyDraw : (havoc .reply s).replyDraw = s.replyDraw + 1 := rfl
@[simp] theorem havoc_out_replyDraw : (havoc .out s).replyDraw = s.replyDraw := rfl
@[simp] theorem havoc_msg_outDraw : (havoc .msg s).outDraw = s.outDraw := rfl
@[simp] theorem havoc_reply_outDraw : (havoc .reply s).outDraw = s.outDraw := rfl
@[simp] theorem havoc_out_outDraw : (havoc .out s).outDraw = s.outDraw + 1 := rfl
@[simp] theorem havoc_running : (havoc sp s).running = s.running := by cases sp <;> rfl
@[simp] theorem havoc_inputs : (havoc sp s).inputs = s.inputs := by cases sp <;> rfl
@[simp] theorem havoc_bus : (havoc sp s).bus = s.bus := by cases sp <;> rfl
@[simp] theorem havoc_busLog : (havoc sp s).busLog = s.busLog := by cases sp <;> rfl
@[simp] theorem havoc_portLog : (havoc sp s).portLog = s.portLog := by cases sp <;> rfl

/-! ### resetEvent -/

@[simp] theorem resetEvent_config : (resetEvent s).config = s.config := rfl
@[simp] theorem resetEvent_argA : (resetEvent s).argA = 0 := rfl
@[simp] theorem resetEvent_argB : (resetEvent s).argB = 0 := rfl
@[simp] theorem resetEvent_err : (resetEvent s).err = .ok := rfl
@[simp] theorem resetEvent_replyValid : (resetEvent s).replyValid = false := rfl
@[simp] theorem resetEvent_busOpen : (resetEvent s).busOpen = false := rfl
@[simp] theorem resetEvent_short : (resetEvent s).short = false := rfl
@[simp] theorem resetEvent_result : (resetEvent s).result = 0 := rfl
@[simp] theorem resetEvent_rxLen : (resetEvent s).rxLen = 0 := rfl
@[simp] theorem resetEvent_rawLen : (resetEvent s).rawLen = 0 := rfl
@[simp] theorem resetEvent_mtu : (resetEvent s).mtu = s.config.mtuReset := rfl
@[simp] theorem resetEvent_addr : (resetEvent s).addr = 0 := rfl
@[simp] theorem resetEvent_options : (resetEvent s).options = 0b101 := rfl
@[simp] theorem resetEvent_mem : (resetEvent s).mem = [] := rfl
@[simp] theorem resetEvent_msgDraw : (resetEvent s).msgDraw = s.msgDraw + 1 := rfl
@[simp] theorem resetEvent_replyDraw : (resetEvent s).replyDraw = s.replyDraw + 1 := rfl
@[simp] theorem resetEvent_outDraw : (resetEvent s).outDraw = s.outDraw + 1 := rfl
@[simp] theorem resetEvent_running : (resetEvent s).running = none := rfl
@[simp] theorem resetEvent_inputs : (resetEvent s).inputs = s.inputs := rfl
@[simp] theorem resetEvent_bus : (resetEvent s).bus = s.bus := rfl
@[simp] theorem resetEvent_busLog : (resetEvent s).busLog = s.busLog := rfl
@[simp] theorem resetEvent_portLog :
    (resetEvent s).portLog = if s.running.isSome then s.portLog ++ [.done] else s.portLog := rfl

end Sys2Proof.Machine
end

