-- ==== Sys2Proof/Laws/Memory.lean ====
section
/-! SUPPORT. The laws of memory: the canonical form is kept, a read gives what was written last, every other
byte is left alone, and writes of adjacent pieces compose. -/

namespace Sys2Proof.Machine

open Sys2Proof

/-! ### The windows (R8, R51) -/

theorem base_msg : Space.msg.base = 0x2000 := rfl

theorem base_reply : Space.reply.base = 0x4000 := rfl

theorem base_out : Space.out.base = 0x6000 := rfl

/-- A legal capacity fits the 8 KiB window. -/
theorem cap_le {c : Config} (h : c.Legal) (sp : Space) : sp.cap c ≤ 8192 := by
  obtain ⟨h₁, h₂, h₃, -⟩ := h
  cases sp
  · exact h₂.2
  · exact h₁.2
  · exact h₃.2

/-- The windows of two buffers do not meet. -/
theorem windows_apart {sp sp' : Space} (h : sp ≠ sp') : sp.base + 8192 ≤ sp'.base ∨ sp'.base + 8192 ≤ sp.base := by
  cases sp <;> cases sp' <;> first | exact absurd rfl h | decide

/-! ### Cells -/

@[simp] theorem cells_nil (a : Nat) : cells a [] = [] := rfl

@[simp] theorem cells_cons (a : Nat) (b : Byte) (bs : List Byte) :
    cells a (b :: bs) = (a, b) :: cells (a + 1) bs := rfl

theorem cells_append (a : Nat) (x y : List Byte) : cells a (x ++ y) = cells a x ++ cells (a + x.length) y := by
  induction x generalizing a with
  | nil => simp
  | cons b x ih => simp [ih, Nat.add_assoc, Nat.add_comm 1]

theorem mem_cells {a : Nat} {bs : List Byte} {e : Host.Cell} (h : e ∈ cells a bs) :
    a ≤ e.1 ∧ e.1 < a + bs.length := by
  induction bs generalizing a with
  | nil => simp at h
  | cons b bs ih =>
    rcases List.mem_cons.1 h with rfl | h
    · simp
    · have := ih h
      simp only [List.length_cons]
      omega

theorem cells_sorted (a : Nat) (bs : List Byte) : Memory.wf (cells a bs) := by
  induction bs generalizing a with
  | nil => simp [Memory.wf]
  | cons b bs ih => exact List.pairwise_cons.2 ⟨fun e h => by have := mem_cells h; simp only; omega, ih _⟩

/-! ### Pieces of a memory -/

theorem mem_below {m : Memory} {a : Nat} {e : Host.Cell} : e ∈ m.below a ↔ e ∈ m ∧ e.1 < a := by
  simp [Memory.below]

theorem mem_atOrAbove {m : Memory} {a : Nat} {e : Host.Cell} : e ∈ m.atOrAbove a ↔ e ∈ m ∧ a ≤ e.1 := by
  simp [Memory.atOrAbove]

/-- What a write leaves listed: the cells outside the written range, and the written ones. -/
theorem mem_write {m : Memory} {a : Nat} {bs : List Byte} {e : Host.Cell} :
    e ∈ m.write a bs ↔ (e ∈ m ∧ (e.1 < a ∨ a + bs.length ≤ e.1)) ∨ e ∈ cells a bs := by
  simp only [Memory.write, List.mem_append, mem_below, mem_atOrAbove]
  tauto

/-- What an erasure leaves listed: the cells outside the range. -/
theorem mem_erase {m : Memory} {a n : Nat} {e : Host.Cell} :
    e ∈ m.erase a n ↔ e ∈ m ∧ (e.1 < a ∨ a + n ≤ e.1) := by
  simp only [Memory.erase, List.mem_append, mem_below, mem_atOrAbove]
  tauto

theorem below_below (m : Memory) {a b : Nat} (h : a ≤ b) : (m.below a).below b = m.below a := by
  refine List.filter_eq_self.2 fun e he => ?_
  have := (mem_below.1 he).2
  simp only [decide_eq_true_eq]
  omega

theorem atOrAbove_atOrAbove (m : Memory) {a b : Nat} (h : a ≤ b) :
    (m.atOrAbove a).atOrAbove b = m.atOrAbove b := by
  simp only [Memory.atOrAbove, List.filter_filter]
  refine List.filter_congr fun e _ => ?_
  rw [← Bool.decide_and]
  exact decide_eq_decide.2 ⟨fun h => h.1, fun h' => ⟨h', le_trans h h'⟩⟩

theorem below_eq_nil {m : Memory} {a : Nat} (h : ∀ e ∈ m, a ≤ e.1) : m.below a = [] :=
  List.filter_eq_nil_iff.2 fun e he => by have := h e he; simp only [decide_eq_true_eq]; omega

theorem atOrAbove_eq_nil {m : Memory} {a : Nat} (h : ∀ e ∈ m, e.1 < a) : m.atOrAbove a = [] :=
  List.filter_eq_nil_iff.2 fun e he => by have := h e he; simp only [decide_eq_true_eq]; omega

theorem below_eq_self {m : Memory} {a : Nat} (h : ∀ e ∈ m, e.1 < a) : m.below a = m :=
  List.filter_eq_self.2 fun e he => by have := h e he; simpa using this

theorem atOrAbove_eq_self {m : Memory} {a : Nat} (h : ∀ e ∈ m, a ≤ e.1) : m.atOrAbove a = m :=
  List.filter_eq_self.2 fun e he => by have := h e he; simpa using this

theorem below_append (m m' : Memory) (a : Nat) : Memory.below (m ++ m') a = m.below a ++ m'.below a :=
  List.filter_append ..

theorem atOrAbove_append (m m' : Memory) (a : Nat) :
    Memory.atOrAbove (m ++ m') a = m.atOrAbove a ++ m'.atOrAbove a :=
  List.filter_append ..

/-! ### The canonical form is kept -/

/-- Three sorted pieces, each wholly below the next, form a sorted list. -/
theorem wf_three {x y z : Memory} {a b : Nat} (hx : x.wf) (hy : y.wf) (hz : z.wf) (hab : a ≤ b)
    (hxa : ∀ e ∈ x, e.1 < a) (hya : ∀ e ∈ y, a ≤ e.1 ∧ e.1 < b) (hzb : ∀ e ∈ z, b ≤ e.1) :
    Memory.wf (x ++ y ++ z) := by
  refine List.pairwise_append.2 ⟨List.pairwise_append.2 ⟨hx, hy, fun e he f hf => ?_⟩, hz, fun e he f hf => ?_⟩
  · have := hxa e he
    have := hya f hf
    omega
  · have hf' := hzb f hf
    rcases List.mem_append.1 he with he | he
    · have := hxa e he
      omega
    · have := hya e he
      omega

theorem write_wf {m : Memory} (h : m.wf) (a : Nat) (bs : List Byte) : (m.write a bs).wf :=
  wf_three (List.Pairwise.filter _ h) (cells_sorted a bs) (List.Pairwise.filter _ h) (Nat.le_add_right a bs.length)
    (fun _ he => (mem_below.1 he).2) (fun _ he => mem_cells he) (fun _ he => (mem_atOrAbove.1 he).2)

theorem erase_wf {m : Memory} (h : m.wf) (a n : Nat) : (m.erase a n).wf := by
  have := wf_three (x := m.below a) (y := []) (z := m.atOrAbove (a + n)) (List.Pairwise.filter _ h)
    List.Pairwise.nil (List.Pairwise.filter _ h) (Nat.le_add_right a n) (fun _ he => (mem_below.1 he).2)
    (by simp) (fun _ he => (mem_atOrAbove.1 he).2)
  rwa [List.append_nil] at this

theorem reset_memory_wf : State.reset.mem.wf := List.Pairwise.nil

/-! ### Reading -/

@[simp] theorem read?_nil (x : Nat) : Memory.read? [] x = none := rfl

theorem read?_cons (e : Host.Cell) (m : Memory) (x : Nat) :
    Memory.read? (e :: m) x = if e.1 = x then some e.2 else m.read? x := by
  cases e
  rfl

theorem read?_eq_none {m : Memory} {x : Nat} (h : ∀ e ∈ m, e.1 ≠ x) : m.read? x = none := by
  induction m with
  | nil => rfl
  | cons e m ih =>
    rw [read?_cons, if_neg (h e (by simp)), ih fun f hf => h f (by simp [hf])]

theorem read?_append (m m' : Memory) (x : Nat) :
    Memory.read? (m ++ m') x = ((m.read? x).or (m'.read? x)) := by
  induction m with
  | nil => simp
  | cons e m ih =>
    rw [List.cons_append, read?_cons, read?_cons, ih]
    split <;> simp

theorem read?_filter {m : Memory} {p : Nat → Bool} {x : Nat} (h : p x = true) :
    Memory.read? (m.filter fun e => p e.1) x = m.read? x := by
  induction m with
  | nil => rfl
  | cons e m ih =>
    rw [List.filter_cons]
    by_cases hx : e.1 = x
    · subst hx
      rw [if_pos h, read?_cons, read?_cons, if_pos rfl, if_pos rfl]
    · split
      · rw [read?_cons, read?_cons, if_neg hx, if_neg hx, ih]
      · rw [read?_cons, if_neg hx, ih]

theorem read?_below {m : Memory} {a x : Nat} (h : x < a) : (m.below a).read? x = m.read? x :=
  read?_filter (p := fun y => decide (y < a)) (by simpa using h)

theorem read?_atOrAbove {m : Memory} {a x : Nat} (h : a ≤ x) : (m.atOrAbove a).read? x = m.read? x :=
  read?_filter (p := fun y => decide (a ≤ y)) (by simpa using h)

theorem read?_cells {a : Nat} {bs : List Byte} {i : Nat} : (cells a bs).read? (a + i) = bs[i]? := by
  induction bs generalizing a i with
  | nil => simp
  | cons b bs ih =>
    rw [cells_cons, read?_cons]
    cases i with
    | zero => simp
    | succ i =>
      rw [if_neg (by simp only; omega), show a + (i + 1) = a + 1 + i by omega, ih]
      simp

/-- Reading back what was written. -/
theorem read?_write_inside (m : Memory) {a : Nat} {bs : List Byte} {i : Nat} (h : i < bs.length) :
    (m.write a bs).read? (a + i) = bs[i]? := by
  rw [Memory.write, read?_append, read?_append,
    read?_eq_none (m := m.below a) fun e he => by have := (mem_below.1 he).2; omega, read?_cells,
    List.getElem?_eq_getElem h]
  simp

/-- Reading anywhere else. -/
theorem read?_write_outside (m : Memory) {a x : Nat} {bs : List Byte} (h : x < a ∨ a + bs.length ≤ x) :
    (m.write a bs).read? x = m.read? x := by
  have hc : (cells a bs).read? x = none := read?_eq_none fun e he => by have := mem_cells he; omega
  rw [Memory.write, read?_append, read?_append, hc]
  rcases h with h | h
  · rw [read?_below h, read?_eq_none (m := m.atOrAbove _) fun e he => by have := (mem_atOrAbove.1 he).2; omega]
    simp
  · rw [read?_eq_none (m := m.below a) fun e he => by have := (mem_below.1 he).2; omega, read?_atOrAbove h]
    simp

theorem read?_erase_inside (m : Memory) {a n x : Nat} (h : a ≤ x ∧ x < a + n) : (m.erase a n).read? x = none :=
  read?_eq_none fun e he => by have := (mem_erase.1 he).2; omega

theorem read?_erase_outside (m : Memory) {a n x : Nat} (h : x < a ∨ a + n ≤ x) :
    (m.erase a n).read? x = m.read? x := by
  rw [Memory.erase, read?_append]
  rcases h with h | h
  · rw [read?_below h, read?_eq_none (m := m.atOrAbove _) fun e he => by have := (mem_atOrAbove.1 he).2; omega]
    simp
  · rw [read?_eq_none (m := m.below a) fun e he => by have := (mem_below.1 he).2; omega, read?_atOrAbove h]
    simp

/-! ### Composing writes -/

/-- Writing nothing changes nothing, in canonical memory. -/
theorem write_nil {m : Memory} (h : m.wf) (a : Nat) : m.write a [] = m := by
  induction m with
  | nil => rfl
  | cons e m ih =>
    obtain ⟨he, hm⟩ := List.pairwise_cons.1 h
    have ih := ih hm
    simp only [Memory.write, cells_nil, List.append_nil, List.length_nil, Nat.add_zero] at ih ⊢
    by_cases ha : e.1 < a
    · rw [show Memory.below (e :: m) a = e :: Memory.below m a from by simp [Memory.below, ha],
        show Memory.atOrAbove (e :: m) a = Memory.atOrAbove m a from by simp [Memory.atOrAbove, Nat.not_le.2 ha],
        List.cons_append, ih]
    · have hall : ∀ f ∈ e :: m, a ≤ f.1 := by
        intro f hf
        rcases List.mem_cons.1 hf with rfl | hf
        · omega
        · have := he f hf
          omega
      rw [below_eq_nil hall, atOrAbove_eq_self hall, List.nil_append]

/-- Two adjacent writes are one. -/
theorem write_write (m : Memory) (a : Nat) (x y : List Byte) :
    (m.write a x).write (a + x.length) y = m.write a (x ++ y) := by
  have hb : (m.write a x).below (a + x.length) = m.below a ++ cells a x := by
    rw [Memory.write, below_append, below_append, below_below m (Nat.le_add_right _ _),
      below_eq_self fun e he => (mem_cells he).2, below_eq_nil fun e he => (mem_atOrAbove.1 he).2, List.append_nil]
  have ha : (m.write a x).atOrAbove (a + x.length + y.length) = m.atOrAbove (a + (x ++ y).length) := by
    rw [Memory.write, atOrAbove_append, atOrAbove_append,
      atOrAbove_eq_nil (m := m.below a) fun e he => by have := (mem_below.1 he).2; omega,
      atOrAbove_eq_nil (m := cells a x) fun e he => by have := (mem_cells he).2; omega,
      atOrAbove_atOrAbove m (by omega), List.length_append, Nat.add_assoc]
    rfl
  rw [Memory.write, hb, ha, Memory.write, cells_append]
  simp

/-- Erasing a range forgets the writes inside it. -/
theorem erase_write (m : Memory) {a n b : Nat} {bs : List Byte} (h₁ : a ≤ b) (h₂ : b + bs.length ≤ a + n) :
    (m.write b bs).erase a n = m.erase a n := by
  rw [Memory.erase, Memory.erase, Memory.write, below_append, below_append, atOrAbove_append, atOrAbove_append]
  have e1 : Memory.below (m.below b) a = m.below a := by
    simp only [Memory.below, List.filter_filter]
    refine List.filter_congr fun e _ => ?_
    rw [← Bool.decide_and]
    exact decide_eq_decide.2 ⟨fun h => h.1, fun h => ⟨h, by omega⟩⟩
  rw [e1, below_eq_nil (m := cells b bs) fun e he => by have := mem_cells he; omega,
    below_eq_nil (m := m.atOrAbove _) fun e he => by have := (mem_atOrAbove.1 he).2; omega,
    atOrAbove_eq_nil (m := m.below b) fun e he => by have := (mem_below.1 he).2; omega,
    atOrAbove_eq_nil (m := cells b bs) fun e he => by have := (mem_cells he).2; omega,
    atOrAbove_atOrAbove m h₂]
  simp

/-! ### Buffers -/

/-- A byte of a buffer after a write into the same buffer. -/
theorem readByte_memWrite_inside (s : State) (sp : Space) {a i : Nat} {bs : List Byte}
    (h : i < bs.length) (hc : a + i < sp.cap s.config) : readByte (memWrite sp a bs s) sp (a + i) = bs[i] := by
  unfold readByte
  rw [memWrite_config, if_pos hc, memWrite_mem, show sp.base + (a + i) = sp.base + a + i by omega,
    read?_write_inside _ h, List.getElem?_eq_getElem h]
  rfl

/-- The draw of a buffer is not changed by a write. -/
@[simp] theorem drawOf_memWrite (sp sp' : Space) (a : Nat) (bs : List Byte) (s : State) :
    drawOf (memWrite sp a bs s) sp' = drawOf s sp' := by
  cases sp' <;> rfl

/-- A byte of a buffer outside a write's range, whatever buffer was written. -/
theorem readByte_memWrite_outside (s : State) (sp sp' : Space) {a i : Nat} {bs : List Byte}
    (h : sp'.base + i < sp.base + a ∨ sp.base + a + bs.length ≤ sp'.base + i) :
    readByte (memWrite sp a bs s) sp' i = readByte s sp' i := by
  simp only [readByte, memWrite_config, drawOf_memWrite, memWrite_mem, read?_write_outside _ h]

/-- A write inside one buffer's window changes no byte of another buffer. -/
theorem readByte_memWrite_other {s : State} (hc : s.config.Legal) {sp sp' : Space} (hne : sp ≠ sp') {a : Nat}
    {bs : List Byte} (h : a + bs.length ≤ 8192) (i : Nat) :
    readByte (memWrite sp a bs s) sp' i = readByte s sp' i := by
  by_cases hi : i < sp'.cap s.config
  · have := cap_le hc sp'
    exact readByte_memWrite_outside s sp sp' (by rcases windows_apart hne with h | h <;> omega)
  · simp only [readByte, memWrite_config, drawOf_memWrite, if_neg hi]

/-- After a havoc every byte of the buffer is the new draw. -/
theorem readByte_havoc (s : State) (sp : Space) (i : Nat) :
    readByte (havoc sp s) sp i = Config.freeByte sp.base (drawOf s sp + 1) i := by
  have hd : drawOf (havoc sp s) sp = drawOf s sp + 1 := by cases sp <;> rfl
  unfold readByte
  rw [hd, havoc_mem, havoc_config]
  split
  · rw [read?_erase_inside _ ⟨by omega, by omega⟩]
    rfl
  · rfl

/-- A havoc of one buffer changes no byte of another. -/
theorem readByte_havoc_other {s : State} (hc : s.config.Legal) {sp sp' : Space} (hne : sp ≠ sp') (i : Nat) :
    readByte (havoc sp s) sp' i = readByte s sp' i := by
  have hd : drawOf (havoc sp s) sp' = drawOf s sp' := by
    cases sp <;> cases sp' <;> first | exact absurd rfl hne | rfl
  unfold readByte
  rw [hd, havoc_mem, havoc_config]
  split
  · have := cap_le hc sp
    have := cap_le hc sp'
    rw [read?_erase_outside _ (by rcases windows_apart hne with h | h <;> omega)]
  · rfl

/-- The address of byte `i` of a buffer names that buffer and index (R51). -/
theorem windowOf_address {c : Config} (hc : c.Legal) (sp : Space) {i : Nat} (h : i < sp.cap c) :
    windowOf c (sp.base + i) = some (sp, i) := by
  have hm : c.msgCap ≤ 8192 := cap_le hc .msg
  have hr : c.replyCap ≤ 8192 := cap_le hc .reply
  have bm := base_msg
  have br := base_reply
  have bo := base_out
  unfold windowOf
  cases sp
  · have h : i < c.msgCap := h
    rw [if_pos (by omega)]
    simp only [Option.some.injEq, Prod.mk.injEq, true_and]
    omega
  · have h : i < c.replyCap := h
    rw [if_neg (by omega), if_pos (by omega)]
    simp only [Option.some.injEq, Prod.mk.injEq, true_and]
    omega
  · have h : i < c.outCap := h
    rw [if_neg (by omega), if_neg (by omega), if_pos (by omega)]
    simp only [Option.some.injEq, Prod.mk.injEq, true_and]
    omega

/-- An address that names a buffer's byte is that byte's address (R51). -/
theorem windowOf_eq_some {c : Config} {a : Nat} {sp : Space} {i : Nat} (h : windowOf c a = some (sp, i)) :
    a = sp.base + i ∧ i < sp.cap c := by
  unfold windowOf at h
  split at h
  · cases h
    simp only [Space.base, Space.cap]
    omega
  split at h
  · cases h
    simp only [Space.base, Space.cap]
    omega
  split at h
  · cases h
    simp only [Space.base, Space.cap]
    omega
  · cases h

@[simp] theorem memRead_length (s : State) (sp : Space) (a n : Nat) : (memRead s sp a n).length = n := by
  simp [memRead]

@[simp] theorem memRead_getElem (s : State) (sp : Space) (a n i : Nat) (h : i < (memRead s sp a n).length) :
    (memRead s sp a n)[i] = readByte s sp (a + i) := by
  simp [memRead]

/-- Two adjacent spans are one. -/
theorem memRead_append (s : State) (sp : Space) (a n k : Nat) :
    memRead s sp a n ++ memRead s sp (a + n) k = memRead s sp a (n + k) := by
  simp only [memRead, List.range_add, List.map_append, List.map_map]
  congr 1
  exact List.map_congr_left fun i _ => by simp [Nat.add_assoc]

end Sys2Proof.Machine
end

