-- ==== Sys2Proof/Laws/Engine.lean ====
section
/-! SUPPORT. What the engine does: taking an answer looks at nothing of what host and bus will do; a list of
answers carries a running command along (`Feeds`); the loops (attempts to open, packets sent, packets
received) each as one lemma about it. -/

namespace Sys2Proof.Machine

open Sys2Proof

/-! ### What host and bus will do is not read by what an answer does -/

/-- `s` with another future: other inputs and other bus events. -/
def State.facing (s : State) (inputs : List Input) (bus : List BusEvent) : State :=
  { s with inputs := inputs, bus := bus }

@[simp] theorem facing_running (s : State) (i : List Input) (b : List BusEvent) :
    (s.facing i b).running = s.running := rfl

@[simp] theorem facing_facing (s : State) (i j : List Input) (b c : List BusEvent) :
    (s.facing i b).facing j c = s.facing j c := rfl

theorem havoc_facing (sp : Space) (s : State) (i : List Input) (b : List BusEvent) :
    havoc sp (s.facing i b) = (havoc sp s).facing i b := by
  cases sp <;> rfl

theorem awaitPacket_facing (command : BusCommand) (sent : Nat) (r : Receiving) (s : State) (i : List Input)
    (b : List BusEvent) : awaitPacket command sent r (s.facing i b) = (awaitPacket command sent r s).facing i b := by
  unfold awaitPacket
  rw [apply_ite (fun x : State => x.facing i b)]
  rfl

theorem headerAnswered_facing (command : BusCommand) (sent : Nat) (r : Receiving) (a : BusAnswer) (s : State)
    (i : List Input) (b : List BusEvent) :
    headerAnswered command sent r a (s.facing i b) = (headerAnswered command sent r a s).facing i b := by
  unfold headerAnswered
  match a with
  | .err => rfl
  | .ok _ t =>
    dsimp only
    match Header.ofBytes? t with
    | none => rfl
    | some h =>
      dsimp only
      rw [apply_ite (fun x : State => x.facing i b), apply_ite (fun x : State => x.facing i b)]
      rfl

theorem bodyAnswered_facing (command : BusCommand) (sent : Nat) (r : Receiving) (h : Header) (a : BusAnswer)
    (s : State) (i : List Input) (b : List BusEvent) :
    bodyAnswered command sent r h a (s.facing i b) = (bodyAnswered command sent r h a s).facing i b := by
  unfold bodyAnswered
  match a with
  | .err => rfl
  | .ok _ t =>
    dsimp only
    rw [apply_ite (fun x : State => x.facing i b), apply_ite (fun x : State => x.facing i b),
      apply_ite (fun x : State => x.facing i b), ← awaitPacket_facing]
    rfl

theorem startReceive_facing (command : BusCommand) (sent : Nat) (s : State) (i : List Input) (b : List BusEvent) :
    startReceive command sent (s.facing i b) = (startReceive command sent s).facing i b :=
  awaitPacket_facing command sent _ { s with rawLen := 0, rxLen := 0 } i b

theorem allSent_facing (command : BusCommand) (sent : Nat) (s : State) (i : List Input) (b : List BusEvent) :
    allSent command sent (s.facing i b) = (allSent command sent s).facing i b := by
  cases command <;> first | rfl | exact startReceive_facing .execute sent s i b

theorem writeAnswered_facing (command : BusCommand) (f : Sending) (a : BusAnswer) (s : State) (i : List Input)
    (b : List BusEvent) : writeAnswered command f a (s.facing i b) = (writeAnswered command f a s).facing i b := by
  unfold writeAnswered
  match a with
  | .err => cases command <;> rfl
  | .ok _ _ =>
    dsimp only
    rw [apply_ite (fun x : State => x.facing i b), apply_ite (fun x : State => x.facing i b), ← allSent_facing]
    cases command <;> rfl

theorem tryOpen_facing (command : BusCommand) (attempt : Nat) (s : State) (i : List Input) (b : List BusEvent) :
    tryOpen command attempt (s.facing i b) = (tryOpen command attempt s).facing i b := by
  unfold tryOpen
  rw [apply_ite (fun x : State => x.facing i b)]
  cases command <;> rfl

/-- What an answer does commutes with a change of what host and bus will do. -/
theorem takeAnswer_facing (r : Running) (a : BusAnswer) (s : State) (i : List Input) (b : List BusEvent) :
    takeAnswer r a (s.facing i b) = (takeAnswer r a s).facing i b := by
  obtain ⟨command, sent, phase⟩ := r
  match phase with
  | .opening attempt =>
    match a with
    | .ok _ _ => cases command <;> rfl
    | .err => exact tryOpen_facing command (attempt + 1) s i b
  | .sending f => exact writeAnswered_facing command f a s i b
  | .awaitHeader p => exact headerAnswered_facing command sent p a s i b
  | .awaitBody p h => exact bodyAnswered_facing command sent p h a s i b
  | .closing => cases a <;> rfl

/-! ### Answers that carry a command along -/

/-- The answers `as` take the running command from `s` to `t`, each at a transaction of its own. -/
def Feeds : List BusAnswer → State → State → Prop
  | [], s, t => t = s
  | a :: as, s, t => ∃ r, s.running = some r ∧ Feeds as (takeAnswer r a s) t

theorem feeds_nil (s : State) : Feeds [] s s := rfl

theorem feeds_cons {a : BusAnswer} {as : List BusAnswer} {s t : State} {r : Running} (hr : s.running = some r)
    (h : Feeds as (takeAnswer r a s) t) : Feeds (a :: as) s t := ⟨r, hr, h⟩

theorem feeds_append {as bs : List BusAnswer} {s t u : State} (h : Feeds as s t) (h' : Feeds bs t u) :
    Feeds (as ++ bs) s u := by
  induction as generalizing s with
  | nil =>
    cases h
    exact h'
  | cons a as ih =>
    obtain ⟨r, hr, h⟩ := h
    exact ⟨r, hr, ih h⟩

theorem feeds_facing {as : List BusAnswer} {s t : State} (h : Feeds as s t) (i : List Input) (b : List BusEvent) :
    Feeds as (s.facing i b) (t.facing i b) := by
  induction as generalizing s with
  | nil =>
    cases h
    rfl
  | cons a as ih =>
    obtain ⟨r, hr, h⟩ := h
    exact ⟨r, hr, by rw [takeAnswer_facing]; exact ih h⟩

/-! ### The open loop -/

theorem tryOpen_issues (command : BusCommand) {attempt : Nat} {s : State} (h : attempt ≤ s.config.openAttempts) :
    tryOpen command attempt s = issue .busOpen ⟨command, 0, .opening attempt⟩ s := by
  rw [tryOpen, if_pos h]

theorem tryOpen_gives_up (command : BusCommand) {attempt : Nat} {s : State} (h : s.config.openAttempts < attempt) :
    tryOpen command attempt s = openFailed command s := by
  rw [tryOpen, if_neg (by omega)]

/-- What follows a failed attempt does not look at `running`, which the attempt had set. -/
theorem tryOpen_running (command : BusCommand) (attempt : Nat) (s : State) (x : Option Running) :
    tryOpen command attempt { s with running := x } = tryOpen command attempt s := by
  unfold tryOpen
  split
  · rfl
  · cases command <;> rfl

theorem opened_running (command : BusCommand) (attempts : Nat) (s : State) (x : Option Running) :
    opened command attempts { s with running := x } = opened command attempts s := by
  cases command <;> rfl

/-- `n` failed attempts (R175): each is in the log, and the next attempt follows, or the bound is passed. -/
theorem open_loop (command : BusCommand) (n attempt : Nat) (s : State)
    (h : attempt + n ≤ s.config.openAttempts + 1) :
    Feeds (List.replicate n .err) (tryOpen command attempt s)
      (tryOpen command (attempt + n) { s with busLog := s.busLog ++ List.replicate n .busOpen }) := by
  induction n generalizing attempt s with
  | zero => simp [Feeds]
  | succ n ih =>
    rw [tryOpen_issues command (by omega), List.replicate_succ]
    refine feeds_cons rfl ?_
    have hnext : takeAnswer ⟨command, 0, .opening attempt⟩ .err (issue .busOpen ⟨command, 0, .opening attempt⟩ s) =
        tryOpen command (attempt + 1) { s with busLog := s.busLog ++ [.busOpen] } :=
      tryOpen_running command (attempt + 1) { s with busLog := s.busLog ++ [.busOpen] } _
    rw [hnext]
    have := ih (attempt + 1) { s with busLog := s.busLog ++ [.busOpen] } (by simp only; omega)
    simpa only [List.append_assoc, List.singleton_append, ← List.replicate_succ, Nat.add_assoc, Nat.add_comm 1 n]
      using this

/-! ### The transmit loop -/

theorem startReceive_running (command : BusCommand) (sent : Nat) (s : State) (x : Option Running) :
    startReceive command sent { s with running := x } = startReceive command sent s := by
  unfold startReceive awaitPacket
  split <;> rfl

theorem allSent_running (command : BusCommand) (sent : Nat) (s : State) (x : Option Running) :
    allSent command sent { s with running := x } = allSent command sent s := by
  cases command <;> rfl

@[simp] theorem packetBytes_length (s : State) (f : Sending) (k : Nat) :
    (packetBytes s f k).length = payloadLength f.len f.mtu k + 9 := by
  simp [packetBytes, Header.toBytes]

/-- One packet wholly written: the next one is handed to the bus, or all are sent (R122). -/
theorem writeAnswered_ok (command : BusCommand) (f : Sending) (unread : List Byte) (s : State) :
    writeAnswered command f (.ok (packetBytes s f f.index).length unread) s =
      if f.index + 1 < f.count then sendPacket command { f with index := f.index + 1 } s
      else allSent command f.count s := by
  simp only [writeAnswered, packetBytes_length, ne_eq, not_true_eq_false, if_false]

/-- One packet wholly written, from the state that has just handed it to the bus. -/
theorem send_one (command : BusCommand) (f : Sending) (unread : List Byte) (s : State) :
    Feeds [.ok (packetBytes s f f.index).length unread] (sendPacket command f s)
      (if f.index + 1 < f.count then
        sendPacket command { f with index := f.index + 1 }
          { s with busLog := s.busLog ++ [.busWrite (packetBytes s f f.index)] }
      else allSent command f.count { s with busLog := s.busLog ++ [.busWrite (packetBytes s f f.index)] }) := by
  refine ⟨_, rfl, Eq.symm ?_⟩
  refine (writeAnswered_ok command f unread (sendPacket command f s)).trans ?_
  split
  · rfl
  · exact allSent_running command f.count { s with busLog := s.busLog ++ [.busWrite (packetBytes s f f.index)] } _

/-- The transmit loop before its last packet: the bus writes some packets and packets are left. -/
theorem send_some (command : BusCommand) (f : Sending) (answers : List BusAnswer) (s : State)
    (hi : f.index + answers.length < f.count)
    (hack : Acknowledge answers ((List.range' f.index answers.length).map (packetBytes s f))) :
    Feeds answers (sendPacket command f s)
      (sendPacket command { f with index := f.index + answers.length }
        { s with
          busLog := s.busLog ++ writesOf ((List.range' f.index answers.length).map (packetBytes s f)) }) := by
  induction answers generalizing f s with
  | nil => simp [writesOf, Feeds]
  | cons a answers ih =>
    simp only [List.length_cons, List.range'_succ, List.map_cons] at hack hi ⊢
    obtain ⟨⟨unread, rfl⟩, htail⟩ := List.forall₂_cons.1 hack
    have h1 := send_one command f unread s
    rw [if_pos (by omega)] at h1
    have h2 := ih { f with index := f.index + 1 }
      { s with busLog := s.busLog ++ [.busWrite (packetBytes s f f.index)] } (by simp only; omega) htail
    have e1 : f.index + 1 + answers.length = f.index + (answers.length + 1) := by omega
    simp only [e1, List.append_assoc] at h2
    exact feeds_append h1 h2

/-- The transmit loop to its end: the bus writes every packet that is left. -/
theorem send_all (command : BusCommand) (f : Sending) (answers : List BusAnswer) (s : State)
    (hne : answers ≠ []) (hi : f.index + answers.length = f.count)
    (hack : Acknowledge answers ((List.range' f.index answers.length).map (packetBytes s f))) :
    Feeds answers (sendPacket command f s)
      (allSent command f.count
        { s with
          busLog := s.busLog ++ writesOf ((List.range' f.index answers.length).map (packetBytes s f)) }) := by
  induction answers generalizing f s with
  | nil => exact absurd rfl hne
  | cons a answers ih =>
    simp only [List.length_cons, List.range'_succ, List.map_cons] at hack hi ⊢
    obtain ⟨⟨unread, rfl⟩, htail⟩ := List.forall₂_cons.1 hack
    have h1 := send_one command f unread s
    by_cases hnil : answers = []
    · subst hnil
      rw [if_neg (by simp at hi; omega)] at h1
      exact h1
    · have := List.length_pos_iff.2 hnil
      rw [if_pos (by omega)] at h1
      have h2 := ih { f with index := f.index + 1 }
        { s with busLog := s.busLog ++ [.busWrite (packetBytes s f f.index)] } hnil (by simp only; omega) htail
      simp only [List.append_assoc] at h2
      exact feeds_append h1 h2

/-! ### The receive loop -/

theorem awaitPacket_fits (command : BusCommand) (n : Nat) {r : Receiving} {s : State}
    (h : r.raw + 8 ≤ s.config.replyCap) :
    awaitPacket command n r s = issue (.busRead 8) ⟨command, n, .awaitHeader r⟩ s := by
  rw [awaitPacket, if_neg (by omega)]

theorem awaitPacket_overflows (command : BusCommand) (n : Nat) {r : Receiving} {s : State}
    (h : s.config.replyCap < r.raw + 8) :
    awaitPacket command n r s = receiveFailed command n r .replyOverflow s := by
  rw [awaitPacket, if_pos (by omega)]

theorem awaitPacket_running (command : BusCommand) (sent : Nat) (r : Receiving) (s : State) (x : Option Running) :
    awaitPacket command sent r { s with running := x } = awaitPacket command sent r s := by
  unfold awaitPacket
  split <;> rfl

@[simp] theorem header_toBytes_length (h : Header) : h.toBytes.length = 8 := rfl

@[simp] theorem header_ofBytes_toBytes (h : Header) : Header.ofBytes? h.toBytes = some h := rfl

/-- An answer whose length is not 8 is no header. -/
theorem header_ofBytes_none {t : List Byte} (h : t.length ≠ 8) : Header.ofBytes? t = none := by
  match t with
  | [] | [_] | [_, _] | [_, _, _] | [_, _, _, _] | [_, _, _, _, _] | [_, _, _, _, _, _] | [_, _, _, _, _, _, _] => rfl
  | [_, _, _, _, _, _, _, _] => exact absurd rfl h
  | _ :: _ :: _ :: _ :: _ :: _ :: _ :: _ :: _ :: _ => rfl

/-- Only an answer of eight bytes is a header, and it is their header. -/
theorem header_ofBytes_some {t : List Byte} {h : Header} (he : Header.ofBytes? t = some h) : t = h.toBytes := by
  unfold Header.ofBytes? at he
  split at he
  · cases he; rfl
  · cases he

@[simp] theorem delivery_raw_length (d : Delivery) : d.raw.length = d.payload.length + 9 := by
  simp [Delivery.raw]
  omega

/-- The PEC check on a body that is a payload and its PEC byte (R141). -/
theorem pecMatches_body (h : Header) (payload : List Byte) (pec : Byte) :
    pecMatches h (payload ++ [pec]) = (pecOf h payload == pec) := by
  simp [pecMatches, List.getD]

/-- The header of an acceptable packet is stored and its body asked for (R137 to R139). -/
theorem headerAnswered_ok (command : BusCommand) (sent : Nat) (r : Receiving) (h : Header) (n unread : Nat)
    {s : State} (hbc : h.byteCount.toNat = n + 5) (hmtu : n ≤ r.mtu) (hcap : r.raw + (n + 9) ≤ s.config.replyCap) :
    headerAnswered command sent r (.ok unread h.toBytes) s =
      issue (.busRead (n + 1)) ⟨command, sent, .awaitBody r h⟩ (memWrite .reply r.raw h.toBytes s) := by
  simp only [headerAnswered, header_ofBytes_toBytes, hbc, memWrite_config]
  rw [if_neg (by omega), if_neg (by omega), show n + 5 - 4 = n + 1 by omega]

/-- The body of an acceptable packet is stored, counted, and the phase ends or goes on (R140 to R143). -/
theorem bodyAnswered_ok (command : BusCommand) (sent : Nat) (r : Receiving) (d : Delivery)
    (hd : d.Acceptable r.mtu r.check) (s : State) :
    bodyAnswered command sent r d.header (.ok d.unread.2 (d.payload ++ [d.pec])) s =
      if d.header.eom then
        succeed (exchangeResult command sent (r.accepted + 1))
          { s with
            mem := s.mem.write (Space.reply.base + (r.raw + 8)) (d.payload ++ [d.pec])
            rawLen := BitVec.ofNat 16 (r.raw + d.raw.length)
            rxLen := BitVec.ofNat 16 (r.received + d.payload.length)
            replyValid := true }
      else
        awaitPacket command sent
          ⟨r.mtu, r.check, r.raw + d.raw.length, r.received + d.payload.length, r.accepted + 1⟩
          { s with
            mem := s.mem.write (Space.reply.base + (r.raw + 8)) (d.payload ++ [d.pec])
            rawLen := BitVec.ofNat 16 (r.raw + d.raw.length)
            rxLen := BitVec.ofNat 16 (r.received + d.payload.length) } := by
  obtain ⟨hbc, -, hpec⟩ := hd
  have hok : ¬(r.check = true ∧ pecMatches d.header (d.payload ++ [d.pec]) = false) := by
    rw [pecMatches_body]
    rintro ⟨hc, hne⟩
    simp [hpec hc] at hne
  have hr : r.accept d.header.byteCount.toNat =
      ⟨r.mtu, r.check, r.raw + d.raw.length, r.received + d.payload.length, r.accepted + 1⟩ := by
    simp only [Receiving.accept, hbc, delivery_raw_length, Receiving.mk.injEq, true_and, and_true]
    exact ⟨by omega, by omega⟩
  simp only [bodyAnswered, if_neg hok, hr]
  rw [if_neg (by simp [hbc])]
  rfl

/-- The receive loop takes one acceptable packet (R136): it stands verbatim in REPLYBUF, the counters have
it, and the phase ends at end of message or looks for the next packet. -/
theorem receive_one (command : BusCommand) (sent : Nat) (r : Receiving) (d : Delivery) (s : State)
    (hd : d.Acceptable r.mtu r.check) (hcap : r.raw + d.raw.length ≤ s.config.replyCap) :
    Feeds d.answers (awaitPacket command sent r s)
      (if d.header.eom then
        succeed (exchangeResult command sent (r.accepted + 1))
          { s with
            mem := s.mem.write (Space.reply.base + r.raw) d.raw
            rawLen := BitVec.ofNat 16 (r.raw + d.raw.length)
            rxLen := BitVec.ofNat 16 (r.received + d.payload.length)
            busLog := s.busLog ++ d.reads
            replyValid := true }
      else
        awaitPacket command sent
          ⟨r.mtu, r.check, r.raw + d.raw.length, r.received + d.payload.length, r.accepted + 1⟩
          { s with
            mem := s.mem.write (Space.reply.base + r.raw) d.raw
            rawLen := BitVec.ofNat 16 (r.raw + d.raw.length)
            rxLen := BitVec.ofNat 16 (r.received + d.payload.length)
            busLog := s.busLog ++ d.reads }) := by
  have hcap' := hcap
  rw [delivery_raw_length] at hcap'
  have e3 : (s.mem.write (Space.reply.base + r.raw) d.header.toBytes).write (Space.reply.base + (r.raw + 8))
      (d.payload ++ [d.pec]) = s.mem.write (Space.reply.base + r.raw) d.raw := by
    have := write_write s.mem (Space.reply.base + r.raw) d.header.toBytes (d.payload ++ [d.pec])
    rw [header_toBytes_length, Nat.add_assoc] at this
    rw [this, Delivery.raw, List.append_assoc]
  rw [awaitPacket_fits command sent (by omega), Delivery.answers]
  refine feeds_cons rfl ?_
  simp only [takeAnswer]
  rw [headerAnswered_ok command sent r d.header d.payload.length _ hd.1 hd.2.1 (by simpa using hcap')]
  refine ⟨_, rfl, Eq.symm ?_⟩
  simp only [takeAnswer]
  rw [bodyAnswered_ok command sent r d hd]
  simp only [issue_mem, memWrite_mem, issue_busLog, memWrite_busLog, e3, List.append_assoc,
    List.singleton_append]
  split
  · rfl
  · exact awaitPacket_running command sent _
      { s with
        mem := s.mem.write (Space.reply.base + r.raw) d.raw
        rawLen := BitVec.ofNat 16 (r.raw + d.raw.length)
        rxLen := BitVec.ofNat 16 (r.received + d.payload.length)
        busLog := s.busLog ++ d.reads } _

@[simp] theorem rawOf_cons (d : Delivery) (ds : List Delivery) : rawOf (d :: ds) = d.raw ++ rawOf ds := rfl

@[simp] theorem messageOf_cons (d : Delivery) (ds : List Delivery) :
    messageOf (d :: ds) = d.payload ++ messageOf ds := rfl

@[simp] theorem answersOf_cons (d : Delivery) (ds : List Delivery) :
    answersOf (d :: ds) = d.answers ++ answersOf ds := rfl

@[simp] theorem readsOf_cons (d : Delivery) (ds : List Delivery) : readsOf (d :: ds) = d.reads ++ readsOf ds := rfl

/-- Each packet takes two answers. -/
theorem answersOf_length (ds : List Delivery) : (answersOf ds).length = 2 * ds.length := by
  induction ds with
  | nil => rfl
  | cons d ds ih =>
    simp only [answersOf_cons, List.length_append, ih, List.length_cons, Delivery.answers, List.length_nil]
    omega

/-- Each packet is nine raw bytes longer than its payload (R147). -/
theorem rawOf_length (ds : List Delivery) : (rawOf ds).length = (messageOf ds).length + 9 * ds.length := by
  induction ds with
  | nil => rfl
  | cons d ds ih =>
    simp only [rawOf_cons, messageOf_cons, List.length_append, delivery_raw_length, ih, List.length_cons]
    omega

/-- The receive loop over one or more packets without EOM (R136): all of them stand verbatim in REPLYBUF, in
order, the counters have them, and the phase looks for the next packet. -/
theorem receive_loop (command : BusCommand) (sent : Nat) (ds : List Delivery) (hne : ds ≠ []) (r : Receiving)
    (s : State) (hd : ∀ d ∈ ds, d.Acceptable r.mtu r.check ∧ d.header.eom = false)
    (hcap : r.raw + (rawOf ds).length ≤ s.config.replyCap) :
    Feeds (answersOf ds) (awaitPacket command sent r s)
      (awaitPacket command sent
        ⟨r.mtu, r.check, r.raw + (rawOf ds).length, r.received + (messageOf ds).length, r.accepted + ds.length⟩
        { s with
          mem := s.mem.write (Space.reply.base + r.raw) (rawOf ds)
          rawLen := BitVec.ofNat 16 (r.raw + (rawOf ds).length)
          rxLen := BitVec.ofNat 16 (r.received + (messageOf ds).length)
          busLog := s.busLog ++ readsOf ds }) := by
  induction ds generalizing r s with
  | nil => exact absurd rfl hne
  | cons d ds ih =>
    obtain ⟨hacc, heom⟩ := hd d (by simp)
    simp only [rawOf_cons, messageOf_cons, readsOf_cons, answersOf_cons, List.length_append, List.length_cons]
      at hcap ⊢
    have h1 := receive_one command sent r d s hacc (by omega)
    rw [if_neg (by simp [heom])] at h1
    refine feeds_append h1 ?_
    by_cases hds : ds = []
    · subst hds
      simp [answersOf, rawOf, messageOf, readsOf, Feeds]
    · have h2 := ih hds ⟨r.mtu, r.check, r.raw + d.raw.length, r.received + d.payload.length, r.accepted + 1⟩
        { s with
          mem := s.mem.write (Space.reply.base + r.raw) d.raw
          rawLen := BitVec.ofNat 16 (r.raw + d.raw.length)
          rxLen := BitVec.ofNat 16 (r.received + d.payload.length)
          busLog := s.busLog ++ d.reads }
        (fun e he => hd e (by simp [he])) (by simp only; omega)
      have e1 : r.accepted + 1 + ds.length = r.accepted + (ds.length + 1) := by omega
      have e2 := write_write s.mem (Space.reply.base + r.raw) d.raw (rawOf ds)
      rw [Nat.add_assoc] at e2
      simp only [Nat.add_assoc, e1, e2, List.append_assoc] at h2 ⊢
      exact h2

end Sys2Proof.Machine
end

