-- ==== Sys2Proof/Laws/PerInstr.lean ====
section
/-! SUPPORT. What is said of every instruction, one lemma per constructor: it is well formed, and the decoder
reads it from the word the encoder writes, also when that word comes as an opcode-table word. -/

namespace Sys2Proof.Laws

open Sys2Proof

/-- The instruction is well formed (R89), its word decodes to it, and that word read as a 32-bit table word
gives it too. -/
def RoundTrip.Statement (i : Instr) : Prop :=
  i.wellFormed = true ∧ decode (encode i) = .ok i ∧ decodeTableWord 32 (encode i).toNat = some i

theorem RoundTrip.crc8 : RoundTrip.Statement .crc8 := ⟨by decide, by decide, by decide⟩

theorem RoundTrip.crc32 : RoundTrip.Statement .crc32 := ⟨by decide, by decide, by decide⟩

theorem RoundTrip.frame : RoundTrip.Statement .frame := ⟨by decide, by decide, by decide⟩

theorem RoundTrip.deframe : RoundTrip.Statement .deframe := ⟨by decide, by decide, by decide⟩

theorem RoundTrip.execute : RoundTrip.Statement .execute := ⟨by decide, by decide, by decide⟩

theorem RoundTrip.extract (adm dstp : Bool) : RoundTrip.Statement (.extract adm dstp) := by
  cases adm <;> cases dstp <;> exact ⟨by decide, by decide, by decide⟩

theorem RoundTrip.peek : RoundTrip.Statement .peek := ⟨by decide, by decide, by decide⟩

theorem RoundTrip.openBus : RoundTrip.Statement .openBus := ⟨by decide, by decide, by decide⟩

theorem RoundTrip.closeBus : RoundTrip.Statement .closeBus := ⟨by decide, by decide, by decide⟩

end Sys2Proof.Laws
end

