-- ==== Sys2Proof/Laws/Step.lean ====
section
/-! SUPPORT. What a step does, case by case; that a run of a command is `Feeds` with the inputs that wait; which
branch the commands' checks take. -/

namespace Sys2Proof.Machine

open Sys2Proof

/-! ### Inputs that wait -/

@[simp] theorem inputsAfter_zero (l : List Input) : inputsAfter 0 l = l := by
  cases l with
  | nil => rfl
  | cons x l => cases x <;> rfl

theorem inputsAfter_succ (n : Nat) (l : List Input) : inputsAfter (n + 1) l = inputsAfter n (inputsAfter 1 l) := by
  match l with
  | [] => cases n <;> rfl
  | .host _ :: _ => cases n <;> rfl
  | .reset :: _ => cases n <;> rfl
  | .wait :: rest => simp [inputsAfter]

theorem inputsAfter_add (n m : Nat) (l : List Input) : inputsAfter (n + m) l = inputsAfter m (inputsAfter n l) := by
  induction n generalizing l with
  | zero => simp
  | succ n ih => rw [Nat.add_right_comm, inputsAfter_succ, ih, ← inputsAfter_succ]

theorem noResetFor_head {n : Nat} {l : List Input} (h : NoResetFor (n + 1) l) : ∀ rest, l ≠ .reset :: rest := by
  rintro rest rfl
  exact h

theorem noResetFor_tail {n : Nat} {l : List Input} (h : NoResetFor (n + 1) l) : NoResetFor n (inputsAfter 1 l) := by
  match l with
  | [] => cases n <;> trivial
  | .host _ :: _ => cases n <;> trivial
  | .reset :: _ => exact h.elim
  | .wait :: rest =>
    rw [inputsAfter, inputsAfter_zero]
    exact h

theorem noResetFor_add {n m : Nat} {l : List Input} :
    NoResetFor (n + m) l ↔ NoResetFor n l ∧ NoResetFor m (inputsAfter n l) := by
  induction n generalizing l with
  | zero => simp [NoResetFor]
  | succ n ih =>
    match l with
    | [] => cases m <;> simp [NoResetFor, inputsAfter]
    | .host _ :: _ => cases m <;> simp [NoResetFor, inputsAfter]
    | .reset :: _ => simp [NoResetFor, Nat.add_right_comm n 1]
    | .wait :: rest =>
      rw [Nat.add_right_comm]
      exact ih

/-! ### The cases of a step -/

theorem step_host {s : State} {x : HostAccess} {rest : List Input} (h₁ : s.running = none)
    (h₂ : s.inputs = .host x :: rest) : step s = hostAccess x { s with inputs := rest } := by
  simp [step, takeStep, h₁, h₂]

theorem step_reset {s : State} {rest : List Input} (h : s.inputs = .reset :: rest) :
    step s = .next (resetEvent { s with inputs := rest }) := by
  simp only [step, takeStep, h]

theorem step_wait {s : State} {rest : List Input} (h : s.inputs = .wait :: rest) :
    step s = .next (tick { s with inputs := rest }) := by
  simp only [step, takeStep, h]

theorem step_no_input {s : State} (h : s.inputs = []) : step s = .next (tick s) := by
  simp only [step, takeStep, h]

theorem tick_idle {s : State} (h : s.running = none) : tick s = s := by
  simp only [tick, h]

theorem tick_answer {s : State} {r : Running} {a : BusAnswer} {rest : List BusEvent} (h₁ : s.running = some r)
    (h₂ : s.bus = .answer a :: rest) : tick s = takeAnswer r a { s with bus := rest } := by
  simp only [tick, h₁, h₂]

theorem tick_silent {s : State} {r : Running} {rest : List BusEvent} (h₁ : s.running = some r)
    (h₂ : s.bus = .silent :: rest) : tick s = { s with bus := rest } := by
  simp only [tick, h₁, h₂]

theorem tick_unanswered {s : State} (h : s.bus = []) : tick s = s := by
  unfold tick
  split <;> simp_all

/-- A running command's step (R3): without a reset it is the command's own, whatever the host wants. -/
theorem step_running {s : State} {r : Running} (h₁ : s.running = some r) (h₂ : ∀ rest, s.inputs ≠ .reset :: rest) :
    step s = .next (tick { s with inputs := inputsAfter 1 s.inputs }) := by
  match h : s.inputs with
  | [] =>
    rw [step_no_input h]
    exact congrArg (fun l => Host.Outcome.next (tick { s with inputs := l })) h
  | .host x :: rest =>
    simp only [step, takeStep, h, h₁, Option.isSome_some, if_true, inputsAfter]
    rw [← h, ← h₁]
  | .reset :: rest => exact absurd h (h₂ rest)
  | .wait :: rest => rw [step_wait h, inputsAfter, inputsAfter_zero]

/-! ### Runs -/

theorem run_succ {s t : State} (h : step s = .next t) (n : Nat) :
    Host.Core.run Sys2Proof.core (n + 1) s = Host.Core.run Sys2Proof.core n t := by
  simp only [Host.Core.run.eq_def Sys2Proof.core (n + 1) s, show Sys2Proof.core.step s = .next t from h]

/-- A run is its first step and the rest. -/
theorem run_succ_next {s t : State} {n : Nat} (h : Host.Core.run Sys2Proof.core (n + 1) s = .next t) :
    ∃ u, step s = .next u ∧ Host.Core.run Sys2Proof.core n u = .next t := by
  match hs : step s with
  | .next u => exact ⟨u, rfl, (run_succ hs n).symm.trans h⟩
  | .fault f => exact nomatch f
  | .refused r =>
    simp only [Host.Core.run.eq_def Sys2Proof.core (n + 1) s, show Sys2Proof.core.step s = .refused r from hs] at h
    cases h

theorem run_add {s t : State} {n : Nat} (h : Host.Core.run Sys2Proof.core n s = .next t) (m : Nat) :
    Host.Core.run Sys2Proof.core (n + m) s = Host.Core.run Sys2Proof.core m t := by
  induction n generalizing s with
  | zero =>
    cases h
    rw [Nat.zero_add]
  | succ n ih =>
    obtain ⟨u, hu, h⟩ := run_succ_next h
    rw [Nat.add_right_comm, run_succ hu]
    exact ih h

/-- The answers that carry a command from `s` to `t` do so in as many steps, while host and platform wait. -/
theorem run_feeds {as : List BusAnswer} {s t : State} {rest : List BusEvent} (h : Feeds as s t)
    (hbus : s.bus = answered as rest) (hin : NoResetFor as.length s.inputs) :
    Host.Core.run Sys2Proof.core as.length s = .next (t.facing (inputsAfter as.length s.inputs) rest) := by
  induction as generalizing s t with
  | nil =>
    cases h
    simp only [List.length_nil, inputsAfter_zero, Host.Core.run]
    cases hbus
    rfl
  | cons a as ih =>
    obtain ⟨r, hr, h⟩ := h
    have hstep : step s = .next (takeAnswer r a (s.facing (inputsAfter 1 s.inputs) (answered as rest))) := by
      rw [step_running hr (noResetFor_head hin)]
      exact congrArg _ (tick_answer (s := { s with inputs := inputsAfter 1 s.inputs }) hr hbus)
    rw [takeAnswer_facing] at hstep
    have hf := feeds_facing h (inputsAfter 1 s.inputs) (answered as rest)
    rw [List.length_cons, run_succ hstep, ih hf rfl (noResetFor_tail hin), inputsAfter_succ as.length]
    rfl

/-! ### Which branch the checks take -/

theorem checksumCommand_inside (f : List Byte → Word) {s : State}
    (h : s.argA.toNat + s.argB.toNat ≤ s.config.msgCap) :
    checksumCommand f s = succeed (f (memRead s .msg s.argA.toNat s.argB.toNat)) s := by
  rw [checksumCommand, if_neg (by unfold spanStart operandB; omega)]
  rfl

theorem checksumCommand_outside (f : List Byte → Word) {s : State}
    (h : s.config.msgCap < s.argA.toNat + s.argB.toNat) : checksumCommand f s = raiseError .badLength 0 s := by
  rw [checksumCommand, if_pos (by unfold spanStart operandB; omega)]

theorem frameCommand_starts {s : State} (h₁ : s.argB.toNat ≤ s.config.msgCap) (h₂ : s.busOpen = true) :
    frameCommand s = startSend .frame s.argB.toNat { s with replyValid := false } := by
  rw [frameCommand, if_neg (by unfold operandB; omega), if_neg (by simp [h₂])]
  rfl

theorem deframeCommand_starts {s : State} (h : s.busOpen = true) :
    deframeCommand s = startReceive .deframe 0 { s with replyValid := false } := by
  rw [deframeCommand, if_neg (by simp [h])]

theorem executeCommand_starts {s : State} (h : s.argB.toNat ≤ s.config.msgCap) :
    executeCommand s = startOpen .execute s := by
  rw [executeCommand, if_neg (by unfold operandB; omega)]

/-- A failed reception is over. -/
theorem receiveFailed_running (command : BusCommand) (n : Nat) (r : Receiving) (code : StatusCode) (s : State) :
    (receiveFailed command n r code s).running = none := rfl

end Sys2Proof.Machine
end

