-- ==== Sys2Proof/Tests/Slice0.lean ====
section
/-! SUPPORT. Small tests, their expected values taken from spec/95_test_vectors.md (the vector is named at each
test) or worked out from the rules, and for each statement with hypotheses a witness that meets them. -/

namespace Sys2Proof.Machine.Tests

open Sys2Proof Sys2Proof.Machine

/-! ### Helpers -/

/-- The reset machine with one host access to come. -/
def access (x : HostAccess) : State := { State.reset with inputs := [.host x] }

/-- The machine with the bus open and ADDR-A of the test vectors. -/
def ready : State := { State.reset with busOpen := true, addr := 0x0809213A }

/-- The bus writes a packet of `n` bytes. -/
def wrote (n : Nat) : BusAnswer := .ok n []

/-- The bus delivers bytes. -/
def sent (bytes : List Byte) : BusAnswer := .ok 0 bytes

/-- `s` with a bus that gives these answers, one a step. -/
def answering (s : State) (answers : List BusAnswer) : State := { s with bus := answered answers [] }

/-- What is left of a machine: STATUS, RESULT and the number of bus transactions issued. -/
def left (s : State) : Word × Word × Nat := (statusWord s, s.result, s.busLog.length)

/-- The state a step leaves. -/
def stepped (s : State) : State :=
  match step s with
  | .next t => t
  | _ => s

/-- The state that `n` steps leave. -/
def ran : Nat → State → State
  | 0, s => s
  | n + 1, s => ran n (stepped s)

/-- The state an instruction leaves: as it starts, before any answer of the bus. -/
def started (i : Instr) (s : State) : State :=
  match exec i s with
  | .next t => t
  | _ => s

/-- The state an instruction leaves after as many steps as the bus has events for. -/
def after (i : Instr) (s : State) : State := ran s.bus.length (started i s)

/-- "123456789" in MSGBUF (vector K17), with the span `[a, a+b)`. -/
def digits (a b : Half) : State :=
  { State.reset with
    argA := a, argB := b
    mem := cells 0x2000 [0x31, 0x32, 0x33, 0x34, 0x35, 0x36, 0x37, 0x38, 0x39] }

/-- A received MI-Admin response of vector X6, with the capacity `cap`. -/
def adminReply (cap : Half) : State :=
  { ready with
    argB := cap, replyValid := true, rxLen := 32, rawLen := 41
    mem := cells 0x4000
      [0x21, 0x0F, 0x25, 0x3B, 0x01, 0x08, 0x09, 0xC3, 0x84, 0x90, 0, 0, 0, 0, 0, 0, 1, 0, 0, 0, 0, 0, 0, 0, 0, 0, 0, 0,
       0x11, 0x22, 0x33, 0x44, 0x55, 0x66, 0x77, 0x88, 0x0B, 0x57, 0xE7, 0x51, 0x8D] }

/-- The other parameters of vectors RT9 and K16. -/
def wider : Config := { Config.mfe with replyCap := 5711, crc32Reflected := false }

/-! ### Well-formedness: an ill-formed word for each check -/

theorem test_opcodeKnown : CommandWord.opcodeKnown ⟨0x00, false, false, 0⟩ = false ∧
    CommandWord.opcodeKnown ⟨0x0A, false, false, 0⟩ = false := by decide

theorem test_reservedClear : CommandWord.reservedClear ⟨0x01, false, false, 1⟩ = false := by decide

theorem test_flagsAllowed : CommandWord.flagsAllowed ⟨0x01, true, false, 0⟩ = false ∧
    CommandWord.flagsAllowed ⟨0x05, false, true, 0⟩ = false := by decide

/-- One word each check alone makes ill formed, and one that is well formed. -/
theorem test_wellFormed : CommandWord.wellFormed ⟨0x0A, false, false, 0⟩ = false ∧
    CommandWord.wellFormed ⟨0x06, true, true, 0x200000⟩ = false ∧
    CommandWord.wellFormed ⟨0x07, false, true, 0⟩ = false ∧
    CommandWord.wellFormed ⟨0x06, true, true, 0⟩ = true := by decide

theorem test_config_legal : Config.mfe.Legal ∧ wider.Legal := by unfold Config.Legal; decide

/-! ### Decoding: words written out from R87 and R88 (reserved 22 bits, DSTP, ADM, opcode byte) -/

theorem test_decode_crc8 : decode 0b0000000000000000000000_0_0_00000001 = .ok .crc8 := by decide

theorem test_decode_crc32 : decode 0b0000000000000000000000_0_0_00000010 = .ok .crc32 := by decide

theorem test_decode_frame : decode 0b0000000000000000000000_0_0_00000011 = .ok .frame := by decide

theorem test_decode_deframe : decode 0b0000000000000000000000_0_0_00000100 = .ok .deframe := by decide

theorem test_decode_execute : decode 0b0000000000000000000000_0_0_00000101 = .ok .execute := by decide

/-- The four EXTRACT words; 0x306 is vector W7, 0x006 vector W8. -/
theorem test_decode_extract :
    decode 0b0000000000000000000000_0_0_00000110 = .ok (.extract false false) ∧
    decode 0b0000000000000000000000_0_1_00000110 = .ok (.extract true false) ∧
    decode 0b0000000000000000000000_1_0_00000110 = .ok (.extract false true) ∧
    decode 0b0000000000000000000000_1_1_00000110 = .ok (.extract true true) := by decide

theorem test_decode_peek : decode 0b0000000000000000000000_0_0_00000111 = .ok .peek := by decide

theorem test_decode_open : decode 0b0000000000000000000000_0_0_00001000 = .ok .openBus := by decide

theorem test_decode_close : decode 0b0000000000000000000000_0_0_00001001 = .ok .closeBus := by decide

/-- Vectors W1 to W6: illegal words. -/
theorem test_decode_illegal :
    ([0x00000000, 0x0000000A, 0x000000FF, 0x00000101, 0x00000205, 0x00000406, 0x80000001] : List Word).all
      (fun w => (decode w).toOption == none) = true := by decide

/-- Table words: nothing above 32 bits is a command word. -/
theorem test_decodeTableWord : decodeTableWord 32 0x306 = some (.extract true true) ∧
    decodeTableWord 32 0x106 = some (.extract true false) ∧ decodeTableWord 40 0x100000001 = none := by decide

/-! ### Checksums -/

/-- Vectors K1 and K6. -/
theorem test_crc8 : crc8 [0x31, 0x32, 0x33, 0x34, 0x35, 0x36, 0x37, 0x38, 0x39] = 0xF4 ∧ crc8 [0xFF] = 0xF3 := by
  decide +kernel

/-- Vectors K10 and K11, and of K16 the unreflected form. -/
theorem test_crc32 : crc32 Config.mfe [0x61] = 0xC1D04330 ∧ crc32 Config.mfe [0x00] = 0x527D5351 ∧
    crc32 { Config.mfe with crc32Reflected := false } [0x61] = 0x83F1546F := by decide +kernel

/-- Vector K17. -/
theorem test_crc8_command : left (started .crc8 (digits 0 9)) = (0x000, 0x000000F4, 0) := by decide +kernel

/-- Vector K18, and the unreflected form of "a" (vector K16) as the command gives it with that parameter. -/
theorem test_crc32_command : left (started .crc32 (digits 0 9)) = (0x000, 0xE3069283, 0) ∧
    (started .crc32 { digits 0 1 with config := wider, mem := cells 0x2000 [0x61] }).result = 0x83F1546F := by
  decide +kernel

/-- Vectors K21 and K22: the sum of the span does not wrap. -/
theorem test_checksum_badLength : left (started .crc8 (digits 5120 1)) = (0x008, 0, 0) ∧
    left (started .crc32 (digits 0xFFFF 1)) = (0x008, 0, 0) := by decide +kernel

/-! ### FRAME -/

/-- Vector F12: the bytes of the one packet. -/
theorem test_frame_bytes :
    (started .frame { ready with argB := 3, mem := cells 0x2000 [0x10, 0x11, 0x12] }).busLog =
      [.busWrite [0x3A, 0x0F, 0x08, 0x21, 0x01, 0x09, 0x08, 0xCB, 0x10, 0x11, 0x12, 0x1E]] := by decide +kernel

/-- Vector F19 (its first two packets), and the second write failing as in F23. -/
theorem test_frame_sequence :
    after .frame (answering { ready with mtu := 1, argB := 5, mem := cells 0x2000 [1, 2, 3, 4, 5] } [wrote 10, .err]) =
      { ready with
        mtu := 1, argB := 5, mem := cells 0x2000 [1, 2, 3, 4, 5], err := .transportIOFailure, result := 1
        busLog := [.busWrite [0x3A, 0x0F, 0x06, 0x21, 0x01, 0x09, 0x08, 0x8B, 0x01, 0xB3],
          .busWrite [0x3A, 0x0F, 0x06, 0x21, 0x01, 0x09, 0x08, 0x1B, 0x02, 0x5B]]
        portLog := [.done] } := by decide +kernel

/-! ### DEFRAME -/

/-- Vector D2: the smallest packet, and its bytes in REPLYBUF. -/
theorem test_deframe_smallest :
    after .deframe (answering ready [sent [0x21, 0x0F, 0x05, 0x3B, 0x01, 0x08, 0x09, 0xC3], sent [0xBD]]) =
      { ready with
        replyValid := true, result := 1, rawLen := 9, rxLen := 0
        mem := cells 0x4000 [0x21, 0x0F, 0x05, 0x3B, 0x01, 0x08, 0x09, 0xC3, 0xBD]
        busLog := [.busRead 8, .busRead 1]
        portLog := [.done] } := by decide +kernel

/-- Vector D3: a byte count of 4, the reply a new draw. -/
theorem test_deframe_badByteCount :
    after .deframe (answering ready [sent [0x21, 0x0F, 0x04, 0x3B, 0x01, 0x08, 0x09, 0xC3]]) =
      { ready with err := .badByteCount, replyDraw := 1, busLog := [.busRead 8], portLog := [.done] } := by
  decide +kernel

/-! ### EXECUTE -/

/-- Vector E2 with packets of one byte: two writes answered, the third fails. -/
theorem test_execute_failed_write :
    left (after .execute
      (answering { ready with mtu := 1, argB := 4, mem := cells 0x2000 [1, 2, 3, 4] } [wrote 10, wrote 10, .err])) =
      (0x202, 0x00020000, 3) := by decide +kernel

/-- Vector E3: ten opens fail. -/
theorem test_execute_no_open :
    left (after .execute (answering { State.reset with argB := 20 } (List.replicate 10 .err))) = (0x001, 0, 10) := by
  decide +kernel

/-! ### EXTRACT and PEEK -/

/-- Vectors X6 and X7: RESULT, SHORT and the bytes. -/
theorem test_extract : left (started (.extract true true) (adminReply 8)) = (0x300, 8, 0) ∧
    left (started (.extract true true) (adminReply 20)) = (0x700, 8, 0) ∧
    memRead (started (.extract true true) (adminReply 8)) .out 0 8 =
      [0x11, 0x22, 0x33, 0x44, 0x55, 0x66, 0x77, 0x88] := by decide +kernel

/-- Vectors X16, X15 and X17: the order of the refusals. -/
theorem test_extract_refusals : left (started (.extract false false) (adminReply 5121)) = (0x304, 0, 0) ∧
    left (started (.extract false true) (adminReply 5121)) = (0x303, 0, 0) ∧
    left (started (.extract false true) ready) = (0x20A, 0, 0) := by decide +kernel

/-- The form of vector PK1: raw bytes from the payload of the first packet on. -/
theorem test_peek : memRead (started .peek (adminReply 8)) .out 0 8 = [0x84, 0x90, 0, 0, 0, 0, 0, 0] := by
  decide +kernel

/-- Vectors PK5 and PK6; and that PK5's length is no bad length at the REPLY_CAP of vector RT9. -/
theorem test_peek_refusals : left (started .peek (adminReply 5113)) = (0x308, 0, 0) ∧
    left (started .peek { ready with argB := 8 }) = (0x20A, 0, 0) ∧
    left (started .peek { ready with argB := 5113, config := wider }) = (0x20A, 0, 0) := by decide +kernel

/-! ### OPEN and CLOSE -/

/-- Vectors O2 and O3. -/
theorem test_open :
    left (after .openBus (answering State.reset [.err, .err, wrote 0])) = (0x200, 3, 3) ∧
    left (after .openBus (answering State.reset (List.replicate 10 .err))) = (0x001, 10, 10) := by decide +kernel

/-- Vectors O6, O7 and O8; and R176's order: RESULT is 0 while the answer is awaited. -/
theorem test_close :
    left (after .closeBus (answering { ready with replyValid := true } [wrote 0])) = (0x100, 0, 1) ∧
    left (after .closeBus (answering ready [.err])) = (0x002, 0, 1) ∧
    left (started .closeBus State.reset) = (0x000, 0, 0) ∧
    left (started .closeBus { ready with result := 7 }) = (0x200, 0, 1) := by decide +kernel

/-! ### Steps -/

/-- One transaction a step (R3): after one of OPEN's answers the second attempt is in progress. -/
theorem test_one_transaction_a_step :
    (stepped (started .openBus (answering State.reset [.err, wrote 0]))).running = some ⟨.openBus, 0, .opening 2⟩ := by
  decide

/-- Reset reaches a command between two of its transactions (R215), at the step after the `wait`. -/
theorem test_reset_between_transactions :
    left (ran 2 { started .openBus (answering State.reset [.err, wrote 0]) with inputs := [.wait, .reset] }) =
      (0x000, 0, 2) := by decide

/-! ### Host port -/

/-- Vectors H3 and H4: 0x110 and 251 are ignored, 250 is taken. -/
theorem test_mtu : stepped (access (.write32 0x1C 0x110)) = { State.reset with portLog := [.done] } ∧
    stepped (access (.write32 0x1C 251)) = { State.reset with portLog := [.done] } ∧
    stepped (access (.write32 0x1C 250)) = { State.reset with mtu := 250, portLog := [.done] } := by decide

/-- A placed word runs as the next step (here CLOSE on the closed bus of the reset machine). -/
theorem test_withFetchWord : stepped (State.reset.withFetchWord 32 0x9) =
    { State.reset with portLog := [.done] } := by decide

/-- The lines of R91: a SETADDR line builds ADDR-A, and a FRAME line writes ARG_B, then CMD. -/
theorem test_expandLine :
    expandLine (.setAddr 0x3A 0x21 0x09 0x08) = [.write32 0x20 0x0809213A] ∧
    expandLine (.frame 3) = [.write32 0x08 0x00000003, .write32 0x00 0x00000003] := by decide

/-! ### Messages -/

/-- Program P1's request: its MIC (vector K14) in its last four bytes, least significant first. -/
theorem test_miRequest : miRequest Config.mfe 0 0 0 [] =
    [0x84, 0x08, 0, 0, 0, 0, 0, 0, 0, 0, 0, 0, 0, 0, 0, 0, 0xE2, 0x00, 0x06, 0x07] := by decide +kernel

/-! ### Witnesses: for each statement with hypotheses, states and operands that meet them -/

/-- With nothing to come from the host no reset comes. -/
theorem noReset {n : Nat} {inputs : List Input} (h : inputs = []) : NoResetFor n inputs := by
  subst h
  cases n <;> trivial

/-- OPEN waits for the bus; `events` is what the bus does next. -/
def waiting (events : List BusEvent) : State :=
  { State.reset with running := some ⟨.openBus, 0, .opening 1⟩, bus := events }

/-- A machine with a message of `len` bytes in packets of at most `m`, and these answers to come. -/
def sending (m : Byte) (len : Half) (answers : List BusAnswer) : State :=
  answering { ready with mtu := m, argB := len } answers

/-- The packet of vector D2: no payload, EOM set, its PEC right. -/
def smallest : Delivery := ⟨⟨0x21, 0x0F, 0x05, 0x3B, 0x01, 0x08, 0x09, 0xC3⟩, [], 0xBD, (0, 0)⟩

/-- A packet without EOM and with `payload`, its PEC right. -/
def middle (payload : List Byte) : Delivery :=
  let h : Header := ⟨0x21, 0x0F, BitVec.ofNat 8 (payload.length + 5), 0x3B, 0x01, 0x08, 0x09, 0x83⟩
  ⟨h, payload, pecOf h payload, (0, 0)⟩

/-- The header of vector D3 (byte count 4) with another byte count. -/
def headerOf (byteCount : Byte) : Header := ⟨0x21, 0x0F, byteCount, 0x3B, 0x01, 0x08, 0x09, 0xC3⟩

/-- The machine with the bus open and these packets, and then these answers, to come. -/
def receiving (ds : List Delivery) (answers : List BusAnswer) : State := answering ready (answersOf ds ++ answers)

/-- The parameters of this hardware are legal. -/
theorem legal : Config.mfe.Legal := test_config_legal.1

theorem smallest_acceptable (m : Nat) (check : Bool) : smallest.Acceptable m check :=
  ⟨by decide, Nat.zero_le m, fun _ => by decide +kernel⟩

theorem middle_acceptable (payload : List Byte) (h : payload.length ≤ 64) {m : Nat} (hm : 64 ≤ m) (check : Bool) :
    (middle payload).Acceptable m check := by
  refine ⟨?_, le_trans h hm, fun _ => rfl⟩
  simp only [middle, BitVec.toNat_ofNat]
  omega

theorem mtu_ready : 64 ≤ ready.mtu.toNat := by decide

theorem continues_nil (s : State) : Continues s [] := ⟨by simp, Nat.zero_le _⟩

/-- Copies of the smallest packet without EOM, and then one more, leave a receive phase in its loop. -/
theorem continues_copies (n : Nat) (payload : List Byte) (h : payload.length ≤ 64)
    (hfit : (rawOf (List.replicate n (middle []) ++ [middle payload])).length ≤ 5120) (events : List BusEvent) :
    Continues { ready with bus := events } (List.replicate n (middle []) ++ [middle payload]) := by
  refine ⟨fun d hd => ?_, hfit⟩
  simp only [List.mem_append, List.mem_replicate, List.mem_singleton] at hd
  rcases hd with ⟨-, rfl⟩ | rfl
  · exact ⟨middle_acceptable [] (by simp) mtu_ready _, show (0x83 : Byte).getLsbD 6 = false by decide⟩
  · exact ⟨middle_acceptable payload h mtu_ready _, show (0x83 : Byte).getLsbD 6 = false by decide⟩

/-- The two packets of a message of two bytes at MTU 1, whatever the bus will do. -/
theorem two_packets (events : List BusEvent) :
    let packets := framePackets { sending 1 2 [] with bus := events }
    Acknowledge [wrote 10] (packets.take 1) ∧ packets.length = 2 ∧
    ∃ packet, packets[1]? = some packet ∧ packet.length = 10 := by
  rw [show framePackets { sending 1 2 [] with bus := events } = framePackets (sending 1 2 []) from rfl]
  exact ⟨.cons ⟨[], rfl⟩ .nil, rfl, _, rfl, rfl⟩

/-- The responses of D2, alone and after a packet that fills an MTU. -/
theorem response_smallest (events : List BusEvent) : Response { ready with bus := events } [] smallest ∧
    Response { ready with bus := events } [middle (List.replicate 64 0)] smallest :=
  ⟨⟨continues_nil _, smallest_acceptable _ _, rfl, show (rawOf ([] ++ [smallest])).length ≤ 5120 by decide⟩,
    continues_copies 0 (List.replicate 64 0) (by simp) (by decide +kernel) events, smallest_acceptable _ _, rfl,
    show (rawOf ([middle (List.replicate 64 0)] ++ [smallest])).length ≤ 5120 by decide +kernel⟩

/-- Every kind of host access can come to a machine that runs no command. -/
theorem access_idle (x : HostAccess) : (access x).running = none ∧ (access x).inputs = .host x :: [] := ⟨rfl, rfl⟩

/-- A command that waits for the bus, before any reset. -/
theorem waiting_runs (events : List BusEvent) : (waiting events).running = some ⟨.openBus, 0, .opening 1⟩ ∧
    ∀ rest, (waiting events).inputs ≠ .reset :: rest := ⟨rfl, by simp [waiting, State.reset, State.resetWith]⟩

/-- The illegal words of each condition at its ends, and the legal ones beside them. -/
theorem witness_IllegalWordEndsWithBadOp :
    (∀ w, (access (.write32 0x0000 w)).running = none ∧
      (access (.write32 0x0000 w)).inputs = .host (.write32 0x0000 w) :: []) ∧
    (0x00000000 : Word).extractLsb' 0 8 = 0x00 ∧ 0x0A ≤ ((0x0000000A : Word).extractLsb' 0 8).toNat ∧
    0x0A ≤ ((0x000000FF : Word).extractLsb' 0 8).toNat ∧ (0x00000401 : Word).extractLsb' 10 22 ≠ 0 ∧
    (0x80000001 : Word).extractLsb' 10 22 ≠ 0 ∧
    ((0x00000101 : Word).extractLsb' 0 8 ≠ 0x06 ∧ (0x00000101 : Word).getLsbD 8 = true) ∧
    ((0x00000209 : Word).extractLsb' 0 8 ≠ 0x06 ∧ (0x00000209 : Word).getLsbD 9 = true) ∧
    ([0x00000001, 0x00000009, 0x00000306] : List Word).all (fun w => decide (¬(
      (w.extractLsb' 0 8 = 0x00 ∨ 0x0A ≤ (w.extractLsb' 0 8).toNat) ∨ w.extractLsb' 10 22 ≠ 0 ∨
      (w.extractLsb' 0 8 ≠ 0x06 ∧ (w.getLsbD 8 = true ∨ w.getLsbD 9 = true))))) = true :=
  ⟨fun w => access_idle (.write32 0x0000 w), by decide⟩

theorem witness_StepRunsDecodedCommand :
    (access (.write32 0x0000 0x00000306)).running = none ∧
    (access (.write32 0x0000 0x00000306)).inputs = .host (.write32 0x0000 0x00000306) :: [] ∧
    decode 0x00000306 = .ok (.extract true true) := by decide

theorem witness_IdleMachineHoldsItsState : State.reset.running = none ∧ State.reset.inputs = [] ∧
    { State.reset with inputs := [.wait] }.inputs = .wait :: [] := by decide

/-- A running command that its step ends, and one that its step leaves waiting with a host access behind it. -/
theorem witness_PortBlockedWhileCommandRuns :
    ((waiting [.answer (wrote 0)]).running = some ⟨.openBus, 0, .opening 1⟩ ∧
      (∀ rest, (waiting [.answer (wrote 0)]).inputs ≠ .reset :: rest) ∧
      (stepped (waiting [.answer (wrote 0)])).running = none) ∧
    (let s : State := { waiting [] with inputs := [.host (.read32 0x0C)] }
     s.running = some ⟨.openBus, 0, .opening 1⟩ ∧ (∀ rest, s.inputs ≠ .reset :: rest) ∧
       s.inputs = .host (.read32 0x0C) :: [] ∧ (stepped s).running ≠ none) :=
  ⟨⟨(waiting_runs _).1, (waiting_runs _).2, by decide⟩, rfl, by simp, rfl, by decide⟩

/-- The bus never answers, and the platform waits for two of the steps. -/
theorem witness_UnansweredCommandWaitsForReset :
    let s : State := { waiting [] with inputs := [.wait, .wait, .reset] }
    s.running = some ⟨.openBus, 0, .opening 1⟩ ∧ s.bus = [] ∧ NoResetFor 2 s.inputs := ⟨rfl, rfl, trivial⟩

theorem inv_reset : Inv State.reset :=
  ⟨legal, List.Pairwise.nil, by simp [State.reset, State.resetWith], by decide,
    ⟨0, rfl, Nat.zero_le _, fun _ => rfl⟩, by simp [State.reset, State.resetWith],
    by simp [State.reset, State.resetWith]⟩

theorem inv_waiting (events : List BusEvent) : Inv (waiting events) := by
  refine ⟨legal, inv_reset.memory, inv_reset.mapped, inv_reset.mtu, inv_reset.counters, inv_reset.reply, fun r hr => ?_⟩
  cases hr
  exact ⟨.inl rfl, rfl, by decide, show 1 ≤ 10 by decide⟩

/-- Answers enough for every command, to a machine that starts one and to a machine that waits in one. -/
theorem witness_CommandCompletesWhenAnswered :
    let events : List BusEvent := List.replicate 6267 (.answer (wrote 0))
    AlwaysAnswers events ∧ enoughAnswers Config.mfe ≤ events.length ∧
    (let s : State := { State.reset with bus := events }
     Inv s ∧ s.bus = events ∧ s.config = Config.mfe ∧ NoResetFor (enoughAnswers s.config) s.inputs) ∧
    (Inv (waiting events) ∧ (waiting events).running = some ⟨.openBus, 0, .opening 1⟩ ∧ (waiting events).bus = events ∧
      NoResetFor (enoughAnswers (waiting events).config) (waiting events).inputs) := by
  refine ⟨fun e he => ?_, by rw [List.length_replicate]; decide,
    ⟨⟨legal, inv_reset.memory, inv_reset.mapped, inv_reset.mtu, inv_reset.counters, inv_reset.reply, inv_reset.phase⟩,
      rfl, rfl, noReset rfl⟩, inv_waiting _, rfl, rfl, noReset rfl⟩
  rw [List.eq_of_mem_replicate he]
  simp

/-- Reset comes to an idle machine, and to one that waits for the bus. -/
theorem witness_ResetEventSetsResetValues : { State.reset with inputs := [.reset] }.inputs = .reset :: [] ∧
    { waiting [] with inputs := [.reset] }.inputs = .reset :: [] ∧
    { waiting [] with inputs := [.reset] }.running.isSome = true := by decide

theorem witness_RegistersReadAfterReset :
    ((0x0C, 0x00000000) : Half × Word) ∈ ([(0x0C, 0x00000000), (0x1C, 0x00000040), (0x24, 0x00000005), (0x20, 0),
      (0x10, 0), (0x14, 0), (0x18, 0)] : List (Half × Word)) ∧ 0 < 5120 ∧ 5119 < 5120 := by decide

/-- Legal parameters: this hardware's, and others. -/
theorem witness_InvariantHoldsAtReset : Config.mfe.Legal ∧ wider.Legal := test_config_legal

/-- A machine that meets the invariant, and a step of it: to a legal MTU. -/
theorem witness_StepKeepsTheInvariant :
    Inv (access (.write32 0x1C 250)) ∧ ∃ t, step (access (.write32 0x1C 250)) = .next t ∧ t.mtu = 250 :=
  ⟨⟨legal, inv_reset.memory, inv_reset.mapped, inv_reset.mtu, inv_reset.counters, inv_reset.reply, inv_reset.phase⟩,
    _, rfl, by decide⟩

/-- Of the registers of each clause, one access each. -/
theorem witness_RegisterWritesKeepUsedBits (a : Half)
    (_ : a ∈ ([0x04, 0x08, 0x20, 0x24, 0x0C, 0x10, 0x14, 0x18] : List Half)) :
    (access (.write32 a 0xFFFFFFFF)).running = none ∧
    (access (.write32 a 0xFFFFFFFF)).inputs = .host (.write32 a 0xFFFFFFFF) :: [] := access_idle _

/-- The ends of the legal MTU range and the values beside them, a read, a command, and a command that waits. -/
theorem witness_MtuTakesLegalValuesOnly :
    (∀ v, (access (.write32 0x1C v)).running = none ∧
      (access (.write32 0x1C v)).inputs = .host (.write32 0x1C v) :: []) ∧
    (1 ≤ (1 : Word).toNat ∧ (1 : Word).toNat ≤ 250) ∧ (1 ≤ (250 : Word).toNat ∧ (250 : Word).toNat ≤ 250) ∧
    ¬(1 ≤ (0 : Word).toNat ∧ (0 : Word).toNat ≤ 250) ∧ ¬(1 ≤ (251 : Word).toNat ∧ (251 : Word).toNat ≤ 250) ∧
    ((access (.read32 0x1C)).running = none ∧ (access (.read32 0x1C)).inputs = .host (.read32 0x1C) :: []) ∧
    (∃ t, exec .closeBus State.reset = .next t) ∧
    (waiting []).running = some ⟨.openBus, 0, .opening 1⟩ ∧ (∀ rest, (waiting []).inputs ≠ .reset :: rest) ∧
    ∃ t, step (waiting []) = .next t :=
  ⟨fun v => access_idle (.write32 0x1C v), by decide, by decide, by decide, by decide, ⟨rfl, rfl⟩, ⟨_, rfl⟩,
    (waiting_runs _).1, (waiting_runs _).2, _, rfl⟩

theorem witness_RegisterReads (a : Half)
    (_ : a ∈ ([0x00, 0x04, 0x08, 0x0C, 0x10, 0x14, 0x18, 0x1C, 0x20, 0x24] : List Half)) :
    (access (.read32 a)).running = none ∧ (access (.read32 a)).inputs = .host (.read32 a) :: [] := access_idle _

/-- Addresses that are no register's, and the addresses just outside the three windows. -/
theorem witness_WrongAccessesAreErrors :
    (∀ x, (access x).running = none ∧ (access x).inputs = .host x :: [] ∧ (access x).config = Config.mfe) ∧
    ([0x02, 0x28, 0x2000, 0xFFFF] : List Half).all
      (fun a => decide (a ∉ ([0x00, 0x04, 0x08, 0x0C, 0x10, 0x14, 0x18, 0x1C, 0x20, 0x24] : List Half))) = true ∧
    ([0x0004, 0x1FFF, 0x3400, 0x3FFF, 0x5400, 0x5FFF, 0x7400, 0xFFFF] : List Half).all
      (fun a => decide (¬((0x2000 ≤ a.toNat ∧ a.toNat < 0x2000 + Config.mfe.msgCap) ∨
        (0x4000 ≤ a.toNat ∧ a.toNat < 0x4000 + Config.mfe.replyCap) ∨
        (0x6000 ≤ a.toNat ∧ a.toNat < 0x6000 + Config.mfe.outCap)))) = true :=
  ⟨fun _ => ⟨rfl, rfl, rfl⟩, by decide, by decide⟩

/-- The first and the last byte of MSGBUF. -/
theorem witness_MessageWindowWriteStoresOneByte (i : Nat) (h : i = 0 ∨ i = 5119) :
    let s := access (.write8 (BitVec.ofNat 16 (0x2000 + i)) 0x55)
    s.config.Legal ∧ i < s.config.msgCap ∧ s.running = none ∧
    s.inputs = .host (.write8 (BitVec.ofNat 16 (0x2000 + i)) 0x55) :: [] :=
  ⟨legal, show i < 5120 by omega, rfl, rfl⟩

/-- The first and the last byte of each buffer, read and written. -/
theorem witness_WindowReadsAndIgnoredWrites (sp : Space) (i : Nat) (h : i = 0 ∨ i = 5119) :
    (∀ x, (access x).config.Legal ∧ i < sp.cap (access x).config ∧ (access x).running = none) ∧
    (access (.read8 (BitVec.ofNat 16 (sp.base + i)))).inputs = .host (.read8 (BitVec.ofNat 16 (sp.base + i))) :: [] ∧
    (access (.write8 (BitVec.ofNat 16 (sp.base + i)) 0x55)).inputs =
      .host (.write8 (BitVec.ofNat 16 (sp.base + i)) 0x55) :: [] ∧ Space.reply ≠ Space.msg ∧ Space.out ≠ Space.msg :=
  ⟨fun _ => ⟨legal, by cases sp <;> exact show i < 5120 by omega, rfl⟩, rfl, rfl, by decide, by decide⟩

/-- The last byte of a buffer, and a whole buffer. -/
theorem witness_BufferReadsAndWrites (sp : Space) : State.reset.config.Legal ∧
    5119 + [(0x55 : Byte)].length ≤ sp.cap State.reset.config ∧
    0 + (List.replicate 5120 (0x55 : Byte)).length ≤ sp.cap State.reset.config ∧ State.reset.mem.wf := by
  refine ⟨legal, ?_, ?_, List.Pairwise.nil⟩
  · cases sp <;> decide
  · rw [List.length_replicate, Nat.zero_add]
    cases sp <;> decide

/-- A span that ends at MSG_CAP, and one that ends a byte beyond. -/
theorem witness_Crc8CommandResult :
    (digits 5111 9).argA.toNat + (digits 5111 9).argB.toNat ≤ (digits 5111 9).config.msgCap ∧
    (digits 5112 9).config.msgCap < (digits 5112 9).argA.toNat + (digits 5112 9).argB.toNat := by decide

/-- An empty span at MSG_CAP, and the largest sum. -/
theorem witness_Crc32CommandResult :
    (digits 5120 0).argA.toNat + (digits 5120 0).argB.toNat ≤ (digits 5120 0).config.msgCap ∧
    (digits 0xFFFF 0xFFFF).config.msgCap < (digits 0xFFFF 0xFFFF).argA.toNat + (digits 0xFFFF 0xFFFF).argB.toNat := by
  decide

theorem witness_Crc8IsLinear : ([0x01, 0xFF] : List Byte).length = ([0x80, 0x31] : List Byte).length := rfl

/-- Two bytes that differ in one bit. -/
theorem witness_Crc32DetectsOneChangedByte : (0x38 : Byte) ≠ 0x39 := by decide

theorem witness_PacketBytesFollowTheLayout : State.reset.config = Config.mfe := rfl

/-- Vectors F1, F5 and F6: no byte, a whole MTU, one byte more. -/
theorem witness_PayloadsPartitionTheMessage : 1 ≤ 64 ∧ 0 ≤ 64 ∧ 64 ≤ 64 ∧ 64 < 65 ∧ 0 + 1 < packetCount 65 64 ∧
    packetCount 0 64 = 1 := by decide

/-- A message of one packet, and one of two with a host access that waits behind the command. -/
theorem witness_FrameTransmitsTheMessage :
    (let s := sending 64 1 [wrote 10]
     s.argB.toNat ≤ s.config.msgCap ∧ s.busOpen = true ∧ 1 ≤ s.mtu.toNat ∧ s.bus = answered [wrote 10] [] ∧
       Acknowledge [wrote 10] (framePackets s) ∧ NoResetFor 1 s.inputs) ∧
    (let s : State := { sending 1 2 [wrote 10, wrote 10] with inputs := [.wait, .host (.read32 0x0C)] }
     s.argB.toNat ≤ s.config.msgCap ∧ s.busOpen = true ∧ 1 ≤ s.mtu.toNat ∧
       s.bus = answered [wrote 10, wrote 10] [] ∧ Acknowledge [wrote 10, wrote 10] (framePackets s) ∧
       NoResetFor 2 s.inputs) :=
  ⟨⟨by decide, rfl, by decide, rfl, .cons ⟨[], rfl⟩ .nil, noReset rfl⟩,
    by decide, rfl, by decide, rfl, .cons ⟨[], rfl⟩ (.cons ⟨[], rfl⟩ .nil), trivial⟩

/-- The second write fails: by `Err`, and by a count that is one short (vector F24). -/
theorem witness_FrameStopsAtAFailedWrite (a : BusAnswer) (h : a = .err ∨ a = .ok 9 []) :
    let s := sending 1 2 [wrote 10, a]
    s.argB.toNat ≤ s.config.msgCap ∧ s.busOpen = true ∧ 1 ≤ s.mtu.toNat ∧ s.bus = answered ([wrote 10] ++ [a]) [] ∧
    NoResetFor 2 s.inputs ∧ Acknowledge [wrote 10] ((framePackets s).take 1) ∧
    ∃ packet, (framePackets s)[1]? = some packet ∧ ∀ count unread, a = .ok count unread → count ≠ packet.length := by
  obtain ⟨hack, -, packet, hp, hl⟩ := two_packets (answered [wrote 10, a] [])
  refine ⟨show 2 ≤ 5120 by decide, rfl, show 1 ≤ 1 by decide, rfl, noReset rfl, hack, packet, hp, ?_⟩
  rintro count unread rfl
  rw [hl]
  rcases h with h | h <;> cases h
  decide

theorem witness_FrameRefusals :
    (sending 64 5121 []).config.msgCap < (sending 64 5121 []).argB.toNat ∧
    (let s : State := { sending 64 5120 [] with busOpen := false }
     s.argB.toNat ≤ s.config.msgCap ∧ s.busOpen = false) := by decide

/-- The first packet of two is answered, and then the bus is silent for a step, or for good. -/
theorem witness_FrameWaitsForEachAnswer (later : List BusEvent) :
    let s : State := { sending 1 2 [] with bus := answered [wrote 10] later }
    s.argB.toNat ≤ s.config.msgCap ∧ s.busOpen = true ∧ 1 ≤ s.mtu.toNat ∧ s.bus = answered [wrote 10] later ∧
    NoResetFor 1 s.inputs ∧ Acknowledge [wrote 10] ((framePackets s).take 1) ∧ 1 < (framePackets s).length :=
  ⟨show 2 ≤ 5120 by decide, rfl, show 1 ≤ 1 by decide, rfl, noReset rfl, (two_packets _).1,
    (two_packets _).2.1.symm ▸ Nat.lt_add_one 1⟩

theorem witness_DeframeReceivesAResponse (ds : List Delivery) (h : ds = [] ∨ ds = [middle (List.replicate 64 0)]) :
    let s := receiving (ds ++ [smallest]) []
    s.busOpen = true ∧ Response s ds smallest ∧ s.bus = answered (answersOf (ds ++ [smallest])) [] ∧
    NoResetFor (2 * (ds.length + 1)) s.inputs := by
  refine ⟨rfl, ?_, by rw [receiving, List.append_nil]; rfl, noReset rfl⟩
  rcases h with rfl | rfl
  · exact (response_smallest _).1
  · exact (response_smallest _).2

theorem witness_DeframeRefusedWhenNotOpen : State.reset.busOpen = false := rfl

/-- After one packet: a header read of seven bytes, and a body read that fails. -/
theorem witness_DeframeFailsOnAFailedRead :
    (let s := receiving [middle []] [sent (List.replicate 7 0)]
     s.busOpen = true ∧ Continues s [middle []] ∧ (rawOf [middle []]).length + 8 ≤ s.config.replyCap ∧
       s.bus = answered (answersOf [middle []] ++ [sent (List.replicate 7 0)]) [] ∧ NoResetFor 3 s.inputs ∧
       ∀ count t, sent (List.replicate 7 0) = .ok count t → t.length ≠ 8) ∧
    (let s := receiving [middle []] [sent (headerOf 69).toBytes, .err]
     s.busOpen = true ∧ Continues s [middle []] ∧ 5 ≤ (headerOf 69).byteCount.toNat ∧
       (headerOf 69).byteCount.toNat ≤ s.mtu.toNat + 5 ∧
       (rawOf [middle []]).length + (headerOf 69).byteCount.toNat + 4 ≤ s.config.replyCap ∧
       s.bus = answered (answersOf [middle []] ++ [.ok 0 (headerOf 69).toBytes, .err]) [] ∧ NoResetFor 4 s.inputs ∧
       ∀ count t, BusAnswer.err = .ok count t → t.length ≠ (headerOf 69).byteCount.toNat - 4) := by
  have hc := continues_copies 0 [] (by simp) (by decide +kernel)
  refine ⟨⟨rfl, hc _, by decide, rfl, noReset rfl, ?_⟩,
    rfl, hc _, by decide, by decide, by decide, rfl, noReset rfl, ?_⟩
  · rintro count t h
    cases h
    decide
  · rintro count t h
    cases h

/-- Vectors D3 and D4: byte counts 4 and MTU + 6. -/
theorem witness_DeframeChecksTheByteCount (byteCount : Byte) (h : byteCount = 4 ∨ byteCount = 70) :
    let s := receiving [] [sent (headerOf byteCount).toBytes]
    s.busOpen = true ∧ Continues s [] ∧ (rawOf []).length + 8 ≤ s.config.replyCap ∧
    s.bus = answered (answersOf [] ++ [.ok 0 (headerOf byteCount).toBytes]) [] ∧ NoResetFor 1 s.inputs ∧
    ((headerOf byteCount).byteCount.toNat < 5 ∨ s.mtu.toNat + 5 < (headerOf byteCount).byteCount.toNat) :=
  ⟨rfl, continues_nil _, show 0 + 8 ≤ 5120 by decide, rfl, noReset rfl,
    by rcases h with rfl | rfl
       · exact .inl (by decide)
       · exact .inr (by decide)⟩

/-- 5113 raw bytes, after which no header fits; and vector D8's 568 packets, after which a header fits and no body
does. -/
theorem witness_DeframeChecksTheCapacity :
    (∃ ds : List Delivery, let s := receiving ds []
      s.busOpen = true ∧ Continues s ds ∧ s.config.replyCap < (rawOf ds).length + 8 ∧
        s.bus = answered (answersOf ds) [] ∧ NoResetFor (2 * ds.length) s.inputs) ∧
    (∃ ds : List Delivery, let s := receiving ds [sent (headerOf 5).toBytes]
      s.busOpen = true ∧ Continues s ds ∧ (rawOf ds).length + 8 ≤ s.config.replyCap ∧
        5 ≤ (headerOf 5).byteCount.toNat ∧ (headerOf 5).byteCount.toNat ≤ s.mtu.toNat + 5 ∧
        s.config.replyCap < (rawOf ds).length + 8 + ((headerOf 5).byteCount.toNat - 4) ∧
        s.bus = answered (answersOf ds ++ [.ok 0 (headerOf 5).toBytes]) [] ∧
        NoResetFor (2 * ds.length + 1) s.inputs) := by
  have h1 : (rawOf (List.replicate 567 (middle []) ++ [middle [0]])).length = 5113 := by decide +kernel
  have h2 : (rawOf (List.replicate 567 (middle []) ++ [middle []])).length = 5112 := by decide +kernel
  have hc := fun payload h hfit => continues_copies 567 payload h hfit
  generalize List.replicate 567 (middle []) = ds at h1 h2 hc
  refine ⟨⟨_, rfl, hc [0] (by simp) (by omega) _, show 5120 < _ by omega, ?_, noReset rfl⟩,
    _, rfl, hc [] (by simp) (by omega) _, show _ ≤ 5120 by omega, by decide, show 5 ≤ 64 + 5 by decide,
    show 5120 < _ + 8 + (5 - 4) by omega, rfl, noReset rfl⟩
  rw [receiving, List.append_nil]
  rfl

/-- The packet of D2 with its PEC byte complemented, alone and after another packet. -/
theorem witness_DeframeChecksThePec (ds : List Delivery) (h : ds = [] ∨ ds = [middle []]) :
    let d : Delivery := { smallest with pec := 0x42 }
    let s := receiving (ds ++ [d]) []
    s.busOpen = true ∧ s.options.getLsbD 2 = true ∧ Continues s ds ∧
    d.header.byteCount.toNat = d.payload.length + 5 ∧ d.payload.length ≤ s.mtu.toNat ∧
    (rawOf (ds ++ [d])).length ≤ s.config.replyCap ∧ s.bus = answered (answersOf (ds ++ [d])) [] ∧
    NoResetFor (2 * ds.length + 2) s.inputs ∧
    d.pec ≠ crc8 ([d.header.version, d.header.dstEid, d.header.srcEid, d.header.control] ++ d.payload) := by
  rcases h with rfl | rfl
  · exact ⟨rfl, by decide, continues_nil _, by decide, by decide, by decide +kernel, rfl, noReset rfl,
      by decide +kernel⟩
  · exact ⟨rfl, by decide, continues_copies 0 [] (by simp) (by decide +kernel) _, by decide, by decide,
      by decide +kernel, rfl, noReset rfl, by decide +kernel⟩

/-- A message that fits REPLYBUF with its nine bytes a packet, and at MTU 1 the shortest that does not. -/
theorem witness_FramedMessageRoundTrips (len : Half) (h : len = 512 ∨ len = 513) :
    let s := sending 1 len []
    let t : State := answering { ready with mtu := 1 } ((framePackets s).flatMap echoOf)
    s.config.Legal ∧ t.config = s.config ∧ 1 ≤ s.mtu.toNat ∧ s.mtu.toNat ≤ 250 ∧ s.argB.toNat ≤ s.config.msgCap ∧
    t.mtu = s.mtu ∧ t.busOpen = true ∧ s.options.getLsbD 1 = false ∧
    t.bus = answered ((framePackets s).flatMap echoOf) [] ∧ NoResetFor (2 * (framePackets s).length) t.inputs ∧
    (if len = 512 then s.argB.toNat + 9 * (framePackets s).length ≤ s.config.replyCap
     else s.config.replyCap < s.argB.toNat + 9 * (framePackets s).length) := by
  have hl : (framePackets (sending 1 len [])).length = packetCount len.toNat 1 := by
    simp [framePackets, sendingOf, sending, answering]
  refine ⟨legal, rfl, show 1 ≤ 1 by decide, show 1 ≤ 250 by decide, ?_, rfl, rfl,
    show (0b101#3).getLsbD 1 = false by decide, rfl, noReset rfl, ?_⟩
  · rcases h with rfl | rfl <;> decide
  · rw [hl]
    rcases h with rfl | rfl <;> decide

/-- The other two ways to meet the condition on PEC_XOR_FIRST: set with two packets, or set with PEC_CHECK clear. -/
theorem witness_FramedMessageRoundTrips_masked :
    ((({ sending 1 2 [] with options := 0b111 } : State).options.getLsbD 1 = true ∧
      2 ≤ (framePackets { sending 1 2 [] with options := 0b111 }).length)) ∧
    ({ ready with options := 0b001 } : State).options.getLsbD 2 = false := by decide

/-- One byte more than OUTBUF, no reply, and a reply with the largest capacity. -/
theorem witness_ExtractCopiesTheLogicalResponse : (adminReply 5121).config.Legal ∧
    (adminReply 5121).config.outCap < (adminReply 5121).argB.toNat ∧
    ((sending 64 5120 []).argB.toNat ≤ (sending 64 5120 []).config.outCap ∧ (sending 64 5120 []).replyValid = false) ∧
    ((adminReply 5120).argB.toNat ≤ (adminReply 5120).config.outCap ∧ (adminReply 5120).replyValid = true) :=
  ⟨legal, by decide⟩

/-- A response whose first packet fills an MTU. -/
theorem witness_PositionsLieInTheReply :
    let ds := [middle (List.replicate 64 0)]
    let s := receiving (ds ++ [smallest]) []
    s.config.Legal ∧ s.busOpen = true ∧ Response s ds smallest ∧ s.bus = answered (answersOf (ds ++ [smallest])) [] ∧
    NoResetFor (2 * (ds.length + 1)) s.inputs ∧ (∀ d ∈ ds, d.payload.length = s.mtu.toNat) ∧
    0 < (messageOf (ds ++ [smallest])).length :=
  ⟨legal, rfl, (response_smallest _).2, rfl, noReset rfl, by decide, by decide⟩

theorem witness_DataOffsetInTheFirstPacket : 8 < 9 ∧ 20 < 21 := by decide

theorem witness_PeekCopiesRawBytes : (adminReply 5113).config.Legal ∧
    (adminReply 5113).config.replyCap < 8 + (adminReply 5113).argB.toNat ∧
    (8 + (sending 64 5112 []).argB.toNat ≤ (sending 64 5112 []).config.replyCap ∧
      (sending 64 5112 []).replyValid = false) ∧
    (8 + (adminReply 5112).argB.toNat ≤ (adminReply 5112).config.replyCap ∧ (adminReply 5112).replyValid = true) :=
  ⟨legal, by decide⟩

/-- The one packet of vector X6, an MI-Admin response with eight data bytes, as the bus delivers it. -/
def adminDelivery : Delivery :=
  ⟨headerOf 0x25, [0x84, 0x90, 0, 0] ++ [0, 0, 0, 0] ++ [1, 0, 0, 0, 0, 0, 0, 0, 0, 0, 0, 0] ++
    [0x11, 0x22, 0x33, 0x44, 0x55, 0x66, 0x77, 0x88] ++ [0x0B, 0x57, 0xE7, 0x51], 0x8D, (0, 0)⟩

theorem witness_ResponseDataReachesOutbuf :
    let s : State := { receiving [adminDelivery] [] with argB := 8 }
    s.config.Legal ∧ s.busOpen = true ∧ 1 ≤ s.mtu.toNat ∧ s.argB.toNat ≤ s.config.outCap ∧
    Response s [] adminDelivery ∧ (∀ d ∈ ([] : List Delivery), d.payload.length = s.mtu.toNat) ∧
    messageOf ([] ++ [adminDelivery]) = [0x84, 0x90, 0, 0] ++ [0, 0, 0, 0] ++ [1, 0, 0, 0, 0, 0, 0, 0, 0, 0, 0, 0] ++
      [0x11, 0x22, 0x33, 0x44, 0x55, 0x66, 0x77, 0x88] ++ [0x0B, 0x57, 0xE7, 0x51] ∧
    s.bus = answered (answersOf ([] ++ [adminDelivery])) [] ∧ NoResetFor 2 s.inputs :=
  ⟨legal, rfl, by decide, by decide,
    ⟨continues_nil _, ⟨by decide, by decide, fun _ => by decide +kernel⟩, by decide, by decide +kernel⟩, by simp,
    by decide, rfl, noReset rfl⟩

/-- The bus opens at the tenth attempt. -/
def tenthAttempt : List BusAnswer := List.replicate 9 .err ++ [.ok 0 []]

/-- The machine right after reset opens the bus by them. -/
theorem opens_tenthAttempt (events : List BusEvent) : OpensBus { State.reset with bus := events } tenthAttempt :=
  ⟨9, 0, [], show 9 < 10 by decide, rfl⟩

theorem witness_OpenRetriesUntilOk :
    (OpensBus ready [] ∧ ready.bus = answered [] [] ∧ NoResetFor 0 ready.inputs) ∧
    (let s := answering State.reset tenthAttempt
     OpensBus s tenthAttempt ∧ s.bus = answered tenthAttempt [] ∧ NoResetFor tenthAttempt.length s.inputs) :=
  ⟨⟨rfl, rfl, trivial⟩, opens_tenthAttempt _, rfl, noReset rfl⟩

theorem witness_OpenFailsAfterItsAttempts :
    let s : State := { State.reset with bus := List.replicate 10 (.answer .err) }
    s.busOpen = false ∧ s.bus = List.replicate s.config.openAttempts (.answer .err) ++ [] ∧
    NoResetFor s.config.openAttempts s.inputs := ⟨rfl, rfl, noReset rfl⟩

theorem witness_CloseClearsBusOpen : State.reset.busOpen = false ∧ (answering ready [.err]).busOpen = true ∧
    (answering ready [.err]).bus = .answer .err :: [] ∧ NoResetFor 1 (answering ready [.err]).inputs :=
  ⟨rfl, rfl, rfl, trivial⟩

/-- The bus opens at the tenth attempt, takes one packet and answers with the packet of D2. -/
theorem witness_ExecuteRunsAnExchange :
    let s := answering { State.reset with argB := 1 } (tenthAttempt ++ [wrote 10] ++ answersOf [smallest])
    s.argB.toNat ≤ s.config.msgCap ∧ 1 ≤ s.mtu.toNat ∧ OpensBus s tenthAttempt ∧
    Acknowledge [wrote 10] (framePackets s) ∧ Response s [] smallest ∧
    s.bus = answered (tenthAttempt ++ [wrote 10] ++ answersOf ([] ++ [smallest])) [] ∧
    NoResetFor (tenthAttempt.length + 1 + 2 * (0 + 1)) s.inputs :=
  ⟨by decide, by decide, ⟨9, 0, [], by decide, rfl⟩, .cons ⟨[], rfl⟩ .nil,
    ⟨continues_nil _, smallest_acceptable _ _, rfl, by decide⟩, rfl, noReset rfl⟩

theorem witness_ExecuteRefusals :
    (sending 64 5121 []).config.msgCap < (sending 64 5121 []).argB.toNat ∧
    (let s := answering { State.reset with argB := 5120 } (List.replicate 10 .err)
     s.argB.toNat ≤ s.config.msgCap ∧ s.busOpen = false ∧
       s.bus = List.replicate s.config.openAttempts (.answer .err) ++ [] ∧
       NoResetFor s.config.openAttempts s.inputs) :=
  ⟨by decide, by decide, rfl, rfl, noReset rfl⟩

/-- The bus is open, takes the first of two packets, and reports the second one byte short. -/
theorem witness_ExecuteStopsAtAFailedWrite :
    let s := sending 1 2 [wrote 10, wrote 9]
    s.argB.toNat ≤ s.config.msgCap ∧ 1 ≤ s.mtu.toNat ∧ OpensBus s [] ∧
    s.bus = answered ([] ++ [wrote 10] ++ [wrote 9]) [] ∧ NoResetFor (0 + 1 + 1) s.inputs ∧
    Acknowledge [wrote 10] ((framePackets s).take 1) ∧
    ∃ packet, (framePackets s)[1]? = some packet ∧
      ∀ count unread, wrote 9 = .ok count unread → count ≠ packet.length := by
  refine ⟨by decide, by decide, rfl, rfl, trivial, .cons ⟨[], rfl⟩ .nil, _, rfl, ?_⟩
  rintro count unread h
  cases h
  show 9 ≠ 10
  decide

/-- OPEN, FRAME and DEFRAME from a closed bus: to a whole reply, and to a reception that ends at its first header
(vector D3). -/
theorem witness_ExecuteIsFrameThenDeframe (reads : List BusAnswer)
    (h : reads = answersOf [smallest] ∨ reads = [sent (headerOf 4).toBytes]) :
    let s := answering State.reset ([wrote 0, wrote 9] ++ reads)
    ∃ o t u o' t' u', s.inputs = [] ∧ exec .openBus s = .next o' ∧ Host.Core.run Sys2Proof.core 1 o' = .next o ∧
      o.running = none ∧ o.err = .ok ∧ exec .frame o = .next t' ∧ Host.Core.run Sys2Proof.core 1 t' = .next t ∧
      t.running = none ∧ t.err = .ok ∧ exec .deframe t = .next u' ∧
      Host.Core.run Sys2Proof.core reads.length u' = .next u ∧ u.running = none := by
  rcases h with rfl | rfl
  · exact ⟨_, _, _, _, _, _, rfl, rfl, rfl, rfl, rfl, rfl, rfl, rfl, rfl, rfl, rfl, by decide +kernel⟩
  · exact ⟨_, _, _, _, _, _, rfl, rfl, rfl, rfl, rfl, rfl, rfl, rfl, rfl, rfl, rfl, by decide +kernel⟩

/-- At each wait: before the first and the last attempt, the second write, a header and a body after one packet;
and a step in which the bus is silent, or gone for good. -/
theorem witness_CommandsWaitForTheBus :
    (∀ n, n = 0 ∨ n = 9 →
      let s := answering { State.reset with argB := 5120 } (List.replicate n .err)
      s.argB.toNat ≤ s.config.msgCap ∧ s.busOpen = false ∧ n < s.config.openAttempts ∧
        s.bus = List.replicate n (.answer .err) ++ [] ∧ NoResetFor n s.inputs) ∧
    (let s := sending 1 2 [wrote 10]
     s.argB.toNat ≤ s.config.msgCap ∧ 1 ≤ s.mtu.toNat ∧ OpensBus s [] ∧
       Acknowledge [wrote 10] ((framePackets s).take 1) ∧ 1 < (framePackets s).length ∧
       s.bus = answered ([] ++ [wrote 10]) [] ∧ NoResetFor (0 + 1) s.inputs) ∧
    (let s := receiving [middle []] [sent (headerOf 69).toBytes]
     s.mem.wf ∧ s.busOpen = true ∧ Continues s [middle []] ∧ (rawOf [middle []]).length + 8 ≤ s.config.replyCap ∧
       s.bus = answered (answersOf [middle []]) [.answer (sent (headerOf 69).toBytes)] ∧
       5 ≤ (headerOf 69).byteCount.toNat ∧ (headerOf 69).byteCount.toNat ≤ s.mtu.toNat + 5 ∧
       (rawOf [middle []]).length + (headerOf 69).byteCount.toNat + 4 ≤ s.config.replyCap ∧
       s.bus = answered (answersOf [middle []] ++ [.ok 0 (headerOf 69).toBytes]) [] ∧
       NoResetFor (2 * 1 + 1) s.inputs) ∧
    (let s := sending 64 1 ([wrote 10] ++ answersOf [middle []] ++ [sent (headerOf 69).toBytes])
     s.mem.wf ∧ s.argB.toNat ≤ s.config.msgCap ∧ 1 ≤ s.mtu.toNat ∧ OpensBus s [] ∧
       Acknowledge [wrote 10] (framePackets s) ∧ Continues s [middle []] ∧
       s.bus = answered ([] ++ [wrote 10] ++ answersOf [middle []] ++ [.ok 0 (headerOf 69).toBytes]) [] ∧
       NoResetFor (1 + 2 * 1 + 1) s.inputs) ∧
    ((∀ events, (waiting events).running = some ⟨.openBus, 0, .opening 1⟩ ∧
        ∀ rest, (waiting events).inputs ≠ .reset :: rest) ∧
      (waiting []).bus = [] ∧ (waiting [.silent]).bus = .silent :: []) := by
  refine ⟨fun n hn => ?_, ⟨by decide, by decide, rfl, .cons ⟨[], rfl⟩ .nil, by decide, rfl, noReset rfl⟩,
    ⟨List.Pairwise.nil, rfl, continues_copies 0 [] (by simp) (by decide +kernel) _, by decide, rfl, by decide, by decide,
      by decide, rfl, noReset rfl⟩,
    ⟨List.Pairwise.nil, by decide, by decide, rfl, .cons ⟨[], rfl⟩ .nil,
      continues_copies 0 [] (by simp) (by decide +kernel) [], rfl, noReset rfl⟩, waiting_runs, rfl, rfl⟩
  rcases hn with rfl | rfl <;> exact ⟨by decide, rfl, by decide, rfl, noReset rfl⟩

/-- OPEN, one of whose answers comes after a silent step. -/
theorem witness_SilenceOnlyDelays :
    let s := waiting [.silent, .answer (wrote 0)]
    .wait ∉ s.inputs ∧ ∃ t, Host.Core.run Sys2Proof.core 1 { s with bus := answersOnly s.bus } = .next t :=
  ⟨by decide, _, rfl⟩

/-- A command at its start, and as it goes on. -/
theorem witness_ConfigurationIsTheHosts : State.reset.config.Legal ∧ (∃ t, exec .execute State.reset = .next t) ∧
    (waiting [.answer (wrote 0)]).config.Legal ∧
    (waiting [.answer (wrote 0)]).running = some ⟨.openBus, 0, .opening 1⟩ ∧
    (∀ rest, (waiting [.answer (wrote 0)]).inputs ≠ .reset :: rest) ∧
    ∃ t, step (waiting [.answer (wrote 0)]) = .next t :=
  ⟨legal, ⟨_, rfl⟩, legal, (waiting_runs _).1, (waiting_runs _).2, _, rfl⟩

theorem witness_OnlyTheirCommandsWrite : ready.config.Legal ∧ (∃ t, exec .crc8 ready = .next t) ∧
    (∃ t, exec .frame ready = .next t) ∧ (∃ t, exec .peek ready = .next t) ∧
    Inv (waiting [.answer (wrote 0)]) ∧ (waiting [.answer (wrote 0)]).running = some ⟨.openBus, 0, .opening 1⟩ ∧
    (∀ rest, (waiting [.answer (wrote 0)]).inputs ≠ .reset :: rest) ∧
    ∃ t, step (waiting [.answer (wrote 0)]) = .next t :=
  ⟨legal, ⟨_, rfl⟩, ⟨_, rfl⟩, ⟨_, rfl⟩, inv_waiting _, (waiting_runs _).1, (waiting_runs _).2, _, rfl⟩

/-- A command other than EXTRACT, an EXTRACT that fails, and a command that goes on to its end. -/
theorem witness_ShortOnlyAfterExtract :
    (∃ t, exec .closeBus State.reset = .next t ∧ t.running = none) ∧
    (∃ t, exec (.extract false false) State.reset = .next t ∧ t.running = none ∧ t.err ≠ .ok) ∧
    ((waiting [.answer (wrote 0)]).running = some ⟨.openBus, 0, .opening 1⟩ ∧
      ∃ t, step (waiting [.answer (wrote 0)]) = .next t ∧ t.running = none) :=
  ⟨⟨_, rfl, by decide⟩, ⟨_, rfl, by decide, by decide⟩, rfl, _, rfl, by decide⟩

end Sys2Proof.Machine.Tests
end

section
/-! PROOFS. What a command's start and each answer of the bus can do: they update the command's own state,
then end the command, or issue the one transaction it then awaits. -/

namespace Sys2Proof.Machine

open Sys2Proof

/-! ### Every command starts -/

/-- The state a command's start leaves: its checks, and its first transaction or its end. -/
def commandStart : Instr → State → State
  | .crc8, s => checksumCommand (fun bytes => (crc8 bytes).zeroExtend 32) s
  | .crc32, s => checksumCommand (crc32 s.config) s
  | .frame, s => frameCommand s
  | .deframe, s => deframeCommand s
  | .execute, s => executeCommand s
  | .extract adm dstp, s => extractCommand adm dstp s
  | .peek, s => peekCommand s
  | .openBus, s => openCommand s
  | .closeBus, s => closeCommand s

theorem exec_eq (i : Instr) (s : State) : exec i s = .next (commandStart i s) := by
  cases i <;> rfl

/-! ### What is the host's stays as it is -/

/-- From `s` to `t` nothing of the host's configuration changed (R8, R22, R23, R26 to R28, R55), nothing of what
host and bus will do, and nothing of what they have been shown. -/
structure Keeps (s t : State) : Prop where
  config : t.config = s.config
  argA : t.argA = s.argA
  argB : t.argB = s.argB
  mtu : t.mtu = s.mtu
  addr : t.addr = s.addr
  options : t.options = s.options
  message : s.config.Legal → ∀ i, readByte t .msg i = readByte s .msg i
  inputs : t.inputs = s.inputs
  bus : t.bus = s.bus
  busLog : t.busLog = s.busLog
  portLog : t.portLog = s.portLog

theorem Keeps.refl (s : State) : Keeps s s :=
  ⟨rfl, rfl, rfl, rfl, rfl, rfl, fun _ _ => rfl, rfl, rfl, rfl, rfl⟩

/-- The registers a command writes on its way. -/
theorem Keeps.registers {s u : State} (h : Keeps s u) (valid isOpen : Bool) (result : Word) (received raw : Half) :
    Keeps s { u with replyValid := valid, busOpen := isOpen, result := result, rxLen := received, rawLen := raw } :=
  ⟨h.config, h.argA, h.argB, h.mtu, h.addr, h.options, h.message, h.inputs, h.bus, h.busLog, h.portLog⟩

/-- MSGBUF's window is the lowest: a write to another buffer, wherever in it, leaves MSGBUF alone. -/
theorem readByte_msg_memWrite {s : State} (hc : s.config.Legal) {sp : Space} (hsp : sp ≠ .msg) (a : Nat)
    (bs : List Byte) (i : Nat) : readByte (memWrite sp a bs s) .msg i = readByte s .msg i := by
  by_cases hi : i < s.config.msgCap
  · refine readByte_memWrite_outside s sp .msg (.inl ?_)
    have hcap : s.config.msgCap ≤ 8192 := cap_le hc .msg
    cases sp
    · exact absurd rfl hsp
    · rw [base_msg, base_reply]; omega
    · rw [base_msg, base_out]; omega
  · have hi : ¬i < Space.msg.cap s.config := hi
    simp only [readByte, memWrite_config, drawOf_memWrite, if_neg hi]

theorem Keeps.memWrite {s u : State} (h : Keeps s u) {sp : Space} (hsp : sp ≠ .msg) (a : Nat) (bs : List Byte) :
    Keeps s (memWrite sp a bs u) :=
  ⟨h.config, h.argA, h.argB, h.mtu, h.addr, h.options,
    fun hc i => (readByte_msg_memWrite (h.config ▸ hc) hsp a bs i).trans (h.message hc i),
    h.inputs, h.bus, h.busLog, h.portLog⟩

theorem Keeps.havoc_reply {s u : State} (h : Keeps s u) : Keeps s (havoc .reply u) :=
  ⟨h.config, h.argA, h.argB, h.mtu, h.addr, h.options,
    fun hc i => (readByte_havoc_other (sp := .reply) (sp' := .msg) (h.config ▸ hc) nofun i).trans (h.message hc i),
    h.inputs, h.bus, h.busLog, h.portLog⟩

/-! ### A command ends or goes on -/

/-- What a command's start, or one answer to it, leaves: after updates that keep what is the host's the command
is over, or it has issued the one transaction that it then awaits (R13, R35). -/
inductive Advances (s : State) : State → Prop
  | ends {u : State} (h : Keeps s u) (code : StatusCode) (short : Bool) (result : Word) :
      Advances s (finish code short result u)
  | issues {u : State} (h : Keeps s u) (r : Running) : Advances s (issue (awaited u r.phase) r u)

section
variable {s u : State}

theorem receiveFailed_advances (h : Keeps s u) (command : BusCommand) (sent : Nat) (r : Receiving)
    (code : StatusCode) : Advances s (receiveFailed command sent r code u) :=
  .ends h.havoc_reply _ _ _

theorem awaitPacket_advances (h : Keeps s u) (command : BusCommand) (sent : Nat) (r : Receiving) :
    Advances s (awaitPacket command sent r u) := by
  unfold awaitPacket
  split
  · exact receiveFailed_advances h ..
  · exact .issues h ⟨command, sent, .awaitHeader r⟩

theorem startReceive_advances (h : Keeps s u) (command : BusCommand) (sent : Nat) :
    Advances s (startReceive command sent u) :=
  awaitPacket_advances (h.registers u.replyValid u.busOpen u.result 0 0) ..

theorem headerAnswered_advances (h : Keeps s u) (command : BusCommand) (sent : Nat) (r : Receiving)
    (a : BusAnswer) : Advances s (headerAnswered command sent r a u) := by
  match a with
  | .err => exact receiveFailed_advances h ..
  | .ok _ t =>
    unfold headerAnswered
    dsimp only
    split
    · exact receiveFailed_advances h ..
    · next hd _ =>
      have hw := h.memWrite (sp := .reply) nofun r.raw t
      split
      · exact receiveFailed_advances hw ..
      split
      · exact receiveFailed_advances hw ..
      · exact .issues hw ⟨command, sent, .awaitBody r hd⟩

theorem bodyAnswered_advances (h : Keeps s u) (command : BusCommand) (sent : Nat) (r : Receiving) (hd : Header)
    (a : BusAnswer) : Advances s (bodyAnswered command sent r hd a u) := by
  match a with
  | .err => exact receiveFailed_advances h ..
  | .ok _ t =>
    unfold bodyAnswered
    dsimp only
    have hw := h.memWrite (sp := .reply) nofun (r.raw + 8) t
    split
    · exact receiveFailed_advances h ..
    split
    · exact receiveFailed_advances hw ..
    split
    · exact .ends (hw.registers true u.busOpen u.result _ _) ..
    · exact awaitPacket_advances (hw.registers u.replyValid u.busOpen u.result _ _) ..

theorem sendPacket_advances (h : Keeps s u) (command : BusCommand) (f : Sending) :
    Advances s (sendPacket command f u) :=
  .issues h ⟨command, 0, .sending f⟩

theorem sendFailed_advances (h : Keeps s u) (command : BusCommand) (sent : Nat) :
    Advances s (sendFailed command sent u) := by
  unfold sendFailed
  split
  · exact .ends h.havoc_reply ..
  · exact .ends h ..

theorem allSent_advances (h : Keeps s u) (command : BusCommand) (sent : Nat) :
    Advances s (allSent command sent u) := by
  unfold allSent
  split
  · exact startReceive_advances h ..
  · exact .ends h ..

theorem writeAnswered_advances (h : Keeps s u) (command : BusCommand) (f : Sending) (a : BusAnswer) :
    Advances s (writeAnswered command f a u) := by
  match a with
  | .err => exact sendFailed_advances h ..
  | .ok _ _ =>
    unfold writeAnswered
    dsimp only
    split
    · exact sendFailed_advances h ..
    split
    · exact sendPacket_advances h ..
    · exact allSent_advances h ..

theorem opened_advances (h : Keeps s u) (command : BusCommand) (attempts : Nat) :
    Advances s (opened command attempts u) := by
  unfold opened
  split
  · exact sendPacket_advances (h.registers false u.busOpen u.result u.rxLen u.rawLen) ..
  · exact .ends h ..

theorem tryOpen_advances (h : Keeps s u) (command : BusCommand) (attempt : Nat) :
    Advances s (tryOpen command attempt u) := by
  unfold tryOpen openFailed
  split
  · exact .issues h ⟨command, 0, .opening attempt⟩
  split <;> exact .ends h ..

theorem startOpen_advances (h : Keeps s u) (command : BusCommand) : Advances s (startOpen command u) := by
  unfold startOpen
  split
  · exact opened_advances h ..
  · exact tryOpen_advances h ..

theorem openAnswered_advances (h : Keeps s u) (command : BusCommand) (attempt : Nat) (a : BusAnswer) :
    Advances s (openAnswered command attempt a u) := by
  match a with
  | .err => exact tryOpen_advances h ..
  | .ok _ _ => exact opened_advances (h.registers u.replyValid true u.result u.rxLen u.rawLen) ..

theorem closeAnswered_advances (h : Keeps s u) (a : BusAnswer) : Advances s (closeAnswered a u) := by
  have hc := h.registers u.replyValid false u.result u.rxLen u.rawLen
  match a with
  | .err => exact .ends hc ..
  | .ok _ _ => exact .ends hc ..

end

/-- One answer of the bus ends the command or has it issue its next transaction (R3, R13). -/
theorem takeAnswer_advances (r : Running) (a : BusAnswer) (s : State) : Advances s (takeAnswer r a s) := by
  have h := Keeps.refl s
  unfold takeAnswer
  split
  · exact openAnswered_advances h ..
  · exact writeAnswered_advances h ..
  · exact headerAnswered_advances h ..
  · exact bodyAnswered_advances h ..
  · exact closeAnswered_advances h ..

theorem checksumCommand_advances (f : List Byte → Word) (s : State) : Advances s (checksumCommand f s) := by
  unfold checksumCommand
  split <;> exact .ends (.refl s) ..

theorem extractCommand_advances (adm dstp : Bool) (s : State) : Advances s (extractCommand adm dstp s) := by
  have h := Keeps.refl s
  unfold extractCommand
  split
  · exact .ends h ..
  split
  · exact .ends h ..
  split
  · exact .ends h ..
  · exact .ends (h.memWrite (sp := .out) nofun ..) ..

theorem peekCommand_advances (s : State) : Advances s (peekCommand s) := by
  have h := Keeps.refl s
  unfold peekCommand
  split
  · exact .ends h ..
  split
  · exact .ends h ..
  · exact .ends (h.memWrite (sp := .out) nofun ..) ..

theorem frameCommand_advances (s : State) : Advances s (frameCommand s) := by
  have h := Keeps.refl s
  unfold frameCommand
  split
  · exact .ends h ..
  split
  · exact .ends h ..
  · exact sendPacket_advances (h.registers false s.busOpen s.result s.rxLen s.rawLen) ..

theorem deframeCommand_advances (s : State) : Advances s (deframeCommand s) := by
  have h := Keeps.refl s
  unfold deframeCommand
  split
  · exact .ends h ..
  · exact startReceive_advances (h.registers false s.busOpen s.result s.rxLen s.rawLen) ..

theorem executeCommand_advances (s : State) : Advances s (executeCommand s) := by
  unfold executeCommand
  split
  · exact .ends (.refl s) ..
  · exact startOpen_advances (.refl s) ..

theorem closeCommand_advances (s : State) : Advances s (closeCommand s) := by
  have h := Keeps.refl s
  unfold closeCommand
  split
  · exact .ends h ..
  · exact .issues (h.registers s.replyValid s.busOpen 0 s.rxLen s.rawLen) ⟨.closeBus, 0, .closing⟩

/-- The start of a command ends it or has it issue its first transaction. -/
theorem commandStart_advances (i : Instr) (s : State) : Advances s (commandStart i s) := by
  cases i with
  | crc8 => exact checksumCommand_advances (fun bytes => (crc8 bytes).zeroExtend 32) s
  | crc32 => exact checksumCommand_advances (crc32 s.config) s
  | frame => exact frameCommand_advances s
  | deframe => exact deframeCommand_advances s
  | execute => exact executeCommand_advances s
  | extract adm dstp => exact extractCommand_advances adm dstp s
  | peek => exact peekCommand_advances s
  | openBus => exact startOpen_advances (.refl s) .openBus
  | closeBus => exact closeCommand_advances s

namespace Advances

variable {s t : State}

theorem inputs (h : Advances s t) : t.inputs = s.inputs := by
  cases h with
  | ends h => exact h.inputs
  | issues h => exact h.inputs

theorem bus (h : Advances s t) : t.bus = s.bus := by
  cases h with
  | ends h => exact h.bus
  | issues h => exact h.bus

theorem config (h : Advances s t) : t.config = s.config := by
  cases h with
  | ends h => exact h.config
  | issues h => exact h.config

/-- A command that is over has its CMD write answered and no further transaction issued (R21). -/
theorem of_over (h : Advances s t) (ht : t.running = none) :
    t.portLog = s.portLog ++ [.done] ∧ t.busLog = s.busLog := by
  cases h with
  | ends h => exact ⟨by rw [finish_portLog, h.portLog], h.busLog⟩
  | issues h r => cases ht

/-- A command that goes on has issued the transaction it awaits, and its CMD write is not answered yet (R50). -/
theorem of_running (h : Advances s t) {r : Running} (ht : t.running = some r) :
    t.portLog = s.portLog ∧ t.busLog = s.busLog ++ [awaited t r.phase] := by
  cases h with
  | ends h => cases ht
  | issues h r' =>
    cases ht
    refine ⟨h.portLog, congrArg₂ (· ++ [·]) h.busLog ?_⟩
    cases r.phase <;> rfl

/-- The state but for the command's progress and the account of it is that of an update that keeps the host's. -/
theorem host (h : Advances s t) :
    t.config = s.config ∧ t.argA = s.argA ∧ t.argB = s.argB ∧ t.mtu = s.mtu ∧ t.addr = s.addr ∧
    t.options = s.options ∧ (s.config.Legal → ∀ i, readByte t .msg i = readByte s .msg i) := by
  cases h with
  | ends h => exact ⟨h.config, h.argA, h.argB, h.mtu, h.addr, h.options, h.message⟩
  | issues h => exact ⟨h.config, h.argA, h.argB, h.mtu, h.addr, h.options, h.message⟩

end Advances

end Sys2Proof.Machine
end


section
/-! PROOFS. The statements that follow from what a command's step can do: the blocked port (R5, R50) and the host's
configuration (R8, R22 to R28); and the reads and writes of the buffers (R12). -/

namespace Sys2Proof.Machine

open Sys2Proof

/-! ### The steps of a running command, without a reset -/

section
variable {s : State} {r : Running} {rest : List BusEvent}

/-- The bus does nothing any more (R226). -/
theorem step_unanswered (hr : s.running = some r) (hin : ∀ rest, s.inputs ≠ .reset :: rest) (hb : s.bus = []) :
    step s = .next { s with inputs := inputsAfter 1 s.inputs } :=
  (step_running hr hin).trans (congrArg _ (tick_unanswered hb))

/-- The bus is silent (R226). -/
theorem step_silent (hr : s.running = some r) (hin : ∀ rest, s.inputs ≠ .reset :: rest)
    (hb : s.bus = .silent :: rest) : step s = .next (s.facing (inputsAfter 1 s.inputs) rest) :=
  (step_running hr hin).trans (congrArg _ (tick_silent (s := s.facing (inputsAfter 1 s.inputs) s.bus) hr hb))

/-- The bus answers (R3, R13). -/
theorem step_answer {a : BusAnswer} (hr : s.running = some r) (hin : ∀ rest, s.inputs ≠ .reset :: rest)
    (hb : s.bus = .answer a :: rest) :
    step s = .next (takeAnswer r a (s.facing (inputsAfter 1 s.inputs) rest)) :=
  (step_running hr hin).trans (congrArg _ (tick_answer (s := s.facing (inputsAfter 1 s.inputs) s.bus) hr hb))

/-- A step of a running command: time passes, or the bus gives one answer. -/
theorem step_running_cases (hr : s.running = some r) (hin : ∀ rest, s.inputs ≠ .reset :: rest) :
    (∃ rest, step s = .next (s.facing (inputsAfter 1 s.inputs) rest)) ∨
    ∃ a rest, step s = .next (takeAnswer r a (s.facing (inputsAfter 1 s.inputs) rest)) := by
  match hb : s.bus with
  | [] => exact .inl ⟨s.bus, step_unanswered hr hin hb⟩
  | .silent :: rest => exact .inl ⟨rest, step_silent hr hin hb⟩
  | .answer a :: rest => exact .inr ⟨a, rest, step_answer hr hin hb⟩

end

/-! ### The port and the host's configuration -/

/-- Settles O8: a step without an answer keeps the command running, and an answer advances it. -/
theorem portBlockedWhileCommandRuns : Obligations.PortBlockedWhileCommandRuns := by
  intro s r hr hin
  have hhost (t : State) (ht : t.inputs = inputsAfter 1 s.inputs) :
      ∀ x rest, s.inputs = .host x :: rest → t.inputs = s.inputs := by
    intro x rest hx
    rw [ht, hx]
    rfl
  rcases step_running_cases hr hin with ⟨rest, h⟩ | ⟨a, rest, h⟩
  · refine ⟨_, h, hhost _ rfl, rfl, fun hn => ?_, fun _ => rfl⟩
    cases hr.symm.trans hn
  · have hadv := takeAnswer_advances r a (s.facing (inputsAfter 1 s.inputs) rest)
    refine ⟨_, h, hhost _ hadv.inputs, hadv.inputs, fun hn => (hadv.of_over hn).1, fun hn => ?_⟩
    obtain ⟨r', hr'⟩ := Option.ne_none_iff_exists'.1 hn
    exact (hadv.of_running hr').1

/-- Settles O58: both the start of a command and each answer to it keep what is the host's. -/
theorem configurationIsTheHosts : Obligations.ConfigurationIsTheHosts := by
  refine ⟨fun i s t hc h => ?_, fun s t r hc hr hin h => ?_⟩
  · cases (exec_eq i s).symm.trans h
    have hadv := commandStart_advances i s
    obtain ⟨hconfig, hargA, hargB, hmtu, haddr, hoptions, hmsg⟩ := hadv.host
    refine ⟨⟨hconfig, hargA, hargB, hmtu, haddr, hoptions, hmsg hc⟩, hadv.inputs, ?_⟩
    split
    · next hn => exact (hadv.of_over hn).1
    · next hn =>
      obtain ⟨r, hr⟩ := Option.ne_none_iff_exists'.1 hn
      exact (hadv.of_running hr).1
  · rcases step_running_cases hr hin with ⟨rest, h'⟩ | ⟨a, rest, h'⟩
    · cases h'.symm.trans h
      exact ⟨⟨rfl, rfl, rfl, rfl, rfl, rfl, fun _ => rfl⟩, rfl⟩
    · cases h'.symm.trans h
      have hadv := takeAnswer_advances r a (s.facing (inputsAfter 1 s.inputs) rest)
      obtain ⟨hconfig, hargA, hargB, hmtu, haddr, hoptions, hmsg⟩ := hadv.host
      exact ⟨⟨hconfig, hargA, hargB, hmtu, haddr, hoptions, hmsg hc⟩, hadv.inputs⟩

/-! ### The buffers -/

/-- What was written into a buffer reads back (R12). -/
theorem memRead_memWrite (s : State) (sp : Space) {a : Nat} {bs : List Byte} (h : a + bs.length ≤ sp.cap s.config) :
    memRead (memWrite sp a bs s) sp a bs.length = bs := by
  refine List.ext_getElem (memRead_length ..) fun i _ hi => ?_
  rw [memRead_getElem, readByte_memWrite_inside s sp hi (by omega)]

/-- Settles O23: a write changes its span alone, and a havoc its buffer alone, since the windows are apart. -/
theorem bufferReadsAndWrites : Obligations.BufferReadsAndWrites := by
  intro s sp hc
  refine ⟨fun a bs h => ⟨memRead_memWrite s sp h, fun sp' i hi => ?_, rfl, fun hm => write_wf hm ..⟩, fun sp' i => ?_⟩
  · by_cases hsp : sp = sp'
    · subst hsp
      have : ¬(a ≤ i ∧ i < a + bs.length) := fun hai => hi ⟨rfl, hai⟩
      exact readByte_memWrite_outside s sp sp (by omega)
    · exact readByte_memWrite_other hc hsp (h.trans (cap_le hc sp)) i
  · split
    · next hsp =>
      subst hsp
      exact readByte_havoc s sp' i
    · next hsp => exact readByte_havoc_other hc (Ne.symm hsp) i

end Sys2Proof.Machine
end

section
/-! PROOFS. The invariant of the machine (R8, R26, R29, R30, R32, R33, R35, R51), and beside it what a command may
still issue (R227): one lemma per function of the engine gives both. -/

namespace Sys2Proof.Machine

open Sys2Proof

/-! ### What a command may still issue -/

/-- The four kinds of bus transaction (R13). -/
inductive TransactionKind where
  | opens | writes | reads | closes

/-- Whether a transaction is of a kind. -/
def TransactionKind.test : TransactionKind → BusOp → Bool
  | .opens => BusOp.isOpen
  | .writes => BusOp.isWrite
  | .reads => BusOp.isRead
  | .closes => BusOp.isClose

/-- The bound of R227 on a kind. -/
def TransactionKind.bound (c : Config) : TransactionKind → Nat
  | .opens => c.openAttempts
  | .writes => max 1 c.msgCap
  | .reads => 2 * (c.replyCap / 9) + 1
  | .closes => 1

/-- The transaction awaited in a phase, counted by kind. -/
def Phase.awaits : Phase → TransactionKind → Nat
  | .opening _, .opens => 1
  | .sending _, .writes => 1
  | .awaitHeader _, .reads => 1
  | .awaitBody _ _, .reads => 1
  | .closing, .closes => 1
  | _, _ => 0

/-- The most that a command can issue, kind by kind, after the transaction it awaits in a phase. A packet takes at
least nine bytes of REPLYBUF and two reads. -/
def Phase.leaves (c : Config) : Phase → TransactionKind → Nat
  | .opening attempt, .opens => c.openAttempts - attempt
  | .opening _, .writes => max 1 c.msgCap
  | .opening _, .reads => 2 * (c.replyCap / 9) + 1
  | .sending f, .writes => f.count - f.index - 1
  | .sending _, .reads => 2 * (c.replyCap / 9) + 1
  | .awaitHeader r, .reads => 2 * ((c.replyCap - r.raw) / 9)
  | .awaitBody r _, .reads => 2 * ((c.replyCap - r.raw) / 9) - 1
  | _, _ => 0

/-- What a command in a phase accounts for: what it awaits and what it may issue after. -/
def Phase.needs (c : Config) (p : Phase) (k : TransactionKind) : Nat := p.awaits k + p.leaves c k

theorem countP_awaited (s : State) (p : Phase) (k : TransactionKind) : [awaited s p].countP k.test = p.awaits k := by
  cases p <;> cases k <;> rfl

/-- A message takes at most a packet a byte, and an empty one takes one (R116). -/
theorem packetCount_le {len m : Nat} (hm : 1 ≤ m) : packetCount len m ≤ max 1 len := by
  unfold packetCount
  split
  · exact le_max_left ..
  · refine le_max_of_le_right (Nat.div_le_of_le_mul ?_)
    obtain ⟨m, rfl⟩ := Nat.exists_eq_add_of_le' hm
    have := Nat.le_mul_of_pos_right m (show 0 < len by omega)
    rw [Nat.add_mul, one_mul]
    omega

/-- A message takes at least one packet (R116). -/
theorem packetCount_pos {len m : Nat} (hm : 1 ≤ m) : 0 < packetCount len m := by
  unfold packetCount
  split
  · exact Nat.one_pos
  · exact Nat.div_pos (by omega) hm

/-- What the invariant says of a phase keeps every kind within its bound. -/
theorem needs_le_bound {s : State} {command : BusCommand} {p : Phase} (hm : 1 ≤ s.mtu.toNat)
    (hp : PhaseOk s command p) (k : TransactionKind) : p.needs s.config k ≤ k.bound s.config := by
  match p with
  | .opening attempt =>
    obtain ⟨-, -, hfirst, hlast⟩ := hp
    cases k <;> simp only [Phase.needs, Phase.awaits, Phase.leaves, TransactionKind.bound] <;> omega
  | .sending f =>
    obtain ⟨-, -, hmtu, -, hlen, hcount, hindex⟩ := hp
    have : f.count ≤ max 1 f.len := hcount ▸ packetCount_le (hmtu ▸ hm)
    cases k <;> simp only [Phase.needs, Phase.awaits, Phase.leaves, TransactionKind.bound] <;> omega
  | .awaitHeader _ | .awaitBody _ _ | .closing =>
    cases k <;> simp only [Phase.needs, Phase.awaits, Phase.leaves, TransactionKind.bound] <;> omega

/-! What each phase leaves is enough for the phase that follows it. -/

section
variable (c : Config) (k : TransactionKind)

/-- After a failed attempt, the next one (R175). -/
theorem needs_opening_succ {attempt : Nat} (h : attempt < c.openAttempts) :
    (Phase.opening (attempt + 1)).needs c k ≤ (Phase.opening attempt).leaves c k := by
  cases k <;> simp only [Phase.needs, Phase.awaits, Phase.leaves] <;> omega

/-- After the open phase, a message that fits MSGBUF (R177). -/
theorem needs_sending_first {attempt : Nat} {s : State} (hm : 1 ≤ s.mtu.toNat) (hlen : s.argB.toNat ≤ c.msgCap) :
    (Phase.sending (sendingOf s)).needs c k ≤ (Phase.opening attempt).leaves c k := by
  have hcount : (sendingOf s).count ≤ max 1 s.argB.toNat := packetCount_le hm
  have hindex : (sendingOf s).index = 0 := rfl
  cases k <;> simp only [Phase.needs, Phase.awaits, Phase.leaves] <;> omega

/-- After a packet, the next one (R122). -/
theorem needs_sending_succ {f : Sending} (h : f.index + 1 < f.count) :
    (Phase.sending { f with index := f.index + 1 }).needs c k ≤ (Phase.sending f).leaves c k := by
  cases k <;> simp only [Phase.needs, Phase.awaits, Phase.leaves] <;> omega

/-- At the start of a receive phase: two reads for each packet that fits REPLYBUF, and one more header (R139). -/
theorem needs_awaitHeader_first {q : TransactionKind → Nat} {r : Receiving}
    (hq : 2 * (c.replyCap / 9) + 1 ≤ q .reads) : (Phase.awaitHeader r).needs c k ≤ q k := by
  cases k <;> simp only [Phase.needs, Phase.awaits, Phase.leaves] <;> omega

/-- After a header, its body, if a whole packet still fits (R139). -/
theorem needs_awaitBody {r : Receiving} {hd : Header} (h : r.raw + 9 ≤ c.replyCap) :
    (Phase.awaitBody r hd).needs c k ≤ (Phase.awaitHeader r).leaves c k := by
  cases k <;> simp only [Phase.needs, Phase.awaits, Phase.leaves] <;> omega

/-- After a body, the next header: the packet took at least nine bytes (R142). -/
theorem needs_awaitHeader_next {r : Receiving} {hd : Header} {bc : Nat} (h5 : 5 ≤ bc)
    (h : r.raw + bc + 4 ≤ c.replyCap) :
    (Phase.awaitHeader (r.accept bc)).needs c k ≤ (Phase.awaitBody r hd).leaves c k := by
  cases k <;> simp only [Phase.needs, Phase.awaits, Phase.leaves, Receiving.accept] <;> omega

end

/-! ### The invariant without the running command -/

/-- The invariant but for what it says of the running command. -/
def InvIdle (s : State) : Prop := Inv { s with running := none }

theorem Inv.idle {s : State} (h : Inv s) : InvIdle s :=
  ⟨h.config, h.memory, h.mapped, h.mtu, h.counters, h.reply, nofun⟩

theorem InvIdle.inv {s : State} (h : InvIdle s) (hr : s.running = none) : Inv s :=
  ⟨h.config, h.memory, h.mapped, h.mtu, h.counters, h.reply, fun _ hs => nomatch hr.symm.trans hs⟩

theorem InvIdle.finish {s : State} (h : InvIdle s) (code : StatusCode) (short : Bool) (result : Word) :
    Inv (finish code short result s) :=
  ⟨h.config, h.memory, h.mapped, h.mtu, h.counters, h.reply, nofun⟩

theorem phaseOk_issue (op : BusOp) (r : Running) (s : State) (command : BusCommand) (p : Phase) :
    PhaseOk (issue op r s) command p ↔ PhaseOk s command p := by
  cases p <;> rfl

theorem InvIdle.issue {s : State} (h : InvIdle s) (op : BusOp) {r : Running} (hp : PhaseOk s r.command r.phase) :
    Inv (issue op r s) := by
  refine ⟨h.config, h.memory, h.mapped, h.mtu, h.counters, h.reply, fun r' hr => ?_⟩
  cases hr
  exact (phaseOk_issue ..).2 hp

theorem InvIdle.memWrite {s : State} (h : InvIdle s) (sp : Space) {a : Nat} {bs : List Byte}
    (hfit : a + bs.length ≤ sp.cap s.config) : InvIdle (memWrite sp a bs s) := by
  refine ⟨h.config, write_wf h.memory .., fun e he => ?_, h.mtu, h.counters, h.reply, nofun⟩
  rcases mem_write.1 he with ⟨he, -⟩ | he
  · exact h.mapped e he
  · obtain ⟨hlow, hhigh⟩ := mem_cells he
    have hw := windowOf_address h.config sp (i := e.1 - sp.base) (show _ < sp.cap s.config by omega)
    rw [Nat.add_sub_cancel' (by omega)] at hw
    exact Option.isSome_of_eq_some hw

theorem InvIdle.havoc_reply {s : State} (h : InvIdle s) : InvIdle (havoc .reply s) :=
  ⟨h.config, erase_wf h.memory .., fun e he => h.mapped e (mem_erase.1 he).1, h.mtu, h.counters, h.reply, nofun⟩

/-- The registers a command sets on its way, the reply not made valid. -/
theorem InvIdle.registers {s : State} (h : InvIdle s) (valid isOpen : Bool) (result : Word)
    (hv : valid = true → s.replyValid = true) :
    InvIdle { s with replyValid := valid, busOpen := isOpen, result := result } :=
  ⟨h.config, h.memory, h.mapped, h.mtu, h.counters, fun hr => h.reply (hv hr), nofun⟩

theorem InvIdle.setCounters {s : State} (h : InvIdle s) (valid : Bool) {raw received : Half} {n : Nat}
    (hc : CountersOk s.config.replyCap raw.toNat received.toNat n) (hv : valid = true → 9 ≤ raw.toNat) :
    InvIdle { s with rawLen := raw, rxLen := received, replyValid := valid } :=
  ⟨h.config, h.memory, h.mapped, h.mtu, ⟨n, hc⟩, hv, nofun⟩

/-- The registers the host sets, MTU within its range. -/
theorem InvIdle.hostRegisters {s : State} (h : InvIdle s) (a b : Half) (addr : Word) (options : BitVec 3) {mtu : Byte}
    (hm : 1 ≤ mtu.toNat ∧ mtu.toNat ≤ 250) :
    InvIdle { s with argA := a, argB := b, addr := addr, options := options, mtu := mtu } :=
  ⟨h.config, h.memory, h.mapped, hm, h.counters, h.reply, nofun⟩

/-! ### What the engine's functions keep -/

/-- The invariant holds of `s`, and a running command needs at most `q`, kind by kind. -/
structure Good (q : TransactionKind → Nat) (s : State) : Prop where
  inv : Inv s
  within : ∀ r, s.running = some r → ∀ k, r.phase.needs s.config k ≤ q k

section
variable {q : TransactionKind → Nat} {s : State}

theorem good_finish (h : InvIdle s) (code : StatusCode) (short : Bool) (result : Word) :
    Good q (finish code short result s) :=
  ⟨h.finish .., nofun⟩

theorem good_issue (h : InvIdle s) (op : BusOp) {r : Running} (hp : PhaseOk s r.command r.phase)
    (hq : ∀ k, r.phase.needs s.config k ≤ q k) : Good q (issue op r s) := by
  refine ⟨h.issue op hp, fun r' hr => ?_⟩
  cases hr
  exact hq

theorem receiveFailed_good (h : InvIdle s) (command : BusCommand) (sent : Nat) (r : Receiving) (code : StatusCode) :
    Good q (receiveFailed command sent r code s) :=
  good_finish h.havoc_reply ..

/-- Of the head of the packet loop, the phase agreeing with the registers if the header fits. -/
theorem awaitPacket_good (h : InvIdle s) {command : BusCommand} (sent : Nat) {r : Receiving}
    (hr : r.raw + 8 ≤ s.config.replyCap → ReceivingOk s command r)
    (hq : ∀ k, (Phase.awaitHeader r).needs s.config k ≤ q k) : Good q (awaitPacket command sent r s) := by
  by_cases hfit : r.raw + 8 ≤ s.config.replyCap
  · rw [awaitPacket_fits command sent hfit]
    exact good_issue h _ (hr hfit) hq
  · rw [awaitPacket_overflows command sent (by omega)]
    exact receiveFailed_good h ..

theorem startReceive_good (h : InvIdle s) {command : BusCommand} (hc : command = .deframe ∨ command = .execute)
    (ht : InTransfer s) (sent : Nat) (hq : 2 * (s.config.replyCap / 9) + 1 ≤ q .reads) :
    Good q (startReceive command sent s) := by
  have hzero : CountersOk s.config.replyCap 0 0 0 := ⟨rfl, Nat.zero_le _, fun _ => rfl⟩
  obtain ⟨hopen, hvalid⟩ := ht
  exact awaitPacket_good (h.setCounters s.replyValid (raw := 0) (received := 0) hzero (by simp [hvalid])) sent
    (fun hfit => ⟨hc, ⟨hopen, hvalid⟩, rfl, rfl, rfl, rfl, hzero, hfit⟩) fun k => needs_awaitHeader_first _ k hq

/-- The header of the next packet fits (R139). -/
theorem receivingOk_fits {command : BusCommand} {r : Receiving} (h : ReceivingOk s command r) :
    r.raw + 8 ≤ s.config.replyCap := by
  obtain ⟨-, -, -, -, -, -, -, hfit⟩ := h
  exact hfit

theorem headerAnswered_good (h : InvIdle s) {command : BusCommand} (sent : Nat) {r : Receiving}
    (hr : ReceivingOk s command r) (a : BusAnswer) :
    Good ((Phase.awaitHeader r).leaves s.config) (headerAnswered command sent r a s) := by
  have hfit := receivingOk_fits hr
  match a with
  | .err => exact receiveFailed_good h ..
  | .ok _ t =>
    unfold headerAnswered
    dsimp only
    split
    · exact receiveFailed_good h ..
    · next hd heq =>
      have ht : t.length = 8 := by rw [header_ofBytes_some heq, header_toBytes_length]
      have hw := h.memWrite .reply (a := r.raw) (bs := t) (by rw [ht]; exact hfit)
      split
      · exact receiveFailed_good hw ..
      · next hbc =>
        split
        · exact receiveFailed_good hw ..
        · next hbody =>
          rw [memWrite_config] at hbody
          exact good_issue hw _ ⟨hr, by omega, by omega, show _ ≤ s.config.replyCap by omega⟩
            fun k => needs_awaitBody _ k (by rw [memWrite_config]; omega)

theorem bodyAnswered_good (h : InvIdle s) {command : BusCommand} (sent : Nat) {r : Receiving} {hd : Header}
    (hp : PhaseOk s command (.awaitBody r hd)) (a : BusAnswer) :
    Good ((Phase.awaitBody r hd).leaves s.config) (bodyAnswered command sent r hd a s) := by
  obtain ⟨⟨hcommand, ⟨hopen, hvalid⟩, hmtu, hcheck, hraw, hreceived, ⟨hsum, hcap, hzero⟩, -⟩, h5, -, hbody⟩ := hp
  match a with
  | .err => exact receiveFailed_good h ..
  | .ok _ t =>
    unfold bodyAnswered
    dsimp only
    split
    · exact receiveFailed_good h ..
    · next ht =>
      have hw := h.memWrite .reply (a := r.raw + 8) (bs := t) (show _ ≤ s.config.replyCap by omega)
      split
      · exact receiveFailed_good hw ..
      · have hlegal : s.config.replyCap ≤ 8192 := cap_le h.config .reply
        have hrawNat : (BitVec.ofNat 16 (r.accept hd.byteCount.toNat).raw).toNat = r.raw + hd.byteCount.toNat + 4 :=
          (BitVec.toNat_ofNat ..).trans (Nat.mod_eq_of_lt (by simp only [Receiving.accept]; omega))
        have hreceivedNat : (BitVec.ofNat 16 (r.accept hd.byteCount.toNat).received).toNat =
            r.received + (hd.byteCount.toNat - 5) :=
          (BitVec.toNat_ofNat ..).trans (Nat.mod_eq_of_lt (by simp only [Receiving.accept]; omega))
        have hcount : CountersOk s.config.replyCap (r.raw + hd.byteCount.toNat + 4)
            (r.received + (hd.byteCount.toNat - 5)) (r.accepted + 1) := ⟨by omega, hbody, by omega⟩
        have hcount' := hcount
        rw [← hrawNat, ← hreceivedNat] at hcount'
        split
        · exact good_finish (hw.setCounters true hcount' fun _ => by omega) ..
        · exact awaitPacket_good (hw.setCounters s.replyValid hcount' (by simp [hvalid])) sent
            (fun hfit => ⟨hcommand, ⟨hopen, hvalid⟩, hmtu, hcheck, hrawNat.symm, hreceivedNat.symm, hcount, hfit⟩)
            fun k => needs_awaitHeader_next _ k h5 hbody

theorem sendPacket_good (h : InvIdle s) {command : BusCommand} {f : Sending} (hp : PhaseOk s command (.sending f))
    (hq : ∀ k, (Phase.sending f).needs s.config k ≤ q k) : Good q (sendPacket command f s) :=
  good_issue h _ hp hq

/-- The start of a transmit phase, in which REPLY_VALID has been cleared. -/
theorem startSend_good (h : InvIdle s) {command : BusCommand} (hc : command = .frame ∨ command = .execute)
    (hopen : s.busOpen = true) (hlen : s.argB.toNat ≤ s.config.msgCap)
    (hq : ∀ k, (Phase.sending (sendingOf s)).needs s.config k ≤ q k) :
    Good q (startSend command (operandB s) { s with replyValid := false }) :=
  sendPacket_good (h.registers false s.busOpen s.result nofun)
    ⟨hc, ⟨hopen, rfl⟩, rfl, rfl, hlen, rfl, packetCount_pos h.mtu.1⟩ hq

theorem sendFailed_good (h : InvIdle s) (command : BusCommand) (sent : Nat) : Good q (sendFailed command sent s) := by
  unfold sendFailed
  split
  · exact good_finish h.havoc_reply ..
  · exact good_finish h ..

theorem allSent_good (h : InvIdle s) (command : BusCommand) (ht : InTransfer s) (sent : Nat)
    (hq : 2 * (s.config.replyCap / 9) + 1 ≤ q .reads) : Good q (allSent command sent s) := by
  unfold allSent
  split
  · exact startReceive_good h (.inr rfl) ht sent hq
  · exact good_finish h ..

theorem writeAnswered_good (h : InvIdle s) {command : BusCommand} {f : Sending}
    (hp : PhaseOk s command (.sending f)) (a : BusAnswer) :
    Good ((Phase.sending f).leaves s.config) (writeAnswered command f a s) := by
  obtain ⟨hcommand, ht, hmtu, hlen, hcap, hcount, -⟩ := hp
  match a with
  | .err => exact sendFailed_good h ..
  | .ok _ _ =>
    unfold writeAnswered
    dsimp only
    split
    · exact sendFailed_good h ..
    split
    · next hnext =>
      exact sendPacket_good h ⟨hcommand, ht, hmtu, hlen, hcap, hcount, hnext⟩ fun k => needs_sending_succ _ k hnext
    · exact allSent_good h command ht f.count le_rfl

theorem opened_good (h : InvIdle s) {command : BusCommand} (attempts : Nat) (hopen : s.busOpen = true)
    (hlen : command = .execute → s.argB.toNat ≤ s.config.msgCap)
    (hq : command = .execute → ∀ k, (Phase.sending (sendingOf s)).needs s.config k ≤ q k) :
    Good q (opened command attempts s) := by
  unfold opened
  split
  · exact startSend_good h (.inr rfl) hopen (hlen rfl) (hq rfl)
  · exact good_finish h ..

theorem tryOpen_good (h : InvIdle s) {command : BusCommand} {attempt : Nat}
    (hp : attempt ≤ s.config.openAttempts → PhaseOk s command (.opening attempt))
    (hq : attempt ≤ s.config.openAttempts → ∀ k, (Phase.opening attempt).needs s.config k ≤ q k) :
    Good q (tryOpen command attempt s) := by
  by_cases hle : attempt ≤ s.config.openAttempts
  · rw [tryOpen_issues command hle]
    exact good_issue h _ (hp hle) (hq hle)
  · rw [tryOpen_gives_up command (by omega)]
    unfold openFailed
    split <;> exact good_finish h ..

theorem openAnswered_good (h : InvIdle s) {command : BusCommand} {attempt : Nat}
    (hp : PhaseOk s command (.opening attempt)) (a : BusAnswer) :
    Good ((Phase.opening attempt).leaves s.config) (openAnswered command attempt a s) := by
  obtain ⟨hcommand, hclosed, hfirst, -⟩ := hp
  match a with
  | .err =>
    exact tryOpen_good h (fun hle => ⟨hcommand, hclosed, by omega, hle⟩) fun hle k => needs_opening_succ _ k hle
  | .ok _ _ =>
    have hlen : command = .execute → s.argB.toNat ≤ s.config.msgCap := by
      rintro rfl
      rcases hcommand with hc | ⟨-, hc⟩
      · cases hc
      · exact hc
    exact opened_good (h.registers s.replyValid true s.result id) attempt rfl hlen
      fun hc k => needs_sending_first _ k h.mtu.1 (hlen hc)

theorem closeAnswered_good (h : InvIdle s) (a : BusAnswer) : Good q (closeAnswered a s) := by
  have hc := h.registers s.replyValid false s.result id
  match a with
  | .err => exact good_finish hc ..
  | .ok _ _ => exact good_finish hc ..

end

/-- One answer keeps the invariant, and takes from what the command needs the transaction it answers. -/
theorem takeAnswer_good {s : State} {r : Running} (h : Inv s) (hr : s.running = some r) (a : BusAnswer) :
    Good (r.phase.leaves s.config) (takeAnswer r a s) := by
  obtain ⟨command, sent, phase⟩ := r
  have hp := h.phase _ hr
  match phase with
  | .opening attempt => exact openAnswered_good h.idle hp a
  | .sending f => exact writeAnswered_good h.idle hp a
  | .awaitHeader p => exact headerAnswered_good h.idle sent hp a
  | .awaitBody p hd => exact bodyAnswered_good h.idle sent hp a
  | .closing => exact closeAnswered_good h.idle a

/-! ### The start of a command -/

theorem checksumCommand_inv {s : State} (h : InvIdle s) (f : List Byte → Word) : Inv (checksumCommand f s) := by
  unfold checksumCommand
  split <;> exact h.finish ..

theorem frameCommand_inv {s : State} (h : InvIdle s) : Inv (frameCommand s) := by
  unfold frameCommand
  split
  · exact h.finish ..
  split
  · exact h.finish ..
  · next hlen hopen =>
    exact (startSend_good h (.inl rfl) (by simpa using hopen) (Nat.le_of_not_lt hlen) fun _ => le_rfl).inv

theorem deframeCommand_inv {s : State} (h : InvIdle s) : Inv (deframeCommand s) := by
  unfold deframeCommand
  split
  · exact h.finish ..
  · next hopen =>
    exact (startReceive_good (q := fun _ => _) (h.registers false s.busOpen s.result nofun) (.inl rfl)
      ⟨by simpa using hopen, rfl⟩ 0 le_rfl).inv

theorem startOpen_inv {s : State} (h : InvIdle s) {command : BusCommand}
    (hc : command = .openBus ∨ (command = .execute ∧ s.argB.toNat ≤ s.config.msgCap)) :
    Inv (startOpen command s) := by
  unfold startOpen
  split
  · next hopen =>
    refine (opened_good h 0 hopen ?_ fun _ _ => le_rfl).inv
    rintro rfl
    exact hc.elim nofun And.right
  · next hopen =>
    exact (tryOpen_good h (fun hle => ⟨hc, by simpa using hopen, le_rfl, hle⟩) fun _ _ => le_rfl).inv

theorem executeCommand_inv {s : State} (h : InvIdle s) : Inv (executeCommand s) := by
  unfold executeCommand
  split
  · exact h.finish ..
  · next hlen => exact startOpen_inv h (.inr ⟨rfl, Nat.le_of_not_lt hlen⟩)

theorem closeCommand_inv {s : State} (h : InvIdle s) : Inv (closeCommand s) := by
  unfold closeCommand
  split
  · exact h.finish ..
  · next hopen => exact (h.registers s.replyValid s.busOpen 0 id).issue _ ⟨rfl, by simpa using hopen, rfl⟩

theorem extractCommand_inv {s : State} (h : InvIdle s) (adm dstp : Bool) : Inv (extractCommand adm dstp s) := by
  unfold extractCommand
  split
  · exact h.finish ..
  split
  · exact h.finish ..
  split
  · exact h.finish ..
  · next hcap _ =>
    refine (h.memWrite .out ?_).finish ..
    have hlen : (extractedBytes adm s).length ≤ operandB s := by simp [extractedBytes, copyCount]
    exact (Nat.zero_add _).trans_le (hlen.trans (Nat.le_of_not_lt hcap))

theorem peekCommand_inv {s : State} (h : InvIdle s) : Inv (peekCommand s) := by
  unfold peekCommand
  split
  · exact h.finish ..
  split
  · exact h.finish ..
  · next hfit _ =>
    refine (h.memWrite .out ?_).finish ..
    rw [memRead_length, Nat.zero_add]
    exact Nat.le_of_not_lt fun hlt => hfit (.inl hlt)

/-- The start of every command keeps the invariant, whatever ran before. -/
theorem commandStart_inv {s : State} (h : InvIdle s) (i : Instr) : Inv (commandStart i s) := by
  cases i with
  | crc8 => exact checksumCommand_inv h (fun bytes => (crc8 bytes).zeroExtend 32)
  | crc32 => exact checksumCommand_inv h (crc32 s.config)
  | frame => exact frameCommand_inv h
  | deframe => exact deframeCommand_inv h
  | execute => exact executeCommand_inv h
  | extract adm dstp => exact extractCommand_inv h adm dstp
  | peek => exact peekCommand_inv h
  | openBus => exact startOpen_inv h (.inl rfl)
  | closeBus => exact closeCommand_inv h

/-! ### Every step -/

theorem Inv.facing {s : State} (h : Inv s) (inputs : List Input) (bus : List BusEvent) : Inv (s.facing inputs bus) := by
  refine ⟨h.config, h.memory, h.mapped, h.mtu, h.counters, h.reply, fun r hr => ?_⟩
  have hp := h.phase r hr
  revert hp
  cases r.phase <;> exact id

theorem Inv.answer {s : State} (h : Inv s) (p : PortAnswer) : Inv (answer p s) := by
  refine ⟨h.config, h.memory, h.mapped, h.mtu, h.counters, h.reply, fun r hr => ?_⟩
  have hp := h.phase r hr
  revert hp
  cases r.phase <;> exact id

/-- The reset state at legal parameters meets the invariant. -/
theorem inv_resetWith {c : Config} (hc : c.Legal) : Inv (State.resetWith c) :=
  ⟨hc, List.Pairwise.nil, nofun, hc.2.2.2, ⟨0, rfl, Nat.zero_le _, fun _ => rfl⟩, nofun, nofun⟩

theorem resetEvent_inv {s : State} (h : Inv s) : Inv (resetEvent s) :=
  have hreset := inv_resetWith h.config
  ⟨h.config, hreset.memory, hreset.mapped, hreset.mtu, hreset.counters, nofun, nofun⟩

theorem writeReg_inv {s : State} (h : Inv s) (hr : s.running = none) (r : Reg) (v : Word) :
    Inv (writeReg r v s) := by
  cases r with
  | argA => exact (h.idle.hostRegisters _ s.argB s.addr s.options h.mtu).inv hr
  | argB => exact (h.idle.hostRegisters s.argA _ s.addr s.options h.mtu).inv hr
  | addr => exact (h.idle.hostRegisters s.argA s.argB _ s.options h.mtu).inv hr
  | options => exact (h.idle.hostRegisters s.argA s.argB s.addr _ h.mtu).inv hr
  | mtu =>
    unfold writeReg
    dsimp only
    split
    · next hv =>
      refine (h.idle.hostRegisters s.argA s.argB s.addr s.options ?_).inv hr
      simp only [mtuLegal, Bool.and_eq_true, decide_eq_true_eq] at hv
      rw [BitVec.toNat_setWidth]
      omega
    · exact h
  | cmd | status | result | rxLen | rawLen => exact h

theorem write8_inv {s : State} (h : Inv s) (hr : s.running = none) (a : Nat) (b : Byte) : Inv (write8 a b s) := by
  unfold write8
  split
  · next i hw =>
    obtain ⟨-, hi⟩ := windowOf_eq_some hw
    exact ((h.idle.memWrite .msg (bs := [b]) hi).inv hr).answer _
  · exact h.answer _
  · exact h.answer _

theorem read8_inv {s : State} (h : Inv s) (a : Nat) : Inv (read8 a s) := by
  unfold read8
  split <;> exact h.answer _

theorem read32_inv {s : State} (h : Inv s) (a : Nat) : Inv (read32 a s) := by
  unfold read32
  split <;> exact h.answer _

theorem write32_inv {s t : State} (h : Inv s) (hr : s.running = none) {a : Nat} {v : Word}
    (ht : write32 a v s = .next t) : Inv t := by
  unfold write32 writeCmd at ht
  split at ht
  · split at ht
    · cases ht
      exact h.idle.finish ..
    · next i _ =>
      cases (exec_eq i s).symm.trans ht
      exact commandStart_inv h.idle i
  · cases ht
    exact (writeReg_inv h hr ..).answer _
  · cases ht
    exact h.answer _

/-- An access to an idle machine keeps the invariant. -/
theorem hostAccess_inv {s t : State} (h : Inv s) (hr : s.running = none) {x : HostAccess}
    (ht : hostAccess x s = .next t) : Inv t := by
  cases x with
  | write32 a v => exact write32_inv h hr ht
  | read32 a =>
    cases ht
    exact read32_inv h _
  | write8 a b =>
    cases ht
    exact write8_inv h hr _ b
  | read8 a =>
    cases ht
    exact read8_inv h _

/-- A step of a running command without a reset keeps the invariant. -/
theorem step_running_inv {s t : State} {r : Running} (h : Inv s) (hr : s.running = some r)
    (hin : ∀ rest, s.inputs ≠ .reset :: rest) (ht : step s = .next t) : Inv t := by
  rcases step_running_cases hr hin with ⟨rest, h'⟩ | ⟨a, rest, h'⟩
  · cases h'.symm.trans ht
    exact h.facing ..
  · cases h'.symm.trans ht
    exact (takeAnswer_good (h.facing (inputsAfter 1 s.inputs) rest) hr a).inv

/-- Settles O15, by what comes next: a reset, an access to an idle machine, time, or a step of the running command. -/
theorem stepKeepsTheInvariant : Obligations.StepKeepsTheInvariant := by
  intro s t h ht
  match hin : s.inputs, hr : s.running with
  | .reset :: rest, _ =>
    cases (step_reset hin).symm.trans ht
    exact resetEvent_inv (h.facing rest s.bus)
  | .wait :: rest, none =>
    cases (step_wait hin).symm.trans ht
    rw [tick_idle (s := { s with inputs := rest }) hr]
    exact h.facing rest s.bus
  | [], none =>
    cases (step_no_input hin).symm.trans ht
    rwa [tick_idle hr]
  | .host x :: rest, none =>
    rw [step_host hr hin] at ht
    exact hostAccess_inv (h.facing rest s.bus) hr ht
  | .wait :: _, some r | [], some r | .host _ :: _, some r =>
    exact step_running_inv h hr (by simp [hin]) ht

/-- Settles O14: right after reset every clause of the invariant is immediate. -/
theorem invariantHoldsAtReset : Obligations.InvariantHoldsAtReset :=
  ⟨inv_resetWith (by unfold Config.Legal; decide), fun _ hc => inv_resetWith hc⟩

end Sys2Proof.Machine
end

section
/-! PROOFS. Every command completes when the bus answers (R227): each answer takes from what the command needs, so
that a run of it ends within the bounds of each kind. -/

namespace Sys2Proof.Machine

open Sys2Proof

/-- The sum over the four kinds of transaction. -/
def total (f : TransactionKind → Nat) : Nat := f .opens + f .writes + f .reads + f .closes

theorem total_mono {f g : TransactionKind → Nat} (h : ∀ k, f k ≤ g k) : total f ≤ total g :=
  Nat.add_le_add (Nat.add_le_add (Nat.add_le_add (h _) (h _)) (h _)) (h _)

/-- Of the transactions a command needs one is the awaited one. -/
theorem total_needs (c : Config) (p : Phase) : total (p.needs c) = total (p.leaves c) + 1 := by
  cases p <;> simp only [total, Phase.needs, Phase.awaits] <;> omega

theorem withinBounds_iff (c : Config) (ops : List BusOp) :
    WithinBounds c ops ↔ ∀ k : TransactionKind, ops.countP k.test ≤ k.bound c := by
  refine ⟨fun ⟨hopens, hwrites, hreads, hcloses⟩ k => ?_, fun h => ⟨h .opens, h .writes, h .reads, h .closes⟩⟩
  cases k
  · exact hopens
  · exact hwrites
  · exact hreads
  · exact hcloses

/-- A command of which the invariant holds needs no more answers than R227 counts. -/
theorem total_needs_le {s : State} {command : BusCommand} {p : Phase} (hm : 1 ≤ s.mtu.toNat)
    (hp : PhaseOk s command p) : total (p.needs s.config) ≤ enoughAnswers s.config := by
  have hopens := needs_le_bound hm hp .opens
  have hwrites := needs_le_bound hm hp .writes
  have hreads := needs_le_bound hm hp .reads
  simp only [TransactionKind.bound] at hopens hwrites hreads
  unfold total enoughAnswers
  match p with
  | .closing => simp only [Phase.needs, Phase.awaits, Phase.leaves]; omega
  | .opening _ | .sending _ | .awaitHeader _ | .awaitBody _ _ =>
    simp only [Phase.needs, Phase.awaits, Phase.leaves] at hopens hwrites hreads ⊢
    omega

theorem countP_awaited_cons (s : State) (p : Phase) (ops : List BusOp) (k : TransactionKind) :
    (awaited s p :: ops).countP k.test = p.awaits k + ops.countP k.test := by
  rw [← countP_awaited s, ← List.countP_append, List.singleton_append]

/-- A running command that the bus answers takes the answer in its next step. -/
theorem step_answered {s : State} {r : Running} (h : Inv s) (hr : s.running = some r) (hans : AlwaysAnswers s.bus)
    (hbus : s.bus ≠ []) (hin : ∀ rest, s.inputs ≠ .reset :: rest) :
    ∃ u, step s = .next u ∧ Good (r.phase.leaves s.config) u ∧
      Advances (s.facing (inputsAfter 1 s.inputs) s.bus.tail) u := by
  match hb : s.bus with
  | [] => exact absurd hb hbus
  | .silent :: _ => exact absurd rfl (hans .silent (by simp [hb]))
  | .answer a :: rest =>
    exact ⟨_, step_answer hr hin hb, takeAnswer_good (h.facing (inputsAfter 1 s.inputs) rest) hr a,
      takeAnswer_advances ..⟩

/-- A running command whose every transaction is answered ends, with no more transactions than its phase leaves. -/
theorem running_completes (n : Nat) {s : State} {r : Running} (h : Inv s) (hr : s.running = some r)
    (hans : AlwaysAnswers s.bus) (hn : total (r.phase.leaves s.config) < n) (hbus : n ≤ s.bus.length)
    (hin : NoResetFor n s.inputs) :
    ∃ ops t, Host.Core.run Sys2Proof.core (ops.length + 1) s = .next t ∧ t.running = none ∧
      t.busLog = s.busLog ++ ops ∧ t.bus = s.bus.drop (ops.length + 1) ∧
      ∀ k : TransactionKind, ops.countP k.test ≤ r.phase.leaves s.config k := by
  induction n generalizing s r with
  | zero => exact absurd hn (Nat.not_lt_zero _)
  | succ n ih =>
    obtain ⟨u, hstep, hgood, hadv⟩ :=
      step_answered h hr hans (List.length_pos_iff.1 (by omega)) (noResetFor_head hin)
    match hu : u.running with
    | none =>
      refine ⟨[], u, run_succ hstep 0, hu, ?_, hadv.bus.trans List.drop_one.symm, fun _ => Nat.zero_le _⟩
      exact (hadv.of_over hu).2.trans (List.append_nil _).symm
    | some r' =>
      have hneeds : ∀ k, r'.phase.needs s.config k ≤ r.phase.leaves s.config k :=
        hadv.config ▸ hgood.within r' hu
      have htotal := total_mono hneeds
      rw [total_needs] at htotal
      obtain ⟨ops, t, hrun, hover, hlog, hrest, hops⟩ := ih hgood.inv hu
        (hadv.bus ▸ fun e he => hans e (List.mem_of_mem_tail he))
        (hadv.config ▸ Nat.lt_of_succ_lt_succ (Nat.lt_of_le_of_lt htotal hn))
        (hadv.bus ▸ (Nat.le_sub_of_add_le hbus).trans_eq List.length_tail.symm)
        (hadv.inputs ▸ noResetFor_tail hin)
      refine ⟨awaited u r'.phase :: ops, t, (run_succ hstep _).trans hrun, hover, ?_, ?_, fun k => ?_⟩
      · rw [hlog, (hadv.of_running hu).2, List.append_assoc, List.singleton_append]
        rfl
      · rw [hrest, hadv.bus]
        exact List.drop_tail
      · calc (awaited u r'.phase :: ops).countP k.test
            = r'.phase.awaits k + ops.countP k.test := countP_awaited_cons ..
          _ ≤ r'.phase.needs s.config k := Nat.add_le_add_left (hadv.config ▸ hops k) _
          _ ≤ r.phase.leaves s.config k := hneeds k

/-- A running command whose every transaction is answered ends within the bounds of R227. -/
theorem running_completes_withinBounds {s : State} {r : Running} (h : Inv s) (hr : s.running = some r)
    (hans : AlwaysAnswers s.bus) (hbus : enoughAnswers s.config ≤ s.bus.length)
    (hin : NoResetFor (enoughAnswers s.config) s.inputs) :
    ∃ ops t, Host.Core.run Sys2Proof.core (ops.length + 1) s = .next t ∧ t.running = none ∧
      t.busLog = s.busLog ++ ops ∧ t.bus = s.bus.drop (ops.length + 1) ∧
      WithinBounds s.config (awaited s r.phase :: ops) := by
  have hp := h.phase r hr
  have htotal := total_needs_le h.mtu.1 hp
  rw [total_needs] at htotal
  obtain ⟨ops, t, hrun, hover, hlog, hrest, hops⟩ :=
    running_completes _ h hr hans htotal hbus hin
  refine ⟨ops, t, hrun, hover, hlog, hrest, (withinBounds_iff ..).2 fun k => ?_⟩
  calc (awaited s r.phase :: ops).countP k.test
      = r.phase.awaits k + ops.countP k.test := countP_awaited_cons ..
    _ ≤ r.phase.needs s.config k := Nat.add_le_add_left (hops k) _
    _ ≤ k.bound s.config := needs_le_bound h.mtu.1 hp k

/-- Settles O10: a command that is not over at its start runs to its end. -/
theorem commandCompletesWhenAnswered : Obligations.CommandCompletesWhenAnswered := by
  refine ⟨fun i s h hans hbus hin => ?_, fun s r h hr => running_completes_withinBounds h hr, rfl⟩
  have hinv := commandStart_inv h.idle i
  have hadv := commandStart_advances i s
  match hr : (commandStart i s).running with
  | none =>
    refine ⟨_, [], _, exec_eq i s, rfl, hr, ?_, hadv.bus, (withinBounds_iff ..).2 fun k => Nat.zero_le _⟩
    rw [(hadv.of_over hr).2, List.append_nil]
  | some r =>
    rw [← hadv.bus] at hans hbus ⊢
    rw [← hadv.config] at hbus hin ⊢
    rw [← hadv.inputs] at hin
    obtain ⟨ops, t, hrun, hover, hlog, hrest, hops⟩ := running_completes_withinBounds hinv hr hans hbus hin
    refine ⟨_, awaited (commandStart i s) r.phase :: ops, t, exec_eq i s, hrun, hover, ?_, hrest, hops⟩
    rw [hlog, (hadv.of_running hr).2, List.append_assoc, List.singleton_append]

end Sys2Proof.Machine
end

section
/-! PROOFS. Whole commands (R122, R123, R135 to R147, R175, R177): the loops of the engine put together phase by
phase, each phase a `Feeds` from its start, and from them the runs of OPEN, FRAME, DEFRAME and EXECUTE. -/

namespace Sys2Proof.Machine

open Sys2Proof

/-- Answers that carry a command from its start to `t` do so in a run of as many steps. -/
theorem exec_run {i : Instr} {s t : State} {as : List BusAnswer} {rest : List BusEvent}
    (h : Feeds as (commandStart i s) t) (hbus : s.bus = answered as rest) (hin : NoResetFor as.length s.inputs) :
    ∃ b, exec i s = .next b ∧
      Host.Core.run Sys2Proof.core as.length b = .next (t.facing (inputsAfter as.length s.inputs) rest) := by
  have hadv := commandStart_advances i s
  rw [← hadv.inputs] at hin ⊢
  exact ⟨_, exec_eq i s, run_feeds h (hadv.bus.trans hbus) hin⟩

/-! ### The open phase -/

/-- The answers that open the bus carry a command through its open phase (R175). -/
theorem open_phase (command : BusCommand) {s : State} {opens : List BusAnswer} (h : OpensBus s opens) :
    Feeds opens (startOpen command s)
      (opened command opens.length
        { s with busOpen := true, busLog := s.busLog ++ List.replicate opens.length .busOpen }) := by
  unfold OpensBus at h
  unfold startOpen
  split at h
  · next hopen =>
    subst h
    rw [if_pos hopen, List.length_nil, List.replicate_zero, List.append_nil, ← hopen]
    exact feeds_nil _
  · next hclosed =>
    obtain ⟨n, count, unread, hn, rfl⟩ := h
    rw [if_neg hclosed]
    refine feeds_append (open_loop command n 1 s (by omega)) ?_
    rw [tryOpen_issues command (by simp only; omega)]
    refine feeds_cons rfl ?_
    simp only [List.length_append, List.length_replicate, List.length_singleton, List.replicate_add,
      List.replicate_one, Nat.add_comm 1 n, ← List.append_assoc]
    exact (opened_running command (n + 1)
      { s with busOpen := true, busLog := s.busLog ++ List.replicate n .busOpen ++ [.busOpen] } _).symm

/-- Settles O48: the open phase, and OPEN ends with the number of its attempts. -/
theorem openRetriesUntilOk : Obligations.OpenRetriesUntilOk := by
  intro s answers rest hopens hbus hin
  exact exec_run (i := .openBus) (open_phase .openBus hopens) hbus hin

/-! ### The transmit phase -/

@[simp] theorem framePackets_length (s : State) : (framePackets s).length = (sendingOf s).count := by
  simp [framePackets]

theorem framePackets_eq (s : State) :
    framePackets s = (List.range' 0 (sendingOf s).count).map (packetBytes s (sendingOf s)) := by
  rw [framePackets, List.range_eq_range']

theorem framePackets_take (s : State) {n : Nat} (h : n ≤ (sendingOf s).count) :
    (framePackets s).take n = (List.range' 0 n).map (packetBytes s (sendingOf s)) := by
  rw [framePackets, ← List.map_take, List.take_range, min_eq_left h, List.range_eq_range']

theorem framePackets_take_succ (s : State) {n : Nat} (h : n < (framePackets s).length) :
    writesOf ((framePackets s).take (n + 1)) =
      writesOf ((framePackets s).take n) ++ [.busWrite (packetBytes s (sendingOf s) n)] := by
  rw [List.take_succ_eq_append_getElem h]
  simp [writesOf, framePackets]

/-- The transmit phase before its end: packets written, and the next one handed to the bus (R122). -/
theorem send_phase_some (command : BusCommand) {s : State} {answers : List BusAnswer}
    (hack : Acknowledge answers ((framePackets s).take answers.length))
    (hlt : answers.length < (framePackets s).length) :
    Feeds answers (startSend command s.argB.toNat s)
      { s with
        running := some ⟨command, 0, .sending
          ⟨s.argB.toNat, s.mtu.toNat, (framePackets s).length, answers.length⟩⟩
        busLog := s.busLog ++ writesOf ((framePackets s).take (answers.length + 1)) } := by
  rw [framePackets_take_succ s hlt, ← List.append_assoc]
  rw [framePackets_length] at hlt ⊢
  rw [framePackets_take s hlt.le] at hack ⊢
  have h := send_some command (sendingOf s) answers s (by rw [show (sendingOf s).index = 0 from rfl]; omega) hack
  rw [show (sendingOf s).index = 0 from rfl, Nat.zero_add] at h
  exact h

/-- The transmit phase to its end: every packet written (R122). -/
theorem send_phase (command : BusCommand) {s : State} {answers : List BusAnswer} (hm : 1 ≤ s.mtu.toNat)
    (hack : Acknowledge answers (framePackets s)) :
    Feeds answers (startSend command s.argB.toNat s)
      (allSent command (framePackets s).length { s with busLog := s.busLog ++ writesOf (framePackets s) }) := by
  have hlen : answers.length = (sendingOf s).count := hack.length_eq.trans (framePackets_length s)
  have hpos : 0 < answers.length := hlen ▸ packetCount_pos hm
  rw [framePackets_length]
  rw [framePackets_eq] at hack ⊢
  have h := send_all command (sendingOf s) answers s (List.length_pos_iff.1 hpos) ((Nat.zero_add _).trans hlen)
    (hlen ▸ hack)
  rw [hlen] at h
  exact h

/-- Settles O32: the transmit phase, and FRAME ends with the number of its packets. -/
theorem frameTransmitsTheMessage : Obligations.FrameTransmitsTheMessage := by
  intro s answers rest hlen hopen hm hack hbus hin
  refine exec_run (i := .frame) (t := succeed _ { s with replyValid := false, busLog := _ }) ?_ hbus hin
  rw [commandStart, frameCommand_starts hlen hopen]
  exact send_phase .frame (s := { s with replyValid := false }) hm hack

/-- Settles O35: the transmit phase cut after the answers given. -/
theorem frameWaitsForEachAnswer : Obligations.FrameWaitsForEachAnswer := by
  intro s answers rest hlen hopen hm hack hlt hbus hin
  have h := send_phase_some .frame (s := { s with replyValid := false }) hack hlt
  rw [← frameCommand_starts hlen hopen] at h
  exact exec_run (i := .frame) h hbus hin

/-! ### The receive phase -/

/-- The receive loop to its end: packets without EOM, and a last one with EOM (R136, R143). -/
theorem receive_to_end (command : BusCommand) (sent : Nat) (ds : List Delivery) (last : Delivery) (r : Receiving)
    (s : State) (hd : ∀ d ∈ ds, d.Acceptable r.mtu r.check ∧ d.header.eom = false)
    (hlast : last.Acceptable r.mtu r.check) (heom : last.header.eom = true)
    (hcap : r.raw + (rawOf (ds ++ [last])).length ≤ s.config.replyCap) :
    Feeds (answersOf (ds ++ [last])) (awaitPacket command sent r s)
      (succeed (exchangeResult command sent (r.accepted + (ds.length + 1)))
        { s with
          mem := s.mem.write (Space.reply.base + r.raw) (rawOf (ds ++ [last]))
          rawLen := BitVec.ofNat 16 (r.raw + (rawOf (ds ++ [last])).length)
          rxLen := BitVec.ofNat 16 (r.received + (messageOf (ds ++ [last])).length)
          busLog := s.busLog ++ readsOf (ds ++ [last])
          replyValid := true }) := by
  induction ds generalizing r s with
  | nil =>
    have h := receive_one command sent r last s hlast (by simpa [rawOf] using hcap)
    rw [if_pos heom] at h
    simpa [rawOf, messageOf, answersOf, readsOf] using h
  | cons d ds ih =>
    obtain ⟨hacc, hmore⟩ := hd d (by simp)
    simp only [List.cons_append, rawOf_cons, messageOf_cons, readsOf_cons, answersOf_cons, List.length_append,
      List.length_cons] at hcap ⊢
    have h1 := receive_one command sent r d s hacc (by omega)
    rw [if_neg (by simp [hmore])] at h1
    refine feeds_append h1 ?_
    have h2 := ih ⟨r.mtu, r.check, r.raw + d.raw.length, r.received + d.payload.length, r.accepted + 1⟩
      { s with
        mem := s.mem.write (Space.reply.base + r.raw) d.raw
        rawLen := BitVec.ofNat 16 (r.raw + d.raw.length)
        rxLen := BitVec.ofNat 16 (r.received + d.payload.length)
        busLog := s.busLog ++ d.reads }
      (fun e he => hd e (by simp [he])) hlast (by simp only; omega)
    have e1 : r.accepted + 1 + (ds.length + 1) = r.accepted + (ds.length + 1 + 1) := by omega
    have e2 := write_write s.mem (Space.reply.base + r.raw) d.raw (rawOf (ds ++ [last]))
    rw [Nat.add_assoc] at e2
    simp only [Nat.add_assoc, e1, e2, List.append_assoc] at h2 ⊢
    exact h2

/-- The receive phase with a whole response (R135, R142, R143, R147). -/
theorem receive_phase (command : BusCommand) (sent : Nat) {s : State} {ds : List Delivery} {last : Delivery}
    (h : Response s ds last) :
    Feeds (answersOf (ds ++ [last])) (startReceive command sent s)
      (succeed (exchangeResult command sent (ds.length + 1))
        { s with
          mem := s.mem.write 0x4000 (rawOf (ds ++ [last]))
          rawLen := BitVec.ofNat 16 (rawOf (ds ++ [last])).length
          rxLen := BitVec.ofNat 16 (messageOf (ds ++ [last])).length
          busLog := s.busLog ++ readsOf (ds ++ [last])
          replyValid := true }) := by
  obtain ⟨⟨hds, -⟩, hlast, heom, hcap⟩ := h
  have hend := receive_to_end command sent ds last ⟨s.mtu.toNat, s.options.getLsbD 2, 0, 0, 0⟩
    { s with rawLen := 0, rxLen := 0 } hds hlast heom (by simpa using hcap)
  simp only [Nat.zero_add, Nat.add_zero] at hend
  exact hend

/-- The receive phase after packets that leave it in its loop (R135, R142). -/
theorem receive_phase_some (command : BusCommand) (sent : Nat) {s : State} {ds : List Delivery} (hm : s.mem.wf)
    (h : Continues s ds) :
    Feeds (answersOf ds) (startReceive command sent s)
      (awaitPacket command sent
        ⟨s.mtu.toNat, s.options.getLsbD 2, (rawOf ds).length, (messageOf ds).length, ds.length⟩
        { s with
          mem := s.mem.write 0x4000 (rawOf ds)
          rawLen := BitVec.ofNat 16 (rawOf ds).length
          rxLen := BitVec.ofNat 16 (messageOf ds).length
          busLog := s.busLog ++ readsOf ds }) := by
  obtain ⟨hds, hcap⟩ := h
  by_cases hne : ds = []
  · subst hne
    have hw : s.mem.write 0x4000 (rawOf []) = s.mem := write_nil hm _
    rw [hw, show readsOf [] = [] from rfl, List.append_nil]
    exact feeds_nil _
  · have hloop := receive_loop command sent ds hne ⟨s.mtu.toNat, s.options.getLsbD 2, 0, 0, 0⟩
      { s with rawLen := 0, rxLen := 0 } hds (by simpa using hcap)
    simp only [Nat.zero_add, Nat.add_zero] at hloop
    exact hloop

/-- Settles O36: the receive phase, and DEFRAME ends with the number of packets. -/
theorem deframeReceivesAResponse : Obligations.DeframeReceivesAResponse := by
  intro s ds last rest hopen hresp hbus hin
  have hlen : (answersOf (ds ++ [last])).length = 2 * (ds.length + 1) := by simp [answersOf_length]
  have h := receive_phase .deframe 0 (s := { s with replyValid := false }) hresp
  rw [← deframeCommand_starts hopen] at h
  rw [← hlen] at hin ⊢
  exact exec_run (i := .deframe) h hbus hin

/-! ### EXECUTE -/

/-- EXECUTE after its open phase: REPLY_VALID is cleared and the message goes out (R177). -/
theorem execute_opens {s : State} {opens : List BusAnswer} (hlen : s.argB.toNat ≤ s.config.msgCap)
    (h : OpensBus s opens) :
    Feeds opens (commandStart .execute s)
      (startSend .execute s.argB.toNat
        { s with
          replyValid := false, busOpen := true
          busLog := s.busLog ++ List.replicate opens.length .busOpen }) := by
  rw [commandStart, executeCommand_starts hlen]
  exact open_phase .execute h

/-- EXECUTE after its open and its transmit phase (R177). -/
theorem execute_sends {s : State} {opens answers : List BusAnswer} (hlen : s.argB.toNat ≤ s.config.msgCap)
    (hm : 1 ≤ s.mtu.toNat) (h : OpensBus s opens) (hack : Acknowledge answers (framePackets s)) :
    Feeds (opens ++ answers) (commandStart .execute s)
      (startReceive .execute (framePackets s).length
        { s with
          replyValid := false, busOpen := true
          busLog := s.busLog ++ List.replicate opens.length .busOpen ++ writesOf (framePackets s) }) :=
  feeds_append (execute_opens hlen h)
    (send_phase .execute
      (s := { s with
        replyValid := false, busOpen := true
        busLog := s.busLog ++ List.replicate opens.length .busOpen }) hm hack)

/-- Settles O51: EXECUTE's three phases one after the other. -/
theorem executeRunsAnExchange : Obligations.ExecuteRunsAnExchange := by
  intro s opens answers ds last rest hlen hm hopens hack hresp hbus n hin
  have hn : (opens ++ answers ++ answersOf (ds ++ [last])).length = n := by
    simp only [List.length_append, answersOf_length, List.length_singleton]
    rfl
  have hreceive := receive_phase .execute (framePackets s).length
    (s := { s with
      replyValid := false, busOpen := true
      busLog := s.busLog ++ List.replicate opens.length .busOpen ++ writesOf (framePackets s) }) hresp
  rw [← hn] at hin ⊢
  exact exec_run (i := .execute) (feeds_append (execute_sends hlen hm hopens hack) hreceive) hbus hin

end Sys2Proof.Machine
end

section
/-! PROOFS. Where commands wait for the bus (R3, R13, R35, R226): the phases cut before their end, and the steps in
which the bus does not answer. -/

namespace Sys2Proof.Machine

open Sys2Proof

/-- The open phase before its end: failed attempts, and the next one issued (R175). -/
theorem open_phase_some (command : BusCommand) {s : State} {n : Nat} (hclosed : s.busOpen = false)
    (hn : n < s.config.openAttempts) :
    Feeds (List.replicate n .err) (startOpen command s)
      { s with
        running := some ⟨command, 0, .opening (n + 1)⟩
        busLog := s.busLog ++ List.replicate (n + 1) .busOpen } := by
  have h := open_loop command n 1 s (by omega)
  rw [Nat.add_comm 1 n, tryOpen_issues command (attempt := n + 1)
    (s := { s with busLog := s.busLog ++ List.replicate n .busOpen }) hn] at h
  rw [startOpen, if_neg (by simp [hclosed]), List.replicate_succ', ← List.append_assoc]
  exact h

theorem answered_errors (n : Nat) (rest : List BusEvent) :
    answered (List.replicate n .err) rest = List.replicate n (.answer .err) ++ rest := by
  rw [answered, List.map_replicate]

theorem waits_for_open {s : State} {n : Nat} {rest : List BusEvent} {i : Instr} {command : BusCommand}
    (hstart : commandStart i s = startOpen command s) (hclosed : s.busOpen = false)
    (hn : n < s.config.openAttempts) (hbus : s.bus = List.replicate n (.answer .err) ++ rest)
    (hin : NoResetFor n s.inputs) :
    ∃ b, exec i s = .next b ∧ Host.Core.run Sys2Proof.core n b = .next
      { s with
        running := some ⟨command, 0, .opening (n + 1)⟩
        inputs := inputsAfter n s.inputs
        bus := rest
        busLog := s.busLog ++ List.replicate (n + 1) .busOpen } := by
  have h := open_phase_some command hclosed hn
  rw [← hstart] at h
  have hlen : (List.replicate n BusAnswer.err).length = n := List.length_replicate
  have hrun := exec_run h (hbus.trans (answered_errors n rest).symm) (hlen.symm ▸ hin)
  rw [hlen] at hrun
  exact hrun

/-! ### The receive phase -/

/-- Where a receive phase stands after the packets `ds` (R135, R142). -/
def placeAfter (s : State) (ds : List Delivery) : Receiving :=
  ⟨s.mtu.toNat, s.options.getLsbD 2, (rawOf ds).length, (messageOf ds).length, ds.length⟩

/-- The state of a receive phase after the packets `ds`, the bytes `raw` stored, that waits as `r`. -/
def receivingAt (s : State) (ds : List Delivery) (raw : List Byte) (r : Running) (ops : List BusOp) : State :=
  { s with
    replyValid := false, busOpen := true
    rawLen := BitVec.ofNat 16 (rawOf ds).length
    rxLen := BitVec.ofNat 16 (messageOf ds).length
    mem := s.mem.write 0x4000 raw
    running := some r
    busLog := s.busLog ++ ops }

/-- A command whose receive phase starts after the transactions `ops`. -/
def receiveStart (s : State) (command : BusCommand) (sent : Nat) (ops : List BusOp) : State :=
  startReceive command sent { s with replyValid := false, busOpen := true, busLog := s.busLog ++ ops }

/-- After whole packets the phase waits for the next header (R137). -/
theorem receive_awaits_header {s : State} {ds : List Delivery} (command : BusCommand) (sent : Nat) (ops : List BusOp)
    (hm : s.mem.wf) (hds : Continues s ds) (hfit : (rawOf ds).length + 8 ≤ s.config.replyCap) :
    Feeds (answersOf ds) (receiveStart s command sent ops)
      (receivingAt s ds (rawOf ds) ⟨command, sent, .awaitHeader (placeAfter s ds)⟩
        (ops ++ readsOf ds ++ [.busRead 8])) := by
  have h := receive_phase_some command sent
    (s := { s with replyValid := false, busOpen := true, busLog := s.busLog ++ ops }) hm hds
  rw [awaitPacket_fits command sent hfit, issue] at h
  simp only [List.append_assoc] at h ⊢
  exact h

/-- After an acceptable header the phase waits for the packet's body (R140). -/
theorem receive_awaits_body {s : State} {ds : List Delivery} (command : BusCommand) (sent : Nat) (ops : List BusOp)
    (hm : s.mem.wf) (hds : Continues s ds) {h : Header} (unread : Nat) (h5 : 5 ≤ h.byteCount.toNat)
    (hmtu : h.byteCount.toNat ≤ s.mtu.toNat + 5)
    (hfit : (rawOf ds).length + h.byteCount.toNat + 4 ≤ s.config.replyCap) :
    Feeds (answersOf ds ++ [.ok unread h.toBytes]) (receiveStart s command sent ops)
      (receivingAt s ds (rawOf ds ++ h.toBytes) ⟨command, sent, .awaitBody (placeAfter s ds) h⟩
        (ops ++ readsOf ds ++ [.busRead 8, .busRead (h.byteCount.toNat - 4)])) := by
  obtain ⟨n, hn⟩ := Nat.exists_eq_add_of_le' h5
  rw [hn] at hmtu hfit ⊢
  refine feeds_append (receive_awaits_header command sent ops hm hds (by omega)) (feeds_cons rfl ?_)
  have hbody := headerAnswered_ok command sent (placeAfter s ds) h n unread
    (s := receivingAt s ds (rawOf ds) ⟨command, sent, .awaitHeader (placeAfter s ds)⟩
      (ops ++ readsOf ds ++ [.busRead 8])) hn (Nat.le_of_add_le_add_right hmtu)
    (show (rawOf ds).length + (n + 9) ≤ s.config.replyCap by omega)
  refine Eq.trans ?_ hbody.symm
  simp only [receivingAt, placeAfter, issue, memWrite, base_reply, write_write, List.append_assoc,
    List.cons_append, List.nil_append, Nat.reduceSubDiff]

/-- Settles O55, wait by wait. -/
theorem commandsWaitForTheBus : Obligations.CommandsWaitForTheBus := by
  refine ⟨fun s n rest i command hi hclosed hn hbus hin => ?_,
    fun s opens answers rest hlen hm hopens hack hlt hbus hin => ?_, ?_,
    fun s r hr hin => ⟨step_unanswered hr hin, fun rest => step_silent hr hin⟩⟩
  · refine waits_for_open ?_ hclosed hn hbus hin
    rcases hi with ⟨rfl, rfl⟩ | ⟨rfl, rfl, hlen⟩
    · rfl
    · exact executeCommand_starts hlen
  · have hsend := send_phase_some .execute
      (s := { s with
        replyValid := false, busOpen := true
        busLog := s.busLog ++ List.replicate opens.length .busOpen }) hack hlt
    rw [← List.length_append] at hin ⊢
    exact exec_run (i := .execute) (feeds_append (execute_opens hlen hopens) hsend) hbus hin
  · intro s ds rest hm hds place waiting waits
    have hwaits : ∀ i command sent before ops,
        Feeds before (commandStart i s) (receiveStart s command sent ops) → waits i command sent before ops := by
      intro i command sent before ops hstart
      refine ⟨fun hfit hbus hin => ?_, fun h unread h5 hmtu hfit hbus hin => ?_⟩
      · have hn : (before ++ answersOf ds).length = before.length + 2 * ds.length := by
          rw [List.length_append, answersOf_length]
        rw [← hn] at hin ⊢
        exact exec_run (feeds_append hstart (receive_awaits_header command sent ops hm hds hfit)) hbus hin
      · have hn : (before ++ (answersOf ds ++ [BusAnswer.ok unread h.toBytes])).length =
            before.length + 2 * ds.length + 1 := by
          rw [List.length_append, List.length_append, answersOf_length]
          rfl
        rw [List.append_assoc] at hbus
        rw [← hn] at hin ⊢
        exact exec_run (feeds_append hstart (receive_awaits_body command sent ops hm hds unread h5 hmtu hfit)) hbus hin
    refine ⟨fun hopen => hwaits .deframe .deframe 0 [] [] ?_, fun opens answers hlen hm hopens hack =>
      hwaits .execute .execute _ _ _ ?_⟩
    · rw [receiveStart, List.append_nil, ← hopen]
      exact (deframeCommand_starts hopen).symm
    · have h := execute_sends hlen hm hopens hack
      rw [List.append_assoc] at h
      exact h

end Sys2Proof.Machine
end

section
/-! PROOFS. A silent bus only delays (R3, R226): a step of the machine with the silences taken out of the bus's events
is matched by a run of the machine itself that passes the silences first. -/

namespace Sys2Proof.Machine

open Sys2Proof

/-! ### What host and bus will do is not read by what an access does -/

section
variable (s : State) (i : List Input) (b : List BusEvent)

theorem startOpen_facing (command : BusCommand) :
    startOpen command (s.facing i b) = (startOpen command s).facing i b := by
  unfold startOpen
  rw [apply_ite (fun x : State => x.facing i b), ← tryOpen_facing]
  cases command <;> rfl

/-- The start of a command commutes with a change of what host and bus will do. -/
theorem commandStart_facing (x : Instr) : commandStart x (s.facing i b) = (commandStart x s).facing i b := by
  cases x with
  | crc8 | crc32 | frame | extract _ _ | peek | closeBus =>
    simp only [commandStart, checksumCommand, frameCommand, extractCommand, peekCommand, closeCommand,
      apply_ite (fun x : State => x.facing i b)]
    rfl
  | deframe =>
    simp only [commandStart, deframeCommand, apply_ite (fun x : State => x.facing i b), ← startReceive_facing]
    rfl
  | execute =>
    simp only [commandStart, executeCommand, apply_ite (fun x : State => x.facing i b), ← startOpen_facing]
    rfl
  | openBus => exact startOpen_facing s i b .openBus

theorem writeReg_facing (r : Reg) (v : Word) : writeReg r v (s.facing i b) = (writeReg r v s).facing i b := by
  cases r with
  | mtu =>
    simp only [writeReg, apply_ite (fun x : State => x.facing i b)]
    rfl
  | cmd | argA | argB | status | result | rxLen | rawLen | addr | options => rfl

theorem write8_facing (a : Nat) (v : Byte) : write8 a v (s.facing i b) = (write8 a v s).facing i b := by
  unfold write8
  rw [show (s.facing i b).config = s.config from rfl]
  split <;> rfl

theorem read8_facing (a : Nat) : read8 a (s.facing i b) = (read8 a s).facing i b := by
  unfold read8
  rw [show (s.facing i b).config = s.config from rfl]
  split <;> rfl

theorem read32_facing (a : Nat) : read32 a (s.facing i b) = (read32 a s).facing i b := by
  unfold read32
  split
  · next r _ => cases r <;> rfl
  · rfl

variable {s}

theorem write32_facing {t : State} {a : Nat} {v : Word} (h : write32 a v s = .next t) :
    write32 a v (s.facing i b) = .next (t.facing i b) := by
  unfold write32 writeCmd at h ⊢
  split at h
  · split at h
    · cases h
      rfl
    · next x _ =>
      cases (exec_eq x s).symm.trans h
      rw [exec_eq, commandStart_facing]
  · cases h
    rw [writeReg_facing]
    rfl
  · cases h
    rfl

/-- An access commutes with a change of what host and bus will do. -/
theorem hostAccess_facing {t : State} {x : HostAccess} (h : hostAccess x s = .next t) :
    hostAccess x (s.facing i b) = .next (t.facing i b) := by
  cases x with
  | write32 a v => exact write32_facing i b h
  | read32 a =>
    cases h
    exact congrArg _ (read32_facing ..)
  | write8 a v =>
    cases h
    exact congrArg _ (write8_facing ..)
  | read8 a =>
    cases h
    exact congrArg _ (read8_facing ..)

end

/-- An access leaves what host and bus will do as it is. -/
theorem hostAccess_keeps_future {s t : State} {x : HostAccess} (h : hostAccess x s = .next t) :
    t.facing s.inputs s.bus = t := by
  have := hostAccess_facing s.inputs s.bus h
  rw [show s.facing s.inputs s.bus = s from rfl, h] at this
  exact (Host.Outcome.next.inj this).symm

/-! ### Passing the silences -/

/-- The machine with the silences taken out of what the bus will do. -/
def State.unsilenced (s : State) : State := s.facing s.inputs (answersOnly s.bus)

theorem answersOnly_silences (n : Nat) (rest : List BusEvent) :
    answersOnly (List.replicate n .silent ++ rest) = answersOnly rest := by
  simp [answersOnly]

/-- What the bus will do begins with some silences, and then it answers or is done. -/
theorem bus_cases (events : List BusEvent) :
    ∃ n, events = List.replicate n .silent ∨ ∃ a rest, events = List.replicate n .silent ++ .answer a :: rest := by
  induction events with
  | nil => exact ⟨0, .inl rfl⟩
  | cons e events ih =>
    cases e with
    | answer a => exact ⟨0, .inr ⟨a, events, rfl⟩⟩
    | silent =>
      obtain ⟨n, rfl | ⟨a, rest, rfl⟩⟩ := ih
      · exact ⟨n + 1, .inl rfl⟩
      · exact ⟨n + 1, .inr ⟨a, rest, rfl⟩⟩

theorem inputsAfter_one {l : List Input} (h : .wait ∉ l) : inputsAfter 1 l = l := by
  match l with
  | [] | .host _ :: _ | .reset :: _ => rfl
  | .wait :: _ => simp at h

/-- A running command passes each silence in a step. -/
theorem run_silences (n : Nat) {s : State} {r : Running} {rest : List BusEvent} (hr : s.running = some r)
    (hin : ∀ rest, s.inputs ≠ .reset :: rest) (hw : .wait ∉ s.inputs)
    (hb : s.bus = List.replicate n .silent ++ rest) :
    Host.Core.run Sys2Proof.core n s = .next (s.facing s.inputs rest) := by
  induction n generalizing s with
  | zero =>
    rw [← show s.bus = rest from hb]
    rfl
  | succ n ih =>
    have hstep := step_silent hr hin hb
    rw [inputsAfter_one hw] at hstep
    rw [run_succ hstep]
    exact ih (s := s.facing s.inputs (List.replicate n .silent ++ rest)) hr hin hw rfl

/-- A step in which the bus answers, whatever it does after. -/
theorem step_facing_answer {s : State} {r : Running} {a : BusAnswer} {rest : List BusEvent} (hr : s.running = some r)
    (hin : ∀ rest, s.inputs ≠ .reset :: rest) (hw : .wait ∉ s.inputs) :
    step (s.facing s.inputs (.answer a :: rest)) = .next ((takeAnswer r a s).facing s.inputs rest) := by
  rw [step_answer (s := s.facing s.inputs (.answer a :: rest)) hr hin rfl, facing_facing, takeAnswer_facing]
  exact congrArg (fun l => Host.Outcome.next ((takeAnswer r a s).facing l rest)) (inputsAfter_one hw)

/-- A step of a running command with the silences taken out is matched by a run that passes them. -/
theorem unsilenced_step_running {s t : State} {r : Running} (hr : s.running = some r)
    (hin : ∀ rest, s.inputs ≠ .reset :: rest) (hw : .wait ∉ s.inputs) (h : step s.unsilenced = .next t) :
    ∃ m u, Host.Core.run Sys2Proof.core m s = .next u ∧
      m + u.bus.count .silent ≤ s.bus.count .silent + 1 ∧ t = u.unsilenced ∧ .wait ∉ u.inputs := by
  obtain ⟨n, hb | ⟨a, rest, hb⟩⟩ := bus_cases s.bus
  · have hnone : s.unsilenced.bus = [] := by
      rw [← List.append_nil (List.replicate n _)] at hb
      exact (congrArg answersOnly hb).trans (answersOnly_silences n [])
    have hstep := step_unanswered (s := s.unsilenced) hr hin hnone
    cases hstep.symm.trans h
    refine ⟨0, s, rfl, by omega, ?_, hw⟩
    rw [show s.unsilenced.inputs = s.inputs from rfl, inputsAfter_one hw]
    rfl
  · have hanswer : s.unsilenced = s.facing s.inputs (.answer a :: answersOnly rest) :=
      congrArg (s.facing s.inputs) ((congrArg answersOnly hb).trans (answersOnly_silences n _))
    rw [hanswer, step_facing_answer hr hin hw] at h
    cases h
    have hpass := run_silences n hr hin hw hb
    have htake := run_succ (step_facing_answer hr hin hw (a := a) (rest := rest)) 0
    have hcount : s.bus.count .silent = n + rest.count .silent := by simp [hb]
    exact ⟨n + 1, _, (run_add hpass 1).trans htake, show n + 1 + rest.count .silent ≤ _ by omega, rfl, hw⟩

/-- Every step with the silences taken out is matched: a reset, or a step of the idle machine, passes none. -/
theorem unsilenced_step {s t : State} (hw : .wait ∉ s.inputs) (h : step s.unsilenced = .next t) :
    ∃ m u, Host.Core.run Sys2Proof.core m s = .next u ∧
      m + u.bus.count .silent ≤ s.bus.count .silent + 1 ∧ t = u.unsilenced ∧ .wait ∉ u.inputs := by
  match hin : s.inputs with
  | .reset :: rest =>
    cases (step_reset (s := s.unsilenced) hin).symm.trans h
    exact ⟨1, _, run_succ (step_reset hin) 0, (Nat.add_comm ..).le, rfl,
      fun hmem => hw (hin ▸ List.mem_cons_of_mem _ hmem)⟩
  | .wait :: rest => simp [hin] at hw
  | [] =>
    match hr : s.running with
    | some r => exact unsilenced_step_running hr (by simp [hin]) hw h
    | none =>
      cases (step_no_input (s := s.unsilenced) hin).symm.trans h
      exact ⟨0, s, rfl, by omega, tick_idle hr, hw⟩
  | .host x :: rest =>
    match hr : s.running with
    | some r => exact unsilenced_step_running hr (by simp [hin]) hw h
    | none =>
      rw [step_host (s := s.unsilenced) hr hin] at h
      have haccess := hostAccess_facing rest s.bus h
      refine ⟨1, _, run_succ ((step_host hr hin).trans haccess) 0, (Nat.add_comm ..).le,
        (hostAccess_keeps_future h).symm, fun hmem => hw (hin ▸ List.mem_cons_of_mem _ hmem)⟩

/-- Settles O56, by induction on the steps of the machine with the silences taken out. -/
theorem silenceOnlyDelays : Obligations.SilenceOnlyDelays := by
  intro s t n hw h
  induction n generalizing s with
  | zero =>
    cases h
    exact ⟨0, s, rfl, le_rfl, rfl⟩
  | succ n ih =>
    obtain ⟨v, hstep, hrun⟩ := run_succ_next h
    obtain ⟨m, u, hpass, hcount, rfl, hw'⟩ := unsilenced_step hw hstep
    obtain ⟨m', u', hrun', hcount', ht⟩ := ih u hw' hrun
    exact ⟨m + m', u', (run_add hpass m').trans hrun', by omega, ht⟩

end Sys2Proof.Machine
end

section
/-! PROOFS. Which command writes what (R24, R32, R33, R56, R57), and how every command ends or goes on: SHORT is set by
an EXTRACT alone (R34), and what runs on is the same command (R35). -/

namespace Sys2Proof.Machine

open Sys2Proof

/-! ### What each command may write -/

/-- The host command that a running command is. -/
def BusCommand.instr : BusCommand → Instr
  | .frame => .frame
  | .deframe => .deframe
  | .execute => .execute
  | .openBus => .openBus
  | .closeBus => .closeBus

theorem instr_injective {c c' : BusCommand} (h : c.instr = c'.instr) : c = c' := by
  cases c <;> cases c' <;> cases h <;> rfl

/-- The writers of REPLYBUF, RX_LEN and RAW_LEN (R29, R30, R56). -/
def WritesReply (i : Instr) : Prop := i = .deframe ∨ i = .execute

/-- The writers of OUTBUF (R57). -/
def WritesOut (i : Instr) : Prop := (∃ adm dstp, i = .extract adm dstp) ∨ i = .peek

/-- The writers of BUS_OPEN (R33). -/
def WritesBusOpen (i : Instr) : Prop := i = .openBus ∨ i = .closeBus ∨ i = .execute

/-- The writers of REPLY_VALID (R32). -/
def WritesReplyValid (i : Instr) : Prop := i = .frame ∨ i = .deframe ∨ i = .execute

theorem WritesReply.replyValid {i : Instr} (h : WritesReply i) : WritesReplyValid i := .inr h

theorem not_writesOut_instr (c : BusCommand) : ¬WritesOut c.instr := by
  cases c <;> simp [WritesOut, BusCommand.instr]

theorem instr_ne_extract (c : BusCommand) (adm dstp : Bool) : c.instr ≠ .extract adm dstp :=
  fun h => not_writesOut_instr c (.inl ⟨adm, dstp, h⟩)

/-- REPLYBUF and its counters are in `t` as in `s`. -/
def ReplyKept (s t : State) : Prop :=
  t.rxLen = s.rxLen ∧ t.rawLen = s.rawLen ∧ ∀ j, readByte t .reply j = readByte s .reply j

/-- OUTBUF is in `t` as in `s`. -/
def OutKept (s t : State) : Prop := ∀ j, readByte t .out j = readByte s .out j

/-- From `s` to `t` nothing changed but what `i` may write. (That the windows are apart takes legal parameters.) -/
structure Confined (i : Instr) (s t : State) : Prop where
  config : t.config = s.config
  reply : s.config.Legal → ¬WritesReply i → ReplyKept s t
  out : s.config.Legal → ¬WritesOut i → OutKept s t
  busOpen : ¬WritesBusOpen i → t.busOpen = s.busOpen
  replyValid : ¬WritesReplyValid i → t.replyValid = s.replyValid

namespace Confined

variable {i : Instr} {s u : State}

theorem refl (i : Instr) (s : State) : Confined i s s :=
  ⟨rfl, fun _ _ => ⟨rfl, rfl, fun _ => rfl⟩, fun _ _ _ => rfl, fun _ => rfl, fun _ => rfl⟩

theorem facing (i : Instr) (s : State) (inputs : List Input) (bus : List BusEvent) :
    Confined i s (s.facing inputs bus) :=
  ⟨rfl, fun _ _ => ⟨rfl, rfl, fun _ => rfl⟩, fun _ _ _ => rfl, fun _ => rfl, fun _ => rfl⟩

theorem finish (h : Confined i s u) (code : StatusCode) (short : Bool) (result : Word) :
    Confined i s (finish code short result u) :=
  ⟨h.config, h.reply, h.out, h.busOpen, h.replyValid⟩

theorem issue (h : Confined i s u) (op : BusOp) (r : Running) : Confined i s (issue op r u) :=
  ⟨h.config, h.reply, h.out, h.busOpen, h.replyValid⟩

theorem setResult (h : Confined i s u) (result : Word) : Confined i s { u with result := result } :=
  ⟨h.config, h.reply, h.out, h.busOpen, h.replyValid⟩

theorem setBusOpen (h : Confined i s u) (hi : WritesBusOpen i) (isOpen : Bool) :
    Confined i s { u with busOpen := isOpen } :=
  ⟨h.config, h.reply, h.out, fun hn => absurd hi hn, h.replyValid⟩

theorem setReplyValid (h : Confined i s u) (hi : WritesReplyValid i) (valid : Bool) :
    Confined i s { u with replyValid := valid } :=
  ⟨h.config, h.reply, h.out, h.busOpen, fun hn => absurd hi hn⟩

theorem setCounters (h : Confined i s u) (hi : WritesReply i) (raw received : Half) :
    Confined i s { u with rawLen := raw, rxLen := received } :=
  ⟨h.config, fun _ hn => absurd hi hn, h.out, h.busOpen, h.replyValid⟩

/-- A write into REPLYBUF's window changes no byte of OUTBUF. -/
theorem memWrite_reply (h : Confined i s u) (hi : WritesReply i) {a : Nat} {bs : List Byte}
    (hfit : a + bs.length ≤ u.config.replyCap) : Confined i s (memWrite .reply a bs u) := by
  refine ⟨h.config, fun _ hn => absurd hi hn, fun hc hn j => ?_, h.busOpen, h.replyValid⟩
  have hc' : u.config.Legal := h.config ▸ hc
  have hother := readByte_memWrite_other hc' (sp := .reply) (sp' := .out) nofun (hfit.trans (cap_le hc' .reply)) j
  exact hother.trans (h.out hc hn j)

theorem havoc_reply (h : Confined i s u) (hi : WritesReply i) : Confined i s (havoc .reply u) :=
  ⟨h.config, fun _ hn => absurd hi hn,
    fun hc hn j => (readByte_havoc_other (h.config ▸ hc) (sp := .reply) (sp' := .out) nofun j).trans (h.out hc hn j),
    h.busOpen, h.replyValid⟩

/-- A write into OUTBUF's window changes no byte of REPLYBUF. -/
theorem memWrite_out (h : Confined i s u) (hi : WritesOut i) {a : Nat} {bs : List Byte}
    (hfit : a + bs.length ≤ u.config.outCap) : Confined i s (memWrite .out a bs u) := by
  refine ⟨h.config, fun hc hn => ?_, fun _ hn => absurd hi hn, h.busOpen, h.replyValid⟩
  have hc' : u.config.Legal := h.config ▸ hc
  have hother := readByte_memWrite_other hc' (sp := .out) (sp' := .reply) nofun (hfit.trans (cap_le hc' .out))
  obtain ⟨hreceived, hraw, hbytes⟩ := h.reply hc hn
  exact ⟨hreceived, hraw, fun j => (hother j).trans (hbytes j)⟩

end Confined

/-! ### A command ends or goes on as itself -/

/-- What the start of `i`, or one answer to it, leaves: the command is over, with SHORT clear but after a successful
EXTRACT (R34), or it has issued a transaction and runs on as the command it is. Provided `ok`, the updates before
that are confined to what `i` may write. -/
inductive Proceeds (ok : Prop) (i : Instr) (s : State) : State → Prop
  | ends {u : State} (h : ok → Confined i s u) (code : StatusCode) (short : Bool) (result : Word)
      (hshort : short = true → (∃ adm dstp, i = .extract adm dstp) ∧ code = .ok) :
      Proceeds ok i s (finish code short result u)
  | issues {u : State} (h : ok → Confined i s u) (op : BusOp) (r : Running) (hr : r.command.instr = i) :
      Proceeds ok i s (issue op r u)

namespace Proceeds

variable {ok : Prop} {i : Instr} {s t u : State}

theorem fails (h : ok → Confined i s u) (code : StatusCode) (result : Word) :
    Proceeds ok i s (raiseError code result u) :=
  .ends h code false result nofun

theorem succeeds (h : ok → Confined i s u) (result : Word) : Proceeds ok i s (succeed result u) :=
  .ends h .ok false result nofun

theorem confined (h : Proceeds ok i s t) (hok : ok) : Confined i s t := by
  cases h with
  | ends h => exact (h hok).finish ..
  | issues h => exact (h hok).issue ..

theorem command (h : Proceeds ok i s t) {r : Running} (ht : t.running = some r) : r.command.instr = i := by
  cases h with
  | ends => cases ht
  | issues _ _ _ hr =>
    cases ht
    exact hr

/-- A command that is none of those that use the bus is over at once. -/
theorem ended_at_once (h : Proceeds ok i s t) (hi : ∀ c : BusCommand, c.instr ≠ i) : t.running = none :=
  Option.eq_none_iff_forall_ne_some.2 fun r hr => hi r.command (h.command hr)

theorem short_clear (h : Proceeds ok i s t) (ht : t.running = none)
    (hi : (∀ adm dstp, i ≠ .extract adm dstp) ∨ t.err ≠ .ok) : t.short = false := by
  cases h with
  | ends _ code short result hshort =>
    refine Bool.eq_false_iff.2 fun hs => ?_
    obtain ⟨⟨adm, dstp, hextract⟩, hcode⟩ := hshort hs
    exact hi.elim (fun hne => hne adm dstp hextract) (fun hne => hne hcode)
  | issues => cases ht

end Proceeds

/-! ### The engine's functions -/

section
variable {ok : Prop} {command : BusCommand} {s u : State}

theorem receiveFailed_proceeds (h : ok → Confined command.instr s u) (hw : ok → WritesReply command.instr) (sent : Nat)
    (r : Receiving) (code : StatusCode) : Proceeds ok command.instr s (receiveFailed command sent r code u) :=
  .fails (fun hok => (h hok).havoc_reply (hw hok)) ..

theorem awaitPacket_proceeds (h : ok → Confined command.instr s u) (hw : ok → WritesReply command.instr) (sent : Nat)
    (r : Receiving) : Proceeds ok command.instr s (awaitPacket command sent r u) := by
  unfold awaitPacket
  split
  · exact receiveFailed_proceeds h hw ..
  · exact .issues h _ _ rfl

theorem startReceive_proceeds (h : ok → Confined command.instr s u) (hw : ok → WritesReply command.instr) (sent : Nat) :
    Proceeds ok command.instr s (startReceive command sent u) :=
  awaitPacket_proceeds (fun hok => (h hok).setCounters (hw hok) 0 0) hw ..

theorem headerAnswered_proceeds (h : ok → Confined command.instr s u) (hw : ok → WritesReply command.instr) (sent : Nat)
    {r : Receiving} (hfit : ok → r.raw + 8 ≤ u.config.replyCap) (a : BusAnswer) :
    Proceeds ok command.instr s (headerAnswered command sent r a u) := by
  match a with
  | .err => exact receiveFailed_proceeds h hw ..
  | .ok _ t =>
    unfold headerAnswered
    dsimp only
    split
    · exact receiveFailed_proceeds h hw ..
    · next hd heq =>
      have ht : t.length = 8 := by rw [header_ofBytes_some heq, header_toBytes_length]
      have hstored (hok : ok) : Confined command.instr s (memWrite .reply r.raw t u) :=
        (h hok).memWrite_reply (hw hok) (ht ▸ hfit hok)
      split
      · exact receiveFailed_proceeds hstored hw ..
      split
      · exact receiveFailed_proceeds hstored hw ..
      · exact .issues hstored _ _ rfl

theorem bodyAnswered_proceeds (h : ok → Confined command.instr s u) (hw : ok → WritesReply command.instr) (sent : Nat)
    {r : Receiving} {hd : Header}
    (hfit : ok → 5 ≤ hd.byteCount.toNat ∧ r.raw + hd.byteCount.toNat + 4 ≤ u.config.replyCap) (a : BusAnswer) :
    Proceeds ok command.instr s (bodyAnswered command sent r hd a u) := by
  match a with
  | .err => exact receiveFailed_proceeds h hw ..
  | .ok _ t =>
    unfold bodyAnswered
    dsimp only
    split
    · exact receiveFailed_proceeds h hw ..
    · next ht =>
      have hstored (hok : ok) : Confined command.instr s (memWrite .reply (r.raw + 8) t u) :=
        (h hok).memWrite_reply (hw hok) (by have := hfit hok; omega)
      have hcounted (hok : ok) := (hstored hok).setCounters (hw hok)
        (BitVec.ofNat 16 (r.accept hd.byteCount.toNat).raw) (BitVec.ofNat 16 (r.accept hd.byteCount.toNat).received)
      split
      · exact receiveFailed_proceeds hstored hw ..
      split
      · exact .succeeds (fun hok => (hcounted hok).setReplyValid (hw hok).replyValid true) _
      · exact awaitPacket_proceeds hcounted hw ..

theorem sendPacket_proceeds (h : ok → Confined command.instr s u) (f : Sending) :
    Proceeds ok command.instr s (sendPacket command f u) :=
  .issues h _ _ rfl

theorem sendFailed_proceeds (h : ok → Confined command.instr s u) (sent : Nat) :
    Proceeds ok command.instr s (sendFailed command sent u) := by
  unfold sendFailed
  split
  · exact .fails (fun hok => (h hok).havoc_reply (.inr rfl)) ..
  · exact .fails h ..

theorem allSent_proceeds (h : ok → Confined command.instr s u) (sent : Nat) :
    Proceeds ok command.instr s (allSent command sent u) := by
  unfold allSent
  split
  · exact startReceive_proceeds h (fun _ => .inr rfl) sent
  · exact .succeeds h _

theorem writeAnswered_proceeds (h : ok → Confined command.instr s u) (f : Sending) (a : BusAnswer) :
    Proceeds ok command.instr s (writeAnswered command f a u) := by
  match a with
  | .err => exact sendFailed_proceeds h ..
  | .ok _ _ =>
    unfold writeAnswered
    dsimp only
    split
    · exact sendFailed_proceeds h ..
    split
    · exact sendPacket_proceeds h ..
    · exact allSent_proceeds h ..

theorem opened_proceeds (h : ok → Confined command.instr s u) (attempts : Nat) :
    Proceeds ok command.instr s (opened command attempts u) := by
  unfold opened
  split
  · exact sendPacket_proceeds (fun hok => (h hok).setReplyValid (.inr (.inr rfl)) false) _
  · exact .succeeds h _

theorem tryOpen_proceeds (h : ok → Confined command.instr s u) (attempt : Nat) :
    Proceeds ok command.instr s (tryOpen command attempt u) := by
  unfold tryOpen openFailed
  split
  · exact .issues h _ _ rfl
  split <;> exact .fails h ..

theorem startOpen_proceeds (h : ok → Confined command.instr s u) :
    Proceeds ok command.instr s (startOpen command u) := by
  unfold startOpen
  split
  · exact opened_proceeds h 0
  · exact tryOpen_proceeds h 1

theorem openAnswered_proceeds (h : ok → Confined command.instr s u) (hw : ok → WritesBusOpen command.instr)
    (attempt : Nat) (a : BusAnswer) : Proceeds ok command.instr s (openAnswered command attempt a u) := by
  match a with
  | .err => exact tryOpen_proceeds h ..
  | .ok _ _ => exact opened_proceeds (fun hok => (h hok).setBusOpen (hw hok) true) attempt

theorem closeAnswered_proceeds (h : ok → Confined command.instr s u) (hw : ok → WritesBusOpen command.instr)
    (a : BusAnswer) : Proceeds ok command.instr s (closeAnswered a u) := by
  have hclosed (hok : ok) := (h hok).setBusOpen (hw hok) false
  match a with
  | .err => exact .fails hclosed ..
  | .ok _ _ => exact .succeeds hclosed _

end

/-- A receive phase belongs to a command that may write the reply (R135). -/
theorem receivingOk_writesReply {s : State} {command : BusCommand} {r : Receiving} (h : ReceivingOk s command r) :
    WritesReply command.instr := by
  obtain ⟨hcommand, -⟩ := h
  exact hcommand.imp (congrArg _) (congrArg _)

/-- One answer of the bus: the invariant says that the phase is one of the running command's own. -/
theorem takeAnswer_proceeds {s : State} {r : Running} (hr : s.running = some r) (a : BusAnswer) :
    Proceeds (Inv s) r.command.instr s (takeAnswer r a s) := by
  obtain ⟨command, sent, phase⟩ := r
  have h (_ : Inv s) := Confined.refl command.instr s
  have hp (hok : Inv s) : PhaseOk s command phase := hok.phase _ hr
  match phase with
  | .opening attempt =>
    refine openAnswered_proceeds h (fun hok => ?_) attempt a
    obtain ⟨rfl | ⟨rfl, -⟩, -⟩ := hp hok
    · exact .inl rfl
    · exact .inr (.inr rfl)
  | .sending f => exact writeAnswered_proceeds h f a
  | .awaitHeader p =>
    exact headerAnswered_proceeds h (fun hok => receivingOk_writesReply (hp hok)) sent
      (fun hok => receivingOk_fits (hp hok)) a
  | .awaitBody p hd =>
    refine bodyAnswered_proceeds h (fun hok => ?_) sent (fun hok => ?_) a
    · obtain ⟨hreceiving, -⟩ := hp hok
      exact receivingOk_writesReply hreceiving
    · obtain ⟨-, h5, -, hfit⟩ := hp hok
      exact ⟨h5, hfit⟩
  | .closing =>
    refine closeAnswered_proceeds h (fun hok => ?_) a
    obtain ⟨rfl, -⟩ := hp hok
    exact .inr (.inl rfl)

/-! ### The start of a command -/

section
variable (s : State)

theorem checksumCommand_proceeds (i : Instr) (f : List Byte → Word) : Proceeds True i s (checksumCommand f s) := by
  have h (_ : True) := Confined.refl i s
  unfold checksumCommand
  split
  · exact .fails h ..
  · exact .succeeds h _

theorem frameCommand_proceeds : Proceeds True .frame s (frameCommand s) := by
  have h (_ : True) := Confined.refl .frame s
  unfold frameCommand
  split
  · exact .fails h ..
  split
  · exact .fails h ..
  · exact sendPacket_proceeds (command := .frame) (fun hok => (h hok).setReplyValid (.inl rfl) false) _

theorem deframeCommand_proceeds : Proceeds True .deframe s (deframeCommand s) := by
  have h (_ : True) := Confined.refl .deframe s
  unfold deframeCommand
  split
  · exact .fails h ..
  · exact startReceive_proceeds (command := .deframe) (fun hok => (h hok).setReplyValid (.inr (.inl rfl)) false)
      (fun _ => .inl rfl) 0

theorem executeCommand_proceeds : Proceeds True .execute s (executeCommand s) := by
  have h (_ : True) := Confined.refl .execute s
  unfold executeCommand
  split
  · exact .fails h ..
  · exact startOpen_proceeds (command := .execute) h

theorem extractCommand_proceeds (adm dstp : Bool) :
    Proceeds True (.extract adm dstp) s (extractCommand adm dstp s) := by
  have h (_ : True) := Confined.refl (.extract adm dstp) s
  unfold extractCommand
  split
  · exact .fails h ..
  split
  · exact .fails h ..
  split
  · exact .fails h ..
  · next hcap _ =>
    have hlen : (extractedBytes adm s).length ≤ operandB s := by simp [extractedBytes, copyCount]
    exact .ends (fun hok => (h hok).memWrite_out (.inl ⟨adm, dstp, rfl⟩) (by omega)) _ _ _
      fun _ => ⟨⟨adm, dstp, rfl⟩, rfl⟩

theorem peekCommand_proceeds : Proceeds True .peek s (peekCommand s) := by
  have h (_ : True) := Confined.refl .peek s
  unfold peekCommand
  split
  · exact .fails h ..
  split
  · exact .fails h ..
  · next hfit _ =>
    exact .succeeds (fun hok => (h hok).memWrite_out (.inr rfl) (by rw [memRead_length]; omega)) _

theorem closeCommand_proceeds : Proceeds True .closeBus s (closeCommand s) := by
  have h (_ : True) := Confined.refl .closeBus s
  unfold closeCommand
  split
  · exact .succeeds h _
  · exact .issues (fun hok => (h hok).setResult 0) _ _ rfl

end

theorem commandStart_proceeds (i : Instr) (s : State) : Proceeds True i s (commandStart i s) := by
  cases i with
  | crc8 => exact checksumCommand_proceeds s .crc8 (fun bytes => (crc8 bytes).zeroExtend 32)
  | crc32 => exact checksumCommand_proceeds s .crc32 (crc32 s.config)
  | frame => exact frameCommand_proceeds s
  | deframe => exact deframeCommand_proceeds s
  | execute => exact executeCommand_proceeds s
  | extract adm dstp => exact extractCommand_proceeds s adm dstp
  | peek => exact peekCommand_proceeds s
  | openBus => exact startOpen_proceeds (command := .openBus) fun _ => .refl .openBus s
  | closeBus => exact closeCommand_proceeds s

/-! ### The statements -/

/-- CRC8, CRC32, PEEK and EXTRACT are over at once, without a bus transaction. -/
theorem commandStart_over {i : Instr}
    (hi : i = .crc8 ∨ i = .crc32 ∨ i = .peek ∨ ∃ adm dstp, i = .extract adm dstp) (s : State) :
    (commandStart i s).running = none ∧ (commandStart i s).busLog = s.busLog ∧ (commandStart i s).bus = s.bus := by
  have hadv := commandStart_advances i s
  have hover : (commandStart i s).running = none := (commandStart_proceeds i s).ended_at_once fun c hc => by
    rcases hi with rfl | rfl | rfl | ⟨adm, dstp, rfl⟩ <;> cases c <;> cases hc
  exact ⟨hover, (hadv.of_over hover).2, hadv.bus⟩

/-- A step of a running command without a reset, under the invariant: it writes only what the command may write, and
what runs on is the same command. -/
theorem step_running_confined {s t : State} {r : Running} (h : Inv s) (hr : s.running = some r)
    (hin : ∀ rest, s.inputs ≠ .reset :: rest) (ht : step s = .next t) :
    Confined r.command.instr s t ∧ ∀ r', t.running = some r' → r'.command = r.command := by
  rcases step_running_cases hr hin with ⟨rest, h'⟩ | ⟨a, rest, h'⟩
  · cases h'.symm.trans ht
    refine ⟨.facing .., fun r' hr' => ?_⟩
    cases hr.symm.trans hr'
    rfl
  · cases h'.symm.trans ht
    have hp := takeAnswer_proceeds (s := s.facing (inputsAfter 1 s.inputs) rest) hr a
    obtain ⟨hconfig, hreply, hout, hopen, hvalid⟩ := hp.confined (h.facing ..)
    exact ⟨⟨hconfig, hreply, hout, hopen, hvalid⟩, fun r' hr' => instr_injective (hp.command hr')⟩

/-- Settles O59: the start of a command and each step of it are confined to what the command may write. -/
theorem onlyTheirCommandsWrite : Obligations.OnlyTheirCommandsWrite := by
  refine ⟨fun i s t hc ht => ?_, fun s t r h hr hin ht => ?_⟩
  · cases (exec_eq i s).symm.trans ht
    obtain ⟨-, hreply, hout, hopen, hvalid⟩ := (commandStart_proceeds i s).confined trivial
    exact ⟨fun h₁ h₂ => hreply hc (not_or.2 ⟨h₁, h₂⟩),
      fun h₁ h₂ => hout hc (not_or.2 ⟨fun ⟨adm, dstp, hi⟩ => h₁ adm dstp hi, h₂⟩),
      fun h₁ h₂ h₃ => hopen (not_or.2 ⟨h₁, not_or.2 ⟨h₂, h₃⟩⟩),
      fun h₁ h₂ h₃ => hvalid (not_or.2 ⟨h₁, not_or.2 ⟨h₂, h₃⟩⟩), fun hi => commandStart_over hi s⟩
  · obtain ⟨⟨-, hreply, hout, hopen, hvalid⟩, hsame⟩ := step_running_confined h hr hin ht
    have hne {c : BusCommand} (hc : r.command ≠ c) : r.command.instr ≠ c.instr := fun hi => hc (instr_injective hi)
    exact ⟨fun h₁ h₂ => hreply h.config (not_or.2 ⟨hne h₁, hne h₂⟩), hout h.config (not_writesOut_instr _),
      fun h₁ h₂ h₃ => hopen (not_or.2 ⟨hne h₁, not_or.2 ⟨hne h₂, hne h₃⟩⟩),
      fun h₁ h₂ h₃ => hvalid (not_or.2 ⟨hne h₁, not_or.2 ⟨hne h₂, hne h₃⟩⟩), hsame⟩

/-- Settles O60: a command ends with SHORT clear unless it is an EXTRACT that succeeds, and a reset clears SHORT. -/
theorem shortOnlyAfterExtract : Obligations.ShortOnlyAfterExtract := by
  refine ⟨fun i s t ht hover hi => ?_, fun s t r hr ht hover => ?_⟩
  · cases (exec_eq i s).symm.trans ht
    exact (commandStart_proceeds i s).short_clear hover hi
  · by_cases hin : ∀ rest, s.inputs ≠ .reset :: rest
    · rcases step_running_cases hr hin with ⟨rest, h'⟩ | ⟨a, rest, h'⟩
      · cases h'.symm.trans ht
        cases hr.symm.trans hover
      · cases h'.symm.trans ht
        exact (takeAnswer_proceeds (s := s.facing (inputsAfter 1 s.inputs) rest) hr a).short_clear hover
          (.inl (instr_ne_extract _))
    · push Not at hin
      obtain ⟨rest, hin⟩ := hin
      cases (step_reset hin).symm.trans ht
      rfl

end Sys2Proof.Machine
end

section
/-! PROOFS. The registers of the host port (R20 to R30), STATUS (R24), the reset values (R40), and the CMD write that
runs a command (R21). -/

namespace Sys2Proof.Machine

open Sys2Proof

/-! ### Accesses to registers, with no command running -/

theorem regAt_address (r : Reg) : regAt r.address.toNat = some r := by
  cases r <;> rfl

section
variable {s : State} {rest : List Input}

/-- A read of a register answers what the register reads as and changes nothing else (R61). -/
theorem step_readReg (r : Reg) (hr : s.running = none) (hin : s.inputs = .host (.read32 r.address) :: rest) :
    step s = .next { s with inputs := rest, portLog := s.portLog ++ [.word (readReg r s)] } := by
  rw [step_host hr hin, hostAccess, read32, regAt_address]
  cases r <;> rfl

/-- A write to a register other than CMD is done at once. -/
theorem step_writeReg {r : Reg} (hcmd : r ≠ .cmd) {v : Word} (hr : s.running = none)
    (hin : s.inputs = .host (.write32 r.address v) :: rest) :
    step s = .next (writeReg r v { s with inputs := rest, portLog := s.portLog ++ [.done] }) := by
  rw [step_host hr hin, hostAccess, write32, regAt_address]
  cases r with
  | cmd => exact absurd rfl hcmd
  | mtu =>
    simp only [writeReg, apply_ite (answer .done)]
    rfl
  | argA | argB | status | result | rxLen | rawLen | addr | options => rfl

/-- A write of a legal word to CMD runs its command (R21). -/
theorem step_writeCmd {w : Word} {i : Instr} (hr : s.running = none)
    (hin : s.inputs = .host (.write32 0x0000 w) :: rest) (hw : decode w = .ok i) :
    step s = exec i { s with inputs := rest } := by
  have hreg : regAt (0x0000 : Half).toNat = some .cmd := regAt_address .cmd
  rw [step_host hr hin, hostAccess, write32, hreg]
  simp only [writeCmd, hw]

end

/-- Settles O18: each register by its address. -/
theorem registerReads : Obligations.RegisterReads := by
  intro s a rest hr hin answers
  refine ⟨?_, ?_, ?_, ?_, ?_, ?_, ?_, ?_, ?_, ?_⟩ <;> rintro rfl
  · exact step_readReg .cmd hr hin
  · exact step_readReg .argA hr hin
  · exact step_readReg .argB hr hin
  · exact step_readReg .status hr hin
  · exact step_readReg .result hr hin
  · exact step_readReg .rxLen hr hin
  · exact step_readReg .rawLen hr hin
  · exact step_readReg .mtu hr hin
  · exact step_readReg .addr hr hin
  · exact step_readReg .options hr hin

/-- Settles O16: each register by its address; the bits that a register uses are its lowest. -/
theorem registerWritesKeepUsedBits : Obligations.RegisterWritesKeepUsedBits := by
  intro s a v rest hr hin t
  rw [← BitVec.setWidth_eq_extractLsb' (show 16 ≤ 32 by decide),
    ← BitVec.setWidth_eq_extractLsb' (show 3 ≤ 32 by decide)]
  refine ⟨?_, ?_, ?_, ?_, ?_⟩
  · rintro rfl
    exact step_writeReg (r := .argA) nofun hr hin
  · rintro rfl
    exact step_writeReg (r := .argB) nofun hr hin
  · rintro rfl
    exact step_writeReg (r := .addr) nofun hr hin
  · rintro rfl
    exact step_writeReg (r := .options) nofun hr hin
  · rintro (rfl | rfl | rfl | rfl)
    · exact step_writeReg (r := .status) nofun hr hin
    · exact step_writeReg (r := .result) nofun hr hin
    · exact step_writeReg (r := .rxLen) nofun hr hin
    · exact step_writeReg (r := .rawLen) nofun hr hin

/-! ### MTU -/

theorem mtuLegal_iff {v : Nat} : mtuLegal v = true ↔ 1 ≤ v ∧ v ≤ 250 := by
  simp [mtuLegal]

theorem writeReg_mtu_legal {v : Word} (h : 1 ≤ v.toNat ∧ v.toNat ≤ 250) (s : State) :
    writeReg .mtu v s = { s with mtu := v.setWidth 8 } :=
  if_pos (mtuLegal_iff.2 h)

theorem writeReg_mtu_ignored {v : Word} (h : ¬(1 ≤ v.toNat ∧ v.toNat ≤ 250)) (s : State) :
    writeReg .mtu v s = s :=
  if_neg (mt mtuLegal_iff.1 h)

/-- A step of a running command without a reset keeps MTU. -/
theorem step_running_mtu {s t : State} {r : Running} (hr : s.running = some r)
    (hin : ∀ rest, s.inputs ≠ .reset :: rest) (ht : step s = .next t) : t.mtu = s.mtu := by
  rcases step_running_cases hr hin with ⟨rest, h⟩ | ⟨a, rest, h⟩
  · cases h.symm.trans ht
    rfl
  · cases h.symm.trans ht
    obtain ⟨-, -, -, hmtu, -⟩ := (takeAnswer_advances r a (s.facing (inputsAfter 1 s.inputs) rest)).host
    exact hmtu

/-- Settles O17: the port's write and read of MTU, its reset value, and that no command's start or step changes it. -/
theorem mtuTakesLegalValuesOnly : Obligations.MtuTakesLegalValuesOnly := by
  refine ⟨fun s v rest hr hin => ⟨fun hv => ?_, fun hv => ?_⟩, fun s rest hr hin => step_readReg .mtu hr hin, rfl,
    fun i s t ht => ?_, fun s t r => step_running_mtu⟩
  · have hstep := step_writeReg (r := .mtu) nofun hr hin
    rw [writeReg_mtu_legal hv] at hstep
    refine ⟨_, hstep, ?_, rfl⟩
    rw [BitVec.toNat_setWidth]
    omega
  · have hstep := step_writeReg (r := .mtu) nofun hr hin
    rwa [writeReg_mtu_ignored hv] at hstep
  · cases (exec_eq i s).symm.trans ht
    obtain ⟨-, -, -, hmtu, -⟩ := (commandStart_advances i s).host
    exact hmtu

/-! ### STATUS -/

theorem bit_le_one (b : Bool) : bit b ≤ 1 := by
  cases b <;> decide

/-- A flag reads back from its value. -/
theorem decide_bit (b : Bool) : decide (bit b = 1) = b := by
  cases b <;> rfl

/-- STATUS as a number: the four fields do not overlap, and all is below bit 11 (R24). -/
theorem statusWord_toNat (s : State) : (statusWord s).toNat =
    s.err.toByte.toNat + 0x100 * bit s.replyValid + 0x200 * bit s.busOpen + 0x400 * bit s.short := by
  have herr := s.err.toByte.isLt
  have hvalid := bit_le_one s.replyValid
  have hopen := bit_le_one s.busOpen
  have hshort := bit_le_one s.short
  rw [statusWord, BitVec.toNat_ofNat]
  omega

/-- A bit of STATUS, from STATUS as a number. -/
theorem statusWord_getLsbD {s : State} {k : Nat} {b : Bool} (h : (statusWord s).toNat / 2 ^ k % 2 = bit b) :
    (statusWord s).getLsbD k = b := by
  rw [BitVec.getLsbD, Nat.testBit_eq_decide_div_mod_eq, h, decide_bit]

/-- Settles O19: each field is read off the number that STATUS is. -/
theorem statusRegisterLayout : Obligations.StatusRegisterLayout := by
  refine ⟨fun s => ?_, rfl⟩
  have herr := s.err.toByte.isLt
  have hvalid := bit_le_one s.replyValid
  have hopen := bit_le_one s.busOpen
  have hshort := bit_le_one s.short
  have hword := statusWord_toNat s
  refine ⟨BitVec.eq_of_toNat_eq ?_, statusWord_getLsbD ?_, statusWord_getLsbD ?_, statusWord_getLsbD ?_,
    BitVec.eq_of_toNat_eq ?_⟩
  · rw [BitVec.extractLsb'_toNat, Nat.shiftRight_zero]
    omega
  · omega
  · omega
  · omega
  · rw [BitVec.extractLsb'_toNat, Nat.shiftRight_eq_div_pow]
    show _ = 0
    omega

/-! ### Reset -/

/-- After reset no byte is known: each reads as its buffer's first draw (R40). -/
theorem readByte_reset (sp : Space) (i : Nat) : readByte State.reset sp i = Config.freeByte sp.base 0 i := by
  have hdraw : drawOf State.reset sp = 0 := by cases sp <;> rfl
  have hmem : State.reset.mem = [] := rfl
  rw [readByte, hdraw, hmem, read?_nil, Option.getD_none, ite_self]

/-- Settles O11: the values are `State.resetWith`'s own, and an empty memory reads as draws. -/
theorem resetStateValues : Obligations.ResetStateValues :=
  ⟨rfl, rfl, rfl, rfl, rfl, rfl, rfl, rfl, rfl, rfl, rfl, rfl, rfl, rfl, rfl, readByte_reset, fun _ => rfl⟩

/-! ### The CMD write -/

/-- The decoder reads every instruction from the word that the encoder writes (R88). -/
theorem decode_encode (i : Instr) : decode (encode i) = .ok i := by
  have h : Laws.RoundTrip.Statement i := by
    cases i with
    | crc8 => exact Laws.RoundTrip.crc8
    | crc32 => exact Laws.RoundTrip.crc32
    | frame => exact Laws.RoundTrip.frame
    | deframe => exact Laws.RoundTrip.deframe
    | execute => exact Laws.RoundTrip.execute
    | extract adm dstp => exact Laws.RoundTrip.extract adm dstp
    | peek => exact Laws.RoundTrip.peek
    | openBus => exact Laws.RoundTrip.openBus
    | closeBus => exact Laws.RoundTrip.closeBus
  obtain ⟨-, hdecode, -⟩ := h
  exact hdecode

/-- Settles O4: the port hands the word to the decoder and the instruction to `exec`. -/
theorem stepRunsDecodedCommand : Obligations.StepRunsDecodedCommand := by
  intro s w rest i hr hin hw
  have hexec := exec_eq i { s with inputs := rest }
  exact ⟨_, hexec, (step_writeCmd hr hin hw).trans hexec⟩

/-- Settles O5: the word placed is a CMD write of the instruction's own word, before the inputs of `s`. -/
theorem fetchWordRunsCommand : Obligations.FetchWordRunsCommand := by
  intro s i
  have hword : BitVec.ofNat 32 ((encode i).toNat % 2 ^ 32) = encode i := by
    rw [Nat.mod_eq_of_lt (encode i).isLt, BitVec.ofNat_toNat, BitVec.setWidth_eq]
  have hdecode : decode (BitVec.ofNat 32 ((encode i).toNat % 2 ^ 32)) = .ok i :=
    (congrArg decode hword).trans (decode_encode i)
  have hexec := exec_eq i { s with running := none }
  exact ⟨_, hexec, (step_writeCmd (s := s.withFetchWord 32 (encode i).toNat) rfl rfl hdecode).trans hexec⟩

end Sys2Proof.Machine
end

section
/-! PROOFS. The byte accesses of the three windows, and the access errors (R51 to R57). -/

namespace Sys2Proof.Machine

open Sys2Proof

/-! ### Where the registers and the windows lie -/

/-- A register is named by its own address alone (R20, R52). -/
theorem eq_address_of_regAt {a : Half} {r : Reg} (h : regAt a.toNat = some r) : a = r.address := by
  refine BitVec.eq_of_toNat_eq ?_
  unfold regAt at h
  split at h <;> cases h <;> assumption

/-- Outside the ten addresses of R20 there is no register (R52, R54). -/
theorem regAt_eq_none {a : Half}
    (h : a ∉ ([0x00, 0x04, 0x08, 0x0C, 0x10, 0x14, 0x18, 0x1C, 0x20, 0x24] : List Half)) : regAt a.toNat = none := by
  refine Option.eq_none_iff_forall_ne_some.2 fun r hr => h ?_
  rw [eq_address_of_regAt hr]
  cases r <;> decide

/-- The addresses of the windows are those of the buffers' bytes (R51). -/
theorem windowOf_eq_none {c : Config} {a : Nat} (h : ∀ sp : Space, ¬(sp.base ≤ a ∧ a < sp.base + sp.cap c)) :
    windowOf c a = none := by
  refine Option.eq_none_iff_forall_ne_some.2 fun (sp, i) hw => h sp ?_
  obtain ⟨rfl, hi⟩ := windowOf_eq_some hw
  omega

/-- Every window lies within the 16-bit addresses (R51). -/
theorem windowAddress_toNat {c : Config} (hc : c.Legal) (sp : Space) {i : Nat} (h : i < sp.cap c) :
    (BitVec.ofNat 16 (sp.base + i)).toNat = sp.base + i := by
  have hcap := cap_le hc sp
  have hbase : sp.base ≤ 0x6000 := by cases sp <;> decide
  rw [BitVec.toNat_ofNat]
  omega

/-! ### Byte accesses, with no command running -/

section
variable {s : State} {rest : List Input} {sp : Space} {i : Nat} {b : Byte}

/-- A byte read of a window answers the byte and changes nothing else (R55 to R57, R61). -/
theorem step_readWindow (hc : s.config.Legal) (hi : i < sp.cap s.config) (hr : s.running = none)
    (hin : s.inputs = .host (.read8 (BitVec.ofNat 16 (sp.base + i))) :: rest) :
    step s = .next { s with inputs := rest, portLog := s.portLog ++ [.byte (readByte s sp i)] } := by
  rw [step_host hr hin, hostAccess, windowAddress_toNat hc sp hi, read8, windowOf_address hc sp hi]
  rfl

/-- A byte write of MSGBUF's window is a write of one byte (R55). -/
theorem step_writeMessage (hc : s.config.Legal) (hi : i < s.config.msgCap) (hr : s.running = none)
    (hin : s.inputs = .host (.write8 (BitVec.ofNat 16 (0x2000 + i)) b) :: rest) :
    step s = .next { memWrite .msg i [b] s with inputs := rest, portLog := s.portLog ++ [.done] } := by
  have haddr : (BitVec.ofNat 16 (0x2000 + i)).toNat = 0x2000 + i := windowAddress_toNat hc .msg hi
  have hwindow : windowOf s.config (0x2000 + i) = some (.msg, i) := windowOf_address hc .msg hi
  rw [step_host hr hin, hostAccess, haddr, write8, hwindow]
  rfl

/-- REPLYBUF's and OUTBUF's windows ignore a byte write (R56, R57). -/
theorem step_writeIgnored (hc : s.config.Legal) (hi : i < sp.cap s.config) (hsp : sp ≠ .msg) (hr : s.running = none)
    (hin : s.inputs = .host (.write8 (BitVec.ofNat 16 (sp.base + i)) b) :: rest) :
    step s = .next { s with inputs := rest, portLog := s.portLog ++ [.done] } := by
  rw [step_host hr hin, hostAccess, windowAddress_toNat hc sp hi, write8, windowOf_address hc sp hi]
  cases sp with
  | msg => exact absurd rfl hsp
  | reply | out => rfl

end

/-! ### The statements -/

/-- Settles O20: outside the registers' addresses `regAt` names none, outside the windows `windowOf` names none,
and each access then answers the error. -/
theorem wrongAccessesAreErrors : Obligations.WrongAccessesAreErrors := by
  intro s rest a hr error register window
  have hwindow (h : ¬window) : windowOf s.config a.toNat = none :=
    windowOf_eq_none fun
      | .msg, ha => h (.inl ha)
      | .reply, ha => h (.inr (.inl ha))
      | .out, ha => h (.inr (.inr ha))
  refine ⟨fun v hin h => ?_, fun hin h => ?_, fun b hin h => ?_, fun hin h => ?_⟩
  · exact (step_host hr hin).trans (by rw [hostAccess, write32, regAt_eq_none h]; rfl)
  · exact (step_host hr hin).trans (by rw [hostAccess, read32, regAt_eq_none h]; rfl)
  · exact (step_host hr hin).trans (by rw [hostAccess, write8, hwindow h]; rfl)
  · exact (step_host hr hin).trans (by rw [hostAccess, read8, hwindow h]; rfl)

/-- Settles O21: the step is a `MemWrite` of one byte, whose frame is O23's. -/
theorem messageWindowWriteStoresOneByte : Obligations.MessageWindowWriteStoresOneByte := by
  intro s i b rest hc hi hr hin
  obtain ⟨hwrites, -⟩ := bufferReadsAndWrites s .msg hc
  obtain ⟨-, hothers, -⟩ := hwrites i [b] hi
  refine ⟨_, step_writeMessage hc hi hr hin, ?_, fun sp j hj => ?_, rfl⟩
  · exact readByte_memWrite_inside s .msg (a := i) (i := 0) (bs := [b]) Nat.zero_lt_one hi
  · refine hothers sp j fun ⟨hsp, hle, hlt⟩ => hj ⟨hsp, ?_⟩
    exact Nat.le_antisymm (Nat.le_of_lt_succ hlt) hle

/-- Settles O22: `windowOf` gives the buffer and the index back from the address. -/
theorem windowReadsAndIgnoredWrites : Obligations.WindowReadsAndIgnoredWrites :=
  fun _ _ _ _ hc hi hr =>
    ⟨fun hin => step_readWindow hc hi hr hin, fun _ hin hsp => step_writeIgnored hc hi hsp hr hin⟩

end Sys2Proof.Machine
end

section
/-! PROOFS. The command words (R87 to R89), the control bytes (R74, R75) and the messages a host builds (R80 to R85). -/

namespace Sys2Proof.Machine

open Sys2Proof

/-! ### Command words -/

/-- The four fields of R87 cover the word: no bit is outside them. -/
theorem splitWord_injective {v w : Word} (h : splitWord v = splitWord w) : v = w := by
  simp only [splitWord, CommandWord.mk.injEq] at h
  obtain ⟨hop, hadm, hdstp, hreserved⟩ := h
  refine BitVec.eq_of_getLsbD_eq fun k hk => ?_
  obtain hlow | rfl | rfl | hhigh : k < 8 ∨ k = 8 ∨ k = 9 ∨ 10 ≤ k := by omega
  · simpa [hlow] using congrArg (·.getLsbD k) hop
  · exact hadm
  · exact hdstp
  · have hbit := congrArg (·.getLsbD (k - 10)) hreserved
    simpa [show k - 10 < 22 by omega, Nat.add_sub_cancel' hhigh] using hbit

theorem splitWord_encode (i : Instr) : splitWord (encode i) = i.fields := by
  cases i with
  | extract adm dstp => cases adm <;> cases dstp <;> rfl
  | crc8 | crc32 | frame | deframe | execute | peek | openBus | closeBus => rfl

theorem wellFormed_iff {f : CommandWord} : f.wellFormed = true ↔
    (1 ≤ f.op.toNat ∧ f.op.toNat ≤ 9) ∧ f.reserved = 0 ∧ (f.op = 6 ∨ (f.adm = false ∧ f.dstp = false)) := by
  simp [CommandWord.wellFormed, CommandWord.opcodeKnown, CommandWord.reservedClear, CommandWord.flagsAllowed, and_assoc]

/-- The rows of R88 have the opcodes 1 to 9. -/
theorem opcode_of_opcodeRow {op : Nat} {adm dstp : Bool} {i : Instr} (h : opcodeRow op adm dstp = .ok i) :
    1 ≤ op ∧ op ≤ 9 := by
  unfold opcodeRow at h
  split at h
  case h_10 => cases h
  all_goals omega

/-- The decoder passes R89's three conditions before it gives an instruction. -/
theorem wellFormed_of_decode {w : Word} {i : Instr} (h : decode w = .ok i) : (splitWord w).wellFormed = true := by
  simp only [decode] at h
  split at h
  · cases h
  next hreserved =>
  split at h
  · cases h
  next hflags =>
  refine wellFormed_iff.2 ⟨opcode_of_opcodeRow h, of_not_not hreserved, ?_⟩
  rw [or_iff_not_imp_left]
  simpa using hflags

/-- Every legal combination of fields is a row of R88. -/
theorem exists_fields_of_wellFormed {f : CommandWord} (h : f.wellFormed = true) : ∃ i : Instr, f = i.fields := by
  obtain ⟨op, adm, dstp, reserved⟩ := f
  obtain ⟨⟨hpos, hle⟩, hreserved, hflags⟩ := wellFormed_iff.1 h
  dsimp only at hpos hle hreserved hflags
  subst hreserved
  by_cases hop : op = 6
  · exact ⟨.extract adm dstp, by rw [hop]; rfl⟩
  · obtain ⟨rfl, rfl⟩ := hflags.resolve_left hop
    obtain rfl | rfl | rfl | rfl | rfl | rfl | rfl | rfl :
        op = 1 ∨ op = 2 ∨ op = 3 ∨ op = 4 ∨ op = 5 ∨ op = 7 ∨ op = 8 ∨ op = 9 := by bv_omega
    · exact ⟨.crc8, rfl⟩
    · exact ⟨.crc32, rfl⟩
    · exact ⟨.frame, rfl⟩
    · exact ⟨.deframe, rfl⟩
    · exact ⟨.execute, rfl⟩
    · exact ⟨.peek, rfl⟩
    · exact ⟨.openBus, rfl⟩
    · exact ⟨.closeBus, rfl⟩

/-- The legal words of R89 are the words of the instructions. -/
theorem wellFormed_iff_encode {w : Word} : (splitWord w).wellFormed = true ↔ ∃ i, w = encode i := by
  constructor
  · intro h
    obtain ⟨i, hi⟩ := exists_fields_of_wellFormed h
    exact ⟨i, splitWord_injective (hi.trans (splitWord_encode i).symm)⟩
  · rintro ⟨i, rfl⟩
    exact wellFormed_of_decode (decode_encode i)

/-- Settles O1: a word that decodes is legal, so it is the word of some instruction, which is the one decoded. -/
theorem decodeIffEncode : Obligations.DecodeIffEncode := by
  intro w i
  constructor
  · intro h
    obtain ⟨j, rfl⟩ := wellFormed_iff_encode.1 (wellFormed_of_decode h)
    cases (decode_encode j).symm.trans h
    rfl
  · rintro rfl
    exact decode_encode i

/-- Settles O2: each word is the encoder's. -/
theorem commandWordsDecode : Obligations.CommandWordsDecode :=
  ⟨decode_encode .crc8, decode_encode .crc32, decode_encode .frame, decode_encode .deframe, decode_encode .execute,
    decode_encode (.extract false false), decode_encode (.extract true false), decode_encode (.extract false true),
    decode_encode (.extract true true), decode_encode .peek, decode_encode .openBus, decode_encode .closeBus⟩

/-- A write of an illegal word to CMD, with no command running, is a command that ends with `BadOp` (R89). -/
theorem step_writeCmd_illegal {s : State} {rest : List Input} {w : Word} (hr : s.running = none)
    (hin : s.inputs = .host (.write32 0x0000 w) :: rest) (hw : (splitWord w).wellFormed = false) :
    step s = .next (badOpCommand { s with inputs := rest }) := by
  have hreg : regAt (0x0000 : Half).toNat = some .cmd := regAt_address .cmd
  rw [step_host hr hin, hostAccess, write32, hreg]
  dsimp only
  match hd : decode w with
  | .error _ => simp only [writeCmd, hd]
  | .ok i => exact absurd (wellFormed_of_decode hd) (by simp [hw])

/-- R89's illegality in terms of the bits of the word. -/
theorem wellFormed_eq_false_iff {w : Word} : (splitWord w).wellFormed = false ↔
    (w.extractLsb' 0 8 = 0x00 ∨ 0x0A ≤ (w.extractLsb' 0 8).toNat) ∨ w.extractLsb' 10 22 ≠ 0 ∨
    (w.extractLsb' 0 8 ≠ 0x06 ∧ (w.getLsbD 8 = true ∨ w.getLsbD 9 = true)) := by
  have hop : ¬(1 ≤ (w.extractLsb' 0 8).toNat ∧ (w.extractLsb' 0 8).toNat ≤ 9) ↔
      (w.extractLsb' 0 8 = 0x00 ∨ 0x0A ≤ (w.extractLsb' 0 8).toNat) := by bv_omega
  rw [← Bool.not_eq_true, wellFormed_iff, not_and_or]
  refine or_congr hop ?_
  rw [not_and_or, not_or, not_and_or, Bool.not_eq_false, Bool.not_eq_false]
  rfl

/-- Settles O3: an illegal word is answered with `BadOp`, and a legal one is the word of an instruction. -/
theorem illegalWordEndsWithBadOp : Obligations.IllegalWordEndsWithBadOp := by
  intro s w rest hr hin illegal
  refine ⟨fun h => ?_, fun h => ?_⟩
  · refine (step_writeCmd_illegal hr hin (wellFormed_eq_false_iff.2 h)).trans ?_
    simp only [badOpCommand, raiseError, finish, answer, hr]
  · refine wellFormed_iff_encode.1 (Bool.of_not_eq_false ?_)
    exact fun hf => h (wellFormed_eq_false_iff.1 hf)

/-! ### Control bytes -/

/-- Packets four apart have the same sequence number (R74). -/
theorem controlByte_mod (c : Config) (som eom : Bool) (k : Nat) (owner : Bool) :
    controlByte c som eom k owner = controlByte c som eom (k % 4) owner := by
  simp only [controlByte, Nat.mod_mod]

/-- Settles O30: a row of the table is one value of `k mod 4`. -/
theorem controlByteTable : Obligations.ControlByteTable := by
  refine ⟨by decide, by decide, by decide, by decide, fun k => ?_⟩
  simp only [controlByte_mod _ _ _ k]
  have hk : k % 4 < 4 := Nat.mod_lt k (by decide)
  generalize k % 4 = r at hk
  revert r
  decide

/-! ### Messages -/

@[simp] theorem littleEndian_length (n v : Nat) : (littleEndian n v).length = n := by
  induction n generalizing v with
  | zero => rfl
  | succ n ih => rw [littleEndian, List.length_cons, ih]

@[simp] theorem messageHeader_toBytes_length (h : MessageHeader) : h.toBytes.length = 4 := rfl

@[simp] theorem withMic_length (c : Config) (body : List Byte) : (withMic c body).length = body.length + 4 := by
  rw [withMic, List.length_append, littleEndian_length]

/-- Settles O57: the headers by their fields, the lengths piece by piece. -/
theorem messageLayouts : Obligations.MessageLayouts := by
  refine ⟨rfl, rfl, rfl, rfl, fun c opcode cdw0 cdw1 data => ?_, fun c opcode flags controller nsid cdws data => ?_⟩
  · simp +arith [miRequest]
  · simp +arith [adminRequest]

end Sys2Proof.Machine
end

section
/-! PROOFS. What a whole reception leaves in REPLYBUF, position by position (R147, R159), EXTRACT's copy of it (R155
to R157, R161), and the two together: the data of a response in OUTBUF (R83, R84). -/

namespace Sys2Proof.Machine

open Sys2Proof

/-! ### Raw positions -/

/-- In the first packet a message byte follows the eight header bytes. -/
theorem rawPosition_of_lt {mtu i : Nat} (h : i < mtu) : rawPosition mtu i = 8 + i := by
  rw [rawPosition, Nat.div_eq_of_lt h, Nat.mod_eq_of_lt h, Nat.zero_mul, Nat.zero_add]

/-- One MTU on in the message is one whole packet on in the raw bytes. -/
theorem rawPosition_add_mtu {mtu : Nat} (h : 0 < mtu) (i : Nat) :
    rawPosition mtu (mtu + i) = (mtu + 9) + rawPosition mtu i := by
  simp only [rawPosition, Nat.add_div_left i h, Nat.add_mod_left, Nat.succ_mul]
  omega

/-- The raw bytes of a packet hold its payload from the ninth byte on. -/
theorem delivery_raw_getElem? (d : Delivery) {i : Nat} (h : i < d.payload.length) : d.raw[8 + i]? = d.payload[i]? := by
  rw [Delivery.raw, List.append_assoc, List.getElem?_append_right (by simp), header_toBytes_length,
    Nat.add_sub_cancel_left, List.getElem?_append_left h]

/-- R159: where every packet but the last carries an MTU, the raw bytes hold message byte `i` at its raw position. -/
theorem rawOf_getElem?_rawPosition {mtu : Nat} (hm : 0 < mtu) {ds : List Delivery} {last : Delivery}
    (hds : ∀ d ∈ ds, d.payload.length = mtu) (hlast : last.payload.length ≤ mtu) {i : Nat}
    (hi : i < (messageOf (ds ++ [last])).length) :
    (rawOf (ds ++ [last]))[rawPosition mtu i]? = (messageOf (ds ++ [last]))[i]? := by
  induction ds generalizing i with
  | nil =>
    have hi : i < last.payload.length := by simpa [messageOf] using hi
    rw [rawPosition_of_lt (by omega)]
    simpa [rawOf, messageOf] using delivery_raw_getElem? last hi
  | cons d ds ih =>
    have hd : d.payload.length = mtu := hds d (by simp)
    have hraw : d.raw.length = mtu + 9 := by rw [delivery_raw_length, hd]
    simp only [List.cons_append, messageOf_cons, rawOf_cons, List.length_append] at hi ⊢
    by_cases hfirst : i < mtu
    · rw [rawPosition_of_lt hfirst, List.getElem?_append_left (by omega), List.getElem?_append_left (by omega)]
      exact delivery_raw_getElem? d (by omega)
    · obtain ⟨j, rfl⟩ := Nat.exists_eq_add_of_le (Nat.le_of_not_lt hfirst)
      rw [rawPosition_add_mtu hm, List.getElem?_append_right (by omega), List.getElem?_append_right (by omega),
        hraw, hd, Nat.add_sub_cancel_left, Nat.add_sub_cancel_left]
      exact ih (fun e he => hds e (by simp [he])) (by omega)

/-! ### The reply after a whole reception -/

section
variable {s : State} {ds : List Delivery} {last : Delivery}

/-- RX_LEN is the length of the message: the raw bytes fit REPLYBUF, so it fits 16 bits (R29). -/
theorem response_length_toNat (hc : s.config.Legal) (h : Response s ds last) :
    (BitVec.ofNat 16 (messageOf (ds ++ [last])).length).toNat = (messageOf (ds ++ [last])).length := by
  obtain ⟨-, -, -, hraw⟩ := h
  rw [rawOf_length] at hraw
  have hcap : s.config.replyCap ≤ 8192 := cap_le hc .reply
  rw [BitVec.toNat_ofNat]
  omega

/-- R147, R159: a state whose REPLYBUF holds the raw bytes of MTU-sized packets has message byte `i` at its raw
position. -/
theorem readByte_rawPosition {t : State} {m : Memory} {i : Nat} (h : Response s ds last) (hm : 1 ≤ s.mtu.toNat)
    (hds : ∀ d ∈ ds, d.payload.length = s.mtu.toNat) (hconfig : t.config = s.config)
    (hmem : t.mem = m.write 0x4000 (rawOf (ds ++ [last]))) (hi : i < (messageOf (ds ++ [last])).length) :
    some (readByte t .reply (rawPosition s.mtu.toNat i)) = (messageOf (ds ++ [last]))[i]? := by
  obtain ⟨-, hlast, -, hcap⟩ := h
  obtain ⟨-, hpayload, -⟩ := hlast
  have hraw := rawOf_getElem?_rawPosition hm hds hpayload hi
  have hpos : rawPosition s.mtu.toNat i < (rawOf (ds ++ [last])).length := by
    rw [List.getElem?_eq_getElem hi] at hraw
    exact (List.getElem?_eq_some_iff.1 hraw).1
  have hin : rawPosition s.mtu.toNat i < Space.reply.cap t.config := by
    rw [hconfig]
    exact Nat.lt_of_lt_of_le hpos hcap
  rw [readByte, if_pos hin, hmem, base_reply, read?_write_inside m hpos, hraw, List.getElem?_eq_getElem hi,
    Option.getD_some]

end

/-! ### EXTRACT -/

section
variable {s : State} {adm : Bool}

/-- With its checks passed, EXTRACT copies and ends (R161, R162). -/
theorem extractCommand_copies (hcap : operandB s ≤ s.config.outCap) (hvalid : s.replyValid = true) :
    extractCommand adm true s =
      finish .ok (decide (logicalLength adm (receivedLength s) < operandB s))
        (BitVec.ofNat 32 (copyCount adm (receivedLength s) (operandB s)))
        (memWrite .out 0 (extractedBytes adm s) s) := by
  rw [extractCommand, if_neg nofun, if_neg (Nat.not_lt.2 hcap), if_neg (by simp [hvalid])]

@[simp] theorem readByte_finish (code : StatusCode) (short : Bool) (result : Word) (s : State) (sp : Space) (i : Nat) :
    readByte (finish code short result s) sp i = readByte s sp i := by
  cases sp <;> rfl

@[simp] theorem extractedBytes_length (adm : Bool) (s : State) :
    (extractedBytes adm s).length = copyCount adm (receivedLength s) (operandB s) := by
  simp [extractedBytes]

/-- OUTBUF holds the bytes EXTRACT copied (R159, R161). -/
theorem readByte_out_extractedBytes (hcap : operandB s ≤ s.config.outCap) {i : Nat}
    (hi : i < copyCount adm (receivedLength s) (operandB s)) :
    readByte (memWrite .out 0 (extractedBytes adm s) s) .out i =
      readByte s .reply (rawPosition s.mtu.toNat (dataStart adm + i)) := by
  have hlen : i < (extractedBytes adm s).length := by rwa [extractedBytes_length]
  have hout : i < s.config.outCap := by
    have : copyCount adm (receivedLength s) (operandB s) ≤ operandB s := Nat.min_le_right ..
    omega
  have hread := readByte_memWrite_inside s .out (a := 0) hlen (by rwa [Nat.zero_add])
  rw [Nat.zero_add] at hread
  rw [hread]
  simp [extractedBytes, mtuOf]

end

/-! ### The data of a response -/

/-- R83, R84, R155: the data of a response stands between `dataStart` bytes and the four MIC bytes. -/
theorem responseData_in_message {adm : Bool} {head status echo data mic : List Byte} (hhead : head.length = 4)
    (hstatus : status.length = 4) (hecho : echo.length = if adm then 12 else 0) (hmic : mic.length = 4) :
    (head ++ status ++ echo ++ data ++ mic).length = dataStart adm + data.length + 4 ∧
    logicalLength adm (head ++ status ++ echo ++ data ++ mic).length = data.length ∧
    ∀ i < data.length, (head ++ status ++ echo ++ data ++ mic)[dataStart adm + i]? = data[i]? := by
  have hstart : (head ++ status ++ echo).length = dataStart adm := by
    cases adm <;> simp [hhead, hstatus, hecho, dataStart, bit]
  have hlen : (head ++ status ++ echo ++ data ++ mic).length = dataStart adm + data.length + 4 := by
    rw [List.length_append, List.length_append, hstart, hmic]
  refine ⟨hlen, ?_, fun i hi => ?_⟩
  · rw [hlen]
    cases adm <;> simp only [logicalLength, overhead, dataStart, bit] <;> omega
  · rw [List.append_assoc, List.getElem?_append_right (by omega), hstart, Nat.add_sub_cancel_left,
      List.getElem?_append_left hi]

/-- DEFRAME with a whole response in MTU-sized packets: EXTRACT's operands are as before, the reply is valid, and it
holds message byte `i` at its raw position (R146, R147, R159). -/
theorem deframe_receives_message {s : State} {ds : List Delivery} {last : Delivery} {rest : List BusEvent}
    (hc : s.config.Legal) (hopen : s.busOpen = true) (hm : 1 ≤ s.mtu.toNat) (hresp : Response s ds last)
    (hds : ∀ d ∈ ds, d.payload.length = s.mtu.toNat) (hbus : s.bus = answered (answersOf (ds ++ [last])) rest)
    (hin : NoResetFor (2 * (ds.length + 1)) s.inputs) :
    ∃ b t, exec .deframe s = .next b ∧ Host.Core.run Sys2Proof.core (2 * (ds.length + 1)) b = .next t ∧
      t.config = s.config ∧ operandB t = operandB s ∧ t.replyValid = true ∧
      receivedLength t = (messageOf (ds ++ [last])).length ∧
      ∀ i < (messageOf (ds ++ [last])).length,
        some (readByte t .reply (rawPosition t.mtu.toNat i)) = (messageOf (ds ++ [last]))[i]? := by
  obtain ⟨b, hb, hrun⟩ := deframeReceivesAResponse s ds last rest hopen hresp hbus hin
  exact ⟨b, _, hb, hrun, rfl, rfl, rfl, response_length_toNat hc hresp,
    fun _ hi => readByte_rawPosition hresp hm hds rfl rfl hi⟩

/-- Settles O47: DEFRAME leaves message byte `i` at its raw position, and EXTRACT copies the data bytes from theirs. -/
theorem responseDataReachesOutbuf : Obligations.ResponseDataReachesOutbuf := by
  intro s adm ds last rest head status echo data mic hc hopen hm hcap hresp hds hhead hstatus hecho hmic hmsg hbus hin
  obtain ⟨b, t, hb, hrun, hconfig, hargB, hvalid, hreceived, hbytes⟩ :=
    deframe_receives_message hc hopen hm hresp hds hbus hin
  obtain ⟨hlen, hlogical, hdata⟩ := responseData_in_message (data := data) hhead hstatus hecho hmic
  rw [← hmsg] at hlen hlogical hdata
  rw [← hreceived] at hlogical
  have hcapacity : operandB t ≤ t.config.outCap := by rw [hargB, hconfig]; exact hcap
  have hcount : copyCount adm (receivedLength t) (operandB t) = min data.length s.argB.toNat := by
    rw [copyCount, hlogical, hargB, operandB]
  refine ⟨b, t, _, hb, hrun, (exec_eq _ t).trans (congrArg _ (extractCommand_copies hcapacity hvalid)), rfl, ?_, ?_,
    fun i hi => ?_⟩
  · rw [finish_result, hcount]
  · rw [finish_short, hlogical, hargB, operandB]
  · rw [readByte_finish, readByte_out_extractedBytes hcapacity (by rwa [hcount]), hbytes _ (by omega),
      hdata i (by omega)]

end Sys2Proof.Machine
end

section
/-! PROOFS. The checksum engine (40_checksum.md). One shift of either checksum is linear over GF(2): a shift, and the
polynomial when a 1 leaves. From that come the linearity of CRC-8 (R101), the split of a CRC-32 register into the byte
that indexes a table and the rest (R105), and, as no shift loses a register, the change of CRC-32 with every changed
byte (R106). -/

namespace Sys2Proof.Machine

open Sys2Proof

/-! ### Repetition -/

theorem repeated_eq_iterate {α : Type} (f : α → α) (n : Nat) (x : α) : repeated f n x = f^[n] x := by
  induction n generalizing x with
  | zero => rfl
  | succ n ih => exact ih (f x)

theorem repeated_injective {α : Type} {f : α → α} (hf : Function.Injective f) (n : Nat) :
    Function.Injective (repeated f n) := by
  rw [funext (repeated_eq_iterate f n)]
  exact hf.iterate n

/-! ### Linear maps over GF(2) -/

/-- `f` respects exclusive-OR. -/
def XorLinear {w : Nat} (f : BitVec w → BitVec w) : Prop := ∀ x y, f (x ^^^ y) = f x ^^^ f y

theorem shiftLeft_xorLinear {w : Nat} (n : Nat) : XorLinear fun c : BitVec w => c <<< n :=
  fun x y => BitVec.shiftLeft_xor_distrib x y n

theorem ushiftRight_xorLinear {w : Nat} (n : Nat) : XorLinear fun c : BitVec w => c >>> n :=
  fun x y => BitVec.ushiftRight_xor_distrib x y n

theorem XorLinear.repeated {w : Nat} {f : BitVec w → BitVec w} (hf : XorLinear f) (n : Nat) :
    XorLinear (repeated f n) := by
  induction n with
  | zero => exact fun _ _ => rfl
  | succ n ih => exact fun x y => (congrArg (Machine.repeated f n) (hf x y)).trans (ih (f x) (f y))

/-- A linear map that sends nothing but 0 to 0 keeps different registers different. -/
theorem XorLinear.injective {w : Nat} {f : BitVec w → BitVec w} (hf : XorLinear f) (hker : ∀ c, f c = 0 → c = 0) :
    Function.Injective f := by
  intro x y h
  refine BitVec.xor_eq_zero_iff.1 (hker _ ?_)
  rw [hf, h]
  exact BitVec.xor_self

/-! ### One shift with feedback -/

/-- One shift of a checksum register: `g` moves the bits, and the polynomial comes in when bit `i` leaves as a 1. -/
def feedbackStep {w : Nat} (g : BitVec w → BitVec w) (i : Nat) (poly c : BitVec w) : BitVec w :=
  if c.getLsbD i then g c ^^^ poly else g c

theorem crc8Shift_eq : crc8Shift = feedbackStep (· <<< 1) 7 0x07 := rfl

theorem crc32ShiftReflected_eq : crc32ShiftReflected = feedbackStep (· >>> 1) 0 0x82F63B78 := rfl

theorem crc32ShiftPlain_eq : crc32ShiftPlain = feedbackStep (· <<< 1) 31 0x1EDC6F41 := rfl

section
variable {w : Nat} {g : BitVec w → BitVec w} {i : Nat} {poly : BitVec w}

theorem feedbackStep_of_clear {c : BitVec w} (h : c.getLsbD i = false) : feedbackStep g i poly c = g c := by
  rw [feedbackStep, h, if_neg Bool.false_ne_true]

/-- What comes in is linear in the bit that leaves. -/
theorem feedbackStep_eq_xor (c : BitVec w) :
    feedbackStep g i poly c = g c ^^^ (if c.getLsbD i then poly else 0) := by
  unfold feedbackStep
  split
  · rfl
  · exact BitVec.xor_zero.symm

theorem feedbackStep_xorLinear (hg : XorLinear g) : XorLinear (feedbackStep g i poly) := by
  intro x y
  have hin : (if (x ^^^ y).getLsbD i then poly else 0) =
      (if x.getLsbD i then poly else 0) ^^^ (if y.getLsbD i then poly else 0) := by
    rw [BitVec.getLsbD_xor]
    cases x.getLsbD i <;> cases y.getLsbD i <;> simp
  rw [feedbackStep_eq_xor, feedbackStep_eq_xor, feedbackStep_eq_xor, hg, hin]
  ac_rfl

/-- A shift with feedback loses nothing if the bits alone never move to the polynomial, and lose only bit `i`. -/
theorem feedbackStep_injective (hg : XorLinear g) (hpoly : ∀ c, g c ≠ poly)
    (hker : ∀ c, c.getLsbD i = false → g c = 0 → c = 0) : Function.Injective (feedbackStep g i poly) := by
  refine (feedbackStep_xorLinear hg).injective fun c h => ?_
  unfold feedbackStep at h
  split at h
  · exact absurd (BitVec.xor_eq_zero_iff.1 h) (hpoly c)
  · next hc => exact hker c (Bool.eq_false_of_not_eq_true hc) h

/-- As long as only zeros leave, the polynomial stays out. -/
theorem repeated_feedbackStep_of_clear {n : Nat} {c : BitVec w} (h : ∀ k < n, (repeated g k c).getLsbD i = false) :
    repeated (feedbackStep g i poly) n c = repeated g n c := by
  induction n generalizing c with
  | zero => rfl
  | succ n ih =>
    have hc : c.getLsbD i = false := h 0 n.succ_pos
    rw [repeated, feedbackStep_of_clear hc]
    exact ih fun k hk => h (k + 1) (Nat.succ_lt_succ hk)

/-- The part of a register that lets only zeros leave may be shifted apart from the rest (R105). -/
theorem repeated_feedbackStep_xor (hg : XorLinear g) {n : Nat} {rest : BitVec w} (index : BitVec w)
    (h : ∀ k < n, (repeated g k rest).getLsbD i = false) :
    repeated (feedbackStep g i poly) n (rest ^^^ index) =
      repeated g n rest ^^^ repeated (feedbackStep g i poly) n index := by
  rw [(feedbackStep_xorLinear hg).repeated, repeated_feedbackStep_of_clear h]

end

/-! ### CRC-8 -/

theorem crc8Byte_xor (c d a b : Byte) : crc8Byte (c ^^^ d) (a ^^^ b) = crc8Byte c a ^^^ crc8Byte d b := by
  have hlinear : XorLinear (repeated crc8Shift 8) := by
    rw [crc8Shift_eq]
    exact (feedbackStep_xorLinear (shiftLeft_xorLinear 1)).repeated 8
  have hregister : (c ^^^ d) ^^^ (a ^^^ b) = (c ^^^ a) ^^^ (d ^^^ b) := by ac_rfl
  rw [crc8Byte, hregister, hlinear]
  rfl

theorem foldl_crc8Byte_xor {x y : List Byte} (h : x.length = y.length) (c d : Byte) :
    (List.zipWith (fun a b => a ^^^ b) x y).foldl crc8Byte (c ^^^ d) =
      x.foldl crc8Byte c ^^^ y.foldl crc8Byte d := by
  induction x generalizing y c d with
  | nil =>
    cases List.length_eq_zero_iff.1 h.symm
    rfl
  | cons a x ih =>
    match y with
    | b :: y =>
      rw [List.zipWith_cons_cons, List.foldl_cons, crc8Byte_xor]
      exact ih (Nat.succ.inj h) _ _

theorem crc8_xor {x y : List Byte} (h : x.length = y.length) :
    crc8 (List.zipWith (fun a b => a ^^^ b) x y) = crc8 x ^^^ crc8 y :=
  foldl_crc8Byte_xor h 0x00 0x00

/-- A string of zeros is its own exclusive-OR with itself. -/
theorem crc8_zeros (n : Nat) : crc8 (List.replicate n 0x00) = 0x00 := by
  have h := crc8_xor (rfl : (List.replicate n (0x00 : Byte)).length = _)
  rwa [BitVec.xor_self, List.zipWith_replicate, Nat.min_self, BitVec.xor_self] at h

/-- Settles O26: the engine is the model's own, its check value is computed, and each shift is linear. -/
theorem crc8IsLinear : Obligations.Crc8IsLinear :=
  ⟨fun _ => rfl, by decide +kernel, rfl, fun _ _ => crc8_xor, crc8_zeros⟩

/-! ### CRC-32: no shift loses a register -/

/-- The reflected polynomial has its top bit set, which a right shift leaves clear. -/
theorem crc32ShiftReflected_injective : Function.Injective crc32ShiftReflected := by
  rw [crc32ShiftReflected_eq]
  refine feedbackStep_injective (ushiftRight_xorLinear 1) (fun c h => ?_) fun c hc h => ?_
  · have htop := congrArg (·.getLsbD 31) h
    simp at htop
  · refine BitVec.eq_of_getLsbD_eq fun j _ => ?_
    match j with
    | 0 => exact hc
    | j + 1 =>
      have hj := congrArg (·.getLsbD j) h
      simpa [Nat.add_comm] using hj

/-- The unreflected polynomial has its lowest bit set, which a left shift leaves clear. -/
theorem crc32ShiftPlain_injective : Function.Injective crc32ShiftPlain := by
  rw [crc32ShiftPlain_eq]
  refine feedbackStep_injective (shiftLeft_xorLinear 1) (fun c h => ?_) fun c hc h => ?_
  · have hlow := congrArg (·.getLsbD 0) h
    simp at hlow
  · refine BitVec.eq_of_getLsbD_eq fun j hj => ?_
    by_cases hlast : j = 31
    · rw [hlast, hc]; rfl
    · have hnext := congrArg (·.getLsbD (j + 1)) h
      simpa [hj, show j + 1 < 32 by omega] using hnext

/-- The inner loop of the form that the parameter CRC32_REFLECTED names (R103, R104). -/
def crc32Loop (reflected : Bool) : Word → Word :=
  repeated (if reflected then crc32ShiftReflected else crc32ShiftPlain) 8

/-- Where that form puts a byte into the register. -/
def crc32Place (reflected : Bool) (b : Byte) : Word :=
  if reflected then b.zeroExtend 32 else b.zeroExtend 32 <<< 24

theorem crc32_eq (cfg : Config) (s : List Byte) : crc32 cfg s =
    s.foldl (fun c b => crc32Loop cfg.crc32Reflected (c ^^^ crc32Place cfg.crc32Reflected b)) 0xFFFFFFFF
      ^^^ 0xFFFFFFFF := by
  unfold crc32
  cases cfg.crc32Reflected <;> rfl

theorem crc32Loop_injective (reflected : Bool) : Function.Injective (crc32Loop reflected) := by
  cases reflected
  · exact repeated_injective crc32ShiftPlain_injective 8
  · exact repeated_injective crc32ShiftReflected_injective 8

theorem crc32Place_injective (reflected : Bool) : Function.Injective (crc32Place reflected) := by
  intro x y h
  cases reflected with
  | false =>
    have h : x.zeroExtend 32 <<< 24 = y.zeroExtend 32 <<< 24 := h
    bv_omega
  | true =>
    have h : x.zeroExtend 32 = y.zeroExtend 32 := h
    bv_omega

/-- Registers that differ stay different through the same bytes. -/
theorem foldl_injective {α β : Type} {f : α → β → α} (hf : ∀ b, Function.Injective fun c => f c b) (l : List β) :
    Function.Injective fun c => l.foldl f c := by
  induction l with
  | nil => exact Function.injective_id
  | cons b l ih => exact ih.comp (hf b)

/-- Settles O27: the changed byte changes the register, and the loop and the bytes after it keep the difference. -/
theorem crc32DetectsOneChangedByte : Obligations.Crc32DetectsOneChangedByte := by
  intro cfg before after x y hne h
  have hloop := crc32Loop_injective cfg.crc32Reflected
  have hbyte : ∀ b, Function.Injective fun c => crc32Loop cfg.crc32Reflected (c ^^^ crc32Place cfg.crc32Reflected b) :=
    fun b => hloop.comp fun _ _ => (BitVec.xor_left_inj _).1
  rw [crc32_eq, crc32_eq, BitVec.xor_left_inj, List.foldl_append, List.foldl_append] at h
  have hplaced := (BitVec.xor_right_inj _).1 (hloop (foldl_injective hbyte after h))
  exact hne (crc32Place_injective _ hplaced)

/-! ### CRC-32 by table -/

theorem repeated_shiftLeft {w : Nat} (n : Nat) (c : BitVec w) :
    repeated (fun c : BitVec w => c <<< 1) n c = c <<< n := by
  induction n generalizing c with
  | zero => exact (BitVec.shiftLeft_zero c).symm
  | succ n ih => rw [repeated, ih, ← BitVec.shiftLeft_add, Nat.add_comm]

theorem repeated_ushiftRight {w : Nat} (n : Nat) (c : BitVec w) :
    repeated (fun c : BitVec w => c >>> 1) n c = c >>> n := by
  induction n generalizing c with
  | zero => exact (BitVec.ushiftRight_zero c).symm
  | succ n ih => rw [repeated, ih, ← BitVec.shiftRight_add, Nat.add_comm]

theorem and_0xFF (c : Word) : c &&& 0xFF = (c.setWidth 8).setWidth 32 := by
  refine BitVec.eq_of_toNat_eq ?_
  have hmod : c.toNat &&& (2 ^ 8 - 1) = c.toNat % 2 ^ 8 := Nat.and_two_pow_sub_one_eq_mod c.toNat 8
  have hlt : c.toNat % 2 ^ 8 < 2 ^ 32 := by omega
  simpa using hmod.trans (Nat.mod_eq_of_lt hlt).symm

/-- The eight low bits apart from the others; a byte placed low changes only the former. -/
theorem reflected_register_split (c : Word) (b : Byte) :
    c ^^^ b.zeroExtend 32 = (c >>> 8) <<< 8 ^^^ ((c ^^^ b.zeroExtend 32) &&& 0xFF) := by
  rw [and_0xFF]
  refine BitVec.eq_of_getLsbD_eq fun j hj => ?_
  by_cases h : j < 8
  · simp [h, hj]
  · simp [h, hj, show 8 + (j - 8) = j by omega, BitVec.getLsbD_of_ge b j (by omega)]

/-- The eight high bits apart from the others; a byte placed high changes only the former. -/
theorem plain_register_split (c : Word) (b : Byte) :
    c ^^^ (b.zeroExtend 32 <<< 24) = (c <<< 8) >>> 8 ^^^ (((c >>> 24) ^^^ b.zeroExtend 32) <<< 24) := by
  refine BitVec.eq_of_getLsbD_eq fun j hj => ?_
  by_cases h : j < 24
  · simp [h, hj, show 8 + j < 32 by omega]
  · simp [h, hj, show ¬8 + j < 32 by omega, show 24 + (j - 24) = j by omega]

/-- R105, reflected form: the eight low bits index the table, the others move down. -/
theorem crc32ByteReflected_eq_table (c : Word) (b : Byte) : crc32ByteReflected c b =
    (c >>> 8) ^^^ repeated crc32ShiftReflected 8 ((c ^^^ b.zeroExtend 32) &&& 0xFF) := by
  have hclear : ∀ k < 8, (repeated (fun c : Word => c >>> 1) k ((c >>> 8) <<< 8)).getLsbD 0 = false := by
    intro k hk
    rw [repeated_ushiftRight]
    simp [hk]
  have hrest : repeated (fun c : Word => c >>> 1) 8 ((c >>> 8) <<< 8) = c >>> 8 := by
    rw [repeated_ushiftRight]
    bv_omega
  calc
    _ = repeated crc32ShiftReflected 8 ((c >>> 8) <<< 8 ^^^ ((c ^^^ b.zeroExtend 32) &&& 0xFF)) :=
      congrArg _ (reflected_register_split c b)
    _ = _ := by rw [crc32ShiftReflected_eq, repeated_feedbackStep_xor (ushiftRight_xorLinear 1) _ hclear, hrest]

/-- R105, unreflected form: the eight high bits index the table, the others move up. -/
theorem crc32BytePlain_eq_table (c : Word) (b : Byte) : crc32BytePlain c b =
    (c <<< 8) ^^^ repeated crc32ShiftPlain 8 (((c >>> 24) ^^^ b.zeroExtend 32) <<< 24) := by
  have hclear : ∀ k < 8, (repeated (fun c : Word => c <<< 1) k ((c <<< 8) >>> 8)).getLsbD 31 = false := by
    intro k hk
    rw [repeated_shiftLeft]
    simp [show 8 + (31 - k) ≥ 32 by omega]
  have hrest : repeated (fun c : Word => c <<< 1) 8 ((c <<< 8) >>> 8) = c <<< 8 := by
    rw [repeated_shiftLeft]
    bv_omega
  calc
    _ = repeated crc32ShiftPlain 8 ((c <<< 8) >>> 8 ^^^ (((c >>> 24) ^^^ b.zeroExtend 32) <<< 24)) :=
      congrArg _ (plain_register_split c b)
    _ = _ := by rw [crc32ShiftPlain_eq, repeated_feedbackStep_xor (shiftLeft_xorLinear 1) _ hclear, hrest]

/-- Settles O28: a byte by table is a byte by the eight-step loop, in both forms. -/
theorem tableEngineIsCrc32 : Obligations.TableEngineIsCrc32 := by
  constructor
  · intro s
    rw [crc32, if_pos rfl, funext₂ crc32ByteReflected_eq_table]
    rfl
  · intro s
    rw [crc32, if_neg Bool.false_ne_true, funext₂ crc32BytePlain_eq_table]
    rfl

/-! ### The commands -/

/-- The check of the span takes one of two branches, and each ends the command (R102, R106). -/
theorem exec_checksum {i : Instr} {f : List Byte → Word} {s : State} (hi : commandStart i s = checksumCommand f s) :
    (s.argA.toNat + s.argB.toNat ≤ s.config.msgCap →
      exec i s = .next (succeed (f (memRead s .msg s.argA.toNat s.argB.toNat)) s)) ∧
    (s.config.msgCap < s.argA.toNat + s.argB.toNat → exec i s = .next (raiseError .badLength 0 s)) := by
  rw [exec_eq, hi]
  exact ⟨fun h => congrArg _ (checksumCommand_inside f h), fun h => congrArg _ (checksumCommand_outside f h)⟩

/-- Settles O24: CRC8 is a checksum command, with `crc8` zero-extended. -/
theorem crc8CommandResult : Obligations.Crc8CommandResult :=
  fun s => exec_checksum (i := .crc8) (f := fun bytes => (crc8 bytes).zeroExtend 32) (s := s) rfl

/-- Settles O25: CRC32 is a checksum command, with `crc32` in the form of the parameters. -/
theorem crc32CommandResult : Obligations.Crc32CommandResult :=
  fun s => exec_checksum (i := .crc32) (f := crc32 s.config) (s := s) rfl

end Sys2Proof.Machine
end

section
/-! PROOFS. The framer (41_framer.md): how a message is cut into packets (R116, R117), the bytes of a packet (R118 to
R121), a transmit phase that ends at a failed write (R122), and FRAME's refusals (R123, R199). -/

namespace Sys2Proof.Machine

open Sys2Proof

/-! ### The segmentation -/

section
variable {len m k : Nat}

theorem packetCount_of_le (h : len ≤ m) : packetCount len m = 1 := if_pos h

/-- The packet count is the least number of packets that holds the message: what R116's ceiling says. -/
theorem packetCount_le_iff (hm : 1 ≤ m) (hk : 1 ≤ k) : packetCount len m ≤ k ↔ len ≤ k * m := by
  have hmk : m ≤ k * m := Nat.le_mul_of_pos_left m hk
  unfold packetCount
  split
  · omega
  · rw [Nat.div_le_iff_le_mul_add_pred hm, Nat.mul_comm m k]
    omega

theorem le_packetCount_mul (hm : 1 ≤ m) : len ≤ packetCount len m * m :=
  (packetCount_le_iff hm (packetCount_pos hm)).1 le_rfl

/-- The last packet of a message that is not empty begins inside the message. -/
theorem lastPacket_start_lt (hm : 1 ≤ m) (hlen : 1 ≤ len) : (packetCount len m - 1) * m < len := by
  have hpos : 0 < packetCount len m := packetCount_pos hm
  by_cases hone : packetCount len m = 1
  · rwa [hone, Nat.sub_self, Nat.zero_mul]
  · have hleast := packetCount_le_iff (len := len) hm (k := packetCount len m - 1) (by omega)
    omega

/-- A packet that is not the last carries a whole MTU (R117). -/
theorem payloadLength_of_not_last (hm : 1 ≤ m) (h : k + 1 < packetCount len m) : payloadLength len m k = m := by
  have hmore : ¬len ≤ (k + 1) * m := mt (packetCount_le_iff hm k.succ_pos).2 (by omega)
  rw [Nat.succ_mul] at hmore
  exact min_eq_left (by omega)

/-- The last packet carries the rest (R117). -/
theorem payloadLength_last (hm : 1 ≤ m) :
    payloadLength len m (packetCount len m - 1) = len - (packetCount len m - 1) * m := by
  have hall : len ≤ packetCount len m * m := le_packetCount_mul hm
  obtain ⟨n, hn⟩ := Nat.exists_eq_add_of_le' (packetCount_pos (len := len) hm)
  rw [hn, Nat.succ_mul] at hall
  rw [hn, Nat.add_sub_cancel]
  exact min_eq_right (by omega)

end

/-- The payloads of the first `k` packets are the message up to where packet `k` begins, or the whole of it. -/
theorem flatMap_payloads (s : State) (len m k : Nat) :
    (List.range k).flatMap (fun i => memRead s .msg (i * m) (payloadLength len m i)) =
      memRead s .msg 0 (min (k * m) len) := by
  induction k with
  | zero => simp [memRead]
  | succ k ih =>
    rw [List.range_succ, List.flatMap_append, ih, List.flatMap_singleton, Nat.succ_mul, payloadLength]
    by_cases hk : k * m ≤ len
    · have hnext := memRead_append s .msg 0 (k * m) (min m (len - k * m))
      rw [Nat.zero_add] at hnext
      rw [min_eq_left hk, hnext]
      congr 1
      omega
    · rw [show min m (len - k * m) = 0 by omega, show min (k * m + m) len = min (k * m) len by omega]
      exact List.append_nil _

/-- Settles O31: the packet count is the least that holds the message, and the payloads are put together in order. -/
theorem payloadsPartitionTheMessage : Obligations.PayloadsPartitionTheMessage := by
  intro s len m hm n
  have hlast : payloadLength len m (n - 1) = len - (n - 1) * m := payloadLength_last hm
  have hall : len ≤ n * m := le_packetCount_mul hm
  refine ⟨packetCount_of_le, fun h => ⟨lastPacket_start_lt hm (by omega), hall⟩,
    fun k => payloadLength_of_not_last hm, hlast, fun hlen => ⟨?_, min_le_left ..⟩, ?_, ?_⟩
  · have hstart : (n - 1) * m < len := lastPacket_start_lt hm hlen
    omega
  · rintro rfl
    simp [payloadLength]
  · rw [flatMap_payloads, min_eq_right hall]

/-! ### The bytes of a packet -/

/-- The control byte as its fields side by side, at this hardware's message tag (R74). -/
theorem controlByte_mfe (som eom owner : Bool) (k : Nat) :
    controlByte Config.mfe som eom k owner =
      ((if som then 1 else 0 : Byte) <<< 7) ||| ((if eom then 1 else 0 : Byte) <<< 6) |||
        (BitVec.ofNat 8 (k % 4) <<< 4) ||| ((if owner then 1 else 0 : Byte) <<< 3) ||| (3 : Byte) := by
  rw [controlByte_mod]
  have hk : k % 4 < 4 := Nat.mod_lt k (by decide)
  generalize k % 4 = r at hk
  revert som eom owner r
  decide

/-- The PEC mask is applied to a message of one packet, with PEC_XOR_FIRST set, and to no other (R121). -/
theorem xor_pecMask (s : State) (n : Nat) (pec : Byte) :
    pec ^^^ pecMask s n = if n = 1 ∧ s.options.getLsbD 1 = true then pec ^^^ readByte s .msg 0 else pec := by
  unfold pecMask pecXorFirst
  split
  · rfl
  · exact BitVec.xor_zero

/-- Settles O29: the header and the PEC span by R118 to R120, the control byte by its fields, the mask by R121. -/
theorem packetBytesFollowTheLayout : Obligations.PacketBytesFollowTheLayout := by
  intro s f k hc l p flag control tail
  have hcontrol : controlByte s.config (k == 0) (k + 1 == f.count) k (tagOwner s) = control := by
    rw [hc, controlByte_mfe]
    simp only [beq_iff_eq, tagOwner]
    rfl
  have htail : (packetHeader s l k f.count).tail = tail := by
    rw [packetHeader, hcontrol, hc]
    rfl
  have hhead : (packetHeader s l k f.count).toBytes =
      [s.addr.extractLsb' 0 8, 0x0F, BitVec.ofNat 8 (l + 5), s.addr.extractLsb' 8 8] ++ tail := by
    rw [packetHeader, hcontrol, hc]
    rfl
  have hpec := xor_pecMask s f.count (crc8 (tail ++ p))
  rw [← hhead, ← hpec, ← htail]
  rfl

/-! ### A failed write -/

/-- A write that fails, or is short, ends the transmit phase (R122). -/
theorem writeAnswered_failed (command : BusCommand) (f : Sending) {a : BusAnswer} (s : State)
    (h : ∀ count unread, a = .ok count unread → count ≠ payloadLength f.len f.mtu f.index + 9) :
    writeAnswered command f a s = sendFailed command f.index s := by
  cases a with
  | err => rfl
  | ok count unread => exact if_pos (h count unread rfl)

/-- What a failed write leaves does not look at `running`, which handing over the packet had set. -/
theorem sendFailed_running (command : BusCommand) (sent : Nat) (s : State) (x : Option Running) :
    sendFailed command sent { s with running := x } = sendFailed command sent s := by
  cases command <;> rfl

/-- The transmit phase that ends at a failed write: packets written, the next one handed to the bus and not
written, and no further one (R122). -/
theorem send_phase_fails (command : BusCommand) {s : State} {answers : List BusAnswer} {a : BusAnswer}
    {packet : List Byte} (hack : Acknowledge answers ((framePackets s).take answers.length))
    (hpacket : (framePackets s)[answers.length]? = some packet)
    (ha : ∀ count unread, a = .ok count unread → count ≠ packet.length) :
    Feeds (answers ++ [a]) (startSend command s.argB.toNat s)
      (sendFailed command answers.length
        { s with busLog := s.busLog ++ writesOf ((framePackets s).take (answers.length + 1)) }) := by
  obtain ⟨hlt, rfl⟩ := List.getElem?_eq_some_iff.1 hpacket
  refine feeds_append (send_phase_some command hack hlt) (feeds_cons rfl ?_)
  simp only [framePackets, List.getElem_map, List.getElem_range, packetBytes_length] at ha
  refine Eq.trans ?_ (writeAnswered_failed command
    ⟨s.argB.toNat, s.mtu.toNat, (framePackets s).length, answers.length⟩ _ ha).symm
  exact (sendFailed_running command answers.length _ _).symm

/-- Settles O33: the transmit phase that ends at a failed write, which FRAME reports with the packets written. -/
theorem frameStopsAtAFailedWrite : Obligations.FrameStopsAtAFailedWrite := by
  intro s answers a rest packet hlen hopen _ hack hpacket ha hbus hin
  have h := send_phase_fails .frame (s := { s with replyValid := false }) hack hpacket ha
  rw [← frameCommand_starts hlen hopen] at h
  have hn : (answers ++ [a]).length = answers.length + 1 := List.length_append
  rw [← hn] at hin
  have hrun := exec_run (i := .frame) h hbus hin
  rw [hn] at hrun
  exact hrun

/-! ### Refusals -/

theorem frameCommand_refuses_length {s : State} (h : s.config.msgCap < s.argB.toNat) :
    frameCommand s = raiseError .badLength 0 s := if_pos h

theorem frameCommand_refuses_closed {s : State} (hlen : s.argB.toNat ≤ s.config.msgCap) (h : s.busOpen = false) :
    frameCommand s = raiseError .notOpen 0 s :=
  (if_neg (Nat.not_lt.2 hlen)).trans (if_pos h)

/-- Settles O34: each refusal is one branch of FRAME's checks, taken in their order. -/
theorem frameRefusals : Obligations.FrameRefusals := by
  intro s
  rw [exec_eq]
  exact ⟨fun h => congrArg _ (frameCommand_refuses_length h),
    fun hlen h => congrArg _ (frameCommand_refuses_closed hlen h)⟩

end Sys2Proof.Machine
end

section
/-! PROOFS. DEFRAME's refusal (R146), and the ways a reception fails (R137 to R141, R145): the packets accepted before
it, the reads and checks of the packet it fails at, and the state it leaves. -/

namespace Sys2Proof.Machine

open Sys2Proof

/-! ### The refusal -/

theorem deframeCommand_refuses_closed {s : State} (h : s.busOpen = false) :
    deframeCommand s = raiseError .notOpen 0 s :=
  if_pos h

/-- Settles O37: DEFRAME's one check. -/
theorem deframeRefusedWhenNotOpen : Obligations.DeframeRefusedWhenNotOpen := by
  intro s h
  rw [exec_eq]
  exact congrArg _ (deframeCommand_refuses_closed h)

/-! ### The answers that end a receive phase -/

section
variable (command : BusCommand) (sent : Nat) (r : Receiving) (h : Header) {a : BusAnswer} (s : State)

/-- A failed header read, or one of another length than 8 (R137). -/
theorem headerAnswered_failed (ha : ∀ count t, a = .ok count t → t.length ≠ 8) :
    headerAnswered command sent r a s = receiveFailed command sent r .transportIOFailure s := by
  cases a with
  | err => rfl
  | ok count t => simp only [headerAnswered, header_ofBytes_none (ha count t rfl)]

/-- A byte count out of range (R138): the header is stored, the body is not asked for. -/
theorem headerAnswered_badByteCount {unread : Nat} (hbc : h.byteCount.toNat < 5 ∨ r.mtu + 5 < h.byteCount.toNat) :
    headerAnswered command sent r (.ok unread h.toBytes) s =
      receiveFailed command sent r .badByteCount (memWrite .reply r.raw h.toBytes s) :=
  if_pos hbc

/-- A body that would pass REPLY_CAP (R139): the header is stored, the body is not asked for. -/
theorem headerAnswered_overflows {unread : Nat} (h5 : 5 ≤ h.byteCount.toNat) (hmtu : h.byteCount.toNat ≤ r.mtu + 5)
    (hcap : s.config.replyCap < r.raw + 8 + (h.byteCount.toNat - 4)) :
    headerAnswered command sent r (.ok unread h.toBytes) s =
      receiveFailed command sent r .replyOverflow (memWrite .reply r.raw h.toBytes s) :=
  (if_neg (not_or_intro (Nat.not_lt.2 h5) (Nat.not_lt.2 hmtu))).trans (if_pos hcap)

/-- A failed body read, or one of another length than asked for (R140). -/
theorem bodyAnswered_failed (ha : ∀ count t, a = .ok count t → t.length ≠ h.byteCount.toNat - 4) :
    bodyAnswered command sent r h a s = receiveFailed command sent r .transportIOFailure s := by
  cases a with
  | err => rfl
  | ok count t => exact if_pos (ha count t rfl)

/-- A wrong PEC byte where it is checked (R141): the body is stored, the packet is not counted. -/
theorem bodyAnswered_pecMismatch {d : Delivery} (hbc : d.header.byteCount.toNat = d.payload.length + 5)
    (hcheck : r.check = true) (hpec : d.pec ≠ pecOf d.header d.payload) {unread : Nat} :
    bodyAnswered command sent r d.header (.ok unread (d.payload ++ [d.pec])) s =
      receiveFailed command sent r .pecMismatch (memWrite .reply (r.raw + 8) (d.payload ++ [d.pec]) s) := by
  have hlen : ¬(d.payload ++ [d.pec]).length ≠ d.header.byteCount.toNat - 4 := by simp [hbc]
  have hwrong : pecMatches d.header (d.payload ++ [d.pec]) = false := by
    rw [pecMatches_body, beq_eq_false_iff_ne]
    exact hpec.symm
  exact (if_neg hlen).trans (if_pos ⟨hcheck, hwrong⟩)

end

/-! ### A reception up to the packet it fails at -/

/-- Outside REPLYBUF the memory `m` is that of `s`. -/
def SameOutsideReply (s : State) (m : Memory) : Prop :=
  m.erase 0x4000 s.config.replyCap = s.mem.erase 0x4000 s.config.replyCap

/-- A write inside REPLYBUF leaves the rest of memory as it is. -/
theorem SameOutsideReply.write {s : State} {m : Memory} (h : SameOutsideReply s m) {i : Nat} {bs : List Byte}
    (hfit : i + bs.length ≤ s.config.replyCap) : SameOutsideReply s (m.write (0x4000 + i) bs) :=
  (erase_write m (Nat.le_add_right 0x4000 i) (by omega)).trans h

/-- The state of a DEFRAME that has accepted the packets `ds` and then issued the reads `ops`, with memory `m` and
sequencing state `x`. -/
def receptionAt (s : State) (ds : List Delivery) (m : Memory) (ops : List BusOp) (x : Option Running) : State :=
  { s with
    replyValid := false
    rawLen := BitVec.ofNat 16 (rawOf ds).length
    rxLen := BitVec.ofNat 16 (messageOf ds).length
    mem := m
    running := x
    busLog := s.busLog ++ readsOf ds ++ ops }

theorem issue_receptionAt (op : BusOp) (r : Running) (s : State) (ds : List Delivery) (m : Memory) (ops : List BusOp)
    (x : Option Running) : issue op r (receptionAt s ds m ops x) = receptionAt s ds m (ops ++ [op]) (some r) := by
  simp only [issue, receptionAt, List.append_assoc]

section
variable {s : State} {ds : List Delivery} {h : Header}

/-- A header that fits is read (R137, R139). -/
theorem awaitPacket_receptionAt (hfit : (rawOf ds).length + 8 ≤ s.config.replyCap) (m : Memory) (x : Option Running) :
    awaitPacket .deframe 0 (placeAfter s ds) (receptionAt s ds m [] x) =
      receptionAt s ds m [.busRead 8] (some ⟨.deframe, 0, .awaitHeader (placeAfter s ds)⟩) := by
  rw [awaitPacket_fits .deframe 0 hfit, issue_receptionAt, List.nil_append]

/-- An acceptable header is stored, and the body is read (R137 to R140). -/
theorem feeds_acceptableHeader (h5 : 5 ≤ h.byteCount.toNat) (hmtu : h.byteCount.toNat ≤ s.mtu.toNat + 5)
    (hfit : (rawOf ds).length + h.byteCount.toNat + 4 ≤ s.config.replyCap) (m : Memory) (x : Option Running)
    (unread : Nat) :
    Feeds [.ok unread h.toBytes] (awaitPacket .deframe 0 (placeAfter s ds) (receptionAt s ds m [] x))
      (receptionAt s ds (m.write (0x4000 + (rawOf ds).length) h.toBytes)
        [.busRead 8, .busRead (h.byteCount.toNat - 4)] (some ⟨.deframe, 0, .awaitBody (placeAfter s ds) h⟩)) := by
  obtain ⟨n, hn⟩ := Nat.exists_eq_add_of_le' h5
  rw [hn] at hmtu hfit ⊢
  rw [awaitPacket_receptionAt (by omega)]
  refine ⟨_, rfl, ?_⟩
  have hread := headerAnswered_ok .deframe 0 (placeAfter s ds) h n unread
    (s := receptionAt s ds m [.busRead 8] (some ⟨.deframe, 0, .awaitHeader (placeAfter s ds)⟩)) hn
    (Nat.le_of_add_le_add_right hmtu) (show (rawOf ds).length + (n + 9) ≤ s.config.replyCap by omega)
  exact (hread.trans
    (issue_receptionAt _ _ s ds (m.write (0x4000 + (rawOf ds).length) h.toBytes) [.busRead 8] _)).symm

end

/-- DEFRAME accepts packets without EOM and looks for the next one (R136). -/
theorem deframe_accepts {s : State} {ds : List Delivery} (hopen : s.busOpen = true) (hds : Continues s ds) :
    ∃ m, SameOutsideReply s m ∧ Feeds (answersOf ds) (commandStart .deframe s)
      (awaitPacket .deframe 0 (placeAfter s ds) (receptionAt s ds m [] s.running)) := by
  rw [commandStart, deframeCommand_starts hopen]
  obtain ⟨hacc, hcap⟩ := hds
  by_cases hne : ds = []
  · subst hne
    refine ⟨s.mem, rfl, ?_⟩
    rw [receptionAt, show readsOf [] = [] from rfl, List.append_nil, List.append_nil]
    exact feeds_nil _
  · refine ⟨s.mem.write 0x4000 (rawOf ds), SameOutsideReply.write (i := 0) rfl (by omega), ?_⟩
    have hloop := receive_loop .deframe 0 ds hne ⟨s.mtu.toNat, s.options.getLsbD 2, 0, 0, 0⟩
      { s with replyValid := false, rawLen := 0, rxLen := 0 } hacc (by simpa using hcap)
    simp only [Nat.zero_add, Nat.add_zero] at hloop
    rw [receptionAt, List.append_nil]
    exact hloop

/-- The packet after `ds`, whose reads `ops` the bus answers with `answers`, ends the reception with `code`. -/
def FailsAfter (s : State) (ds : List Delivery) (answers : List BusAnswer) (code : StatusCode) (ops : List BusOp) :
    Prop :=
  ∀ m, SameOutsideReply s m → ∃ m' x, SameOutsideReply s m' ∧
    Feeds answers (awaitPacket .deframe 0 (placeAfter s ds) (receptionAt s ds m [] s.running))
      (receiveFailed .deframe 0 (placeAfter s ds) code (receptionAt s ds m' ops x))

/-- R145: what a failed reception leaves; the bytes it stored in REPLYBUF are forgotten. -/
theorem receiveFailed_receptionAt {s : State} {ds : List Delivery} {m : Memory} (hm : SameOutsideReply s m)
    (code : StatusCode) (ops : List BusOp) (x : Option Running) (rest : List BusEvent) :
    (receiveFailed .deframe 0 (placeAfter s ds) code (receptionAt s ds m ops x)).facing
      (inputsAfter (2 * ds.length + ops.length) s.inputs) rest = failedReception s ds code ops rest := by
  rw [failedReception, ← hm]
  rfl

/-- A DEFRAME whose reception fails after the packets `ds`, one step a read. -/
theorem deframe_fails {s : State} {ds : List Delivery} {answers : List BusAnswer} {code : StatusCode}
    {ops : List BusOp} {rest : List BusEvent} (hopen : s.busOpen = true) (hds : Continues s ds)
    (hfails : FailsAfter s ds answers code ops) (hlen : answers.length = ops.length)
    (hbus : s.bus = answered (answersOf ds ++ answers) rest) (hin : NoResetFor (2 * ds.length + ops.length) s.inputs) :
    ∃ b, exec .deframe s = .next b ∧
      Host.Core.run Sys2Proof.core (2 * ds.length + ops.length) b = .next (failedReception s ds code ops rest) := by
  obtain ⟨m, hm, haccepts⟩ := deframe_accepts hopen hds
  obtain ⟨m', x, hm', hend⟩ := hfails m hm
  have hn : (answersOf ds ++ answers).length = 2 * ds.length + ops.length := by
    rw [List.length_append, answersOf_length, hlen]
  rw [← receiveFailed_receptionAt hm' code ops x rest]
  rw [← hn] at hin ⊢
  exact exec_run (feeds_append haccepts hend) hbus hin

/-! ### The packet it fails at -/

section
variable {s : State} {ds : List Delivery} {code : StatusCode} {h : Header} {a : BusAnswer}

/-- The header does not fit: nothing more is read (R139). -/
theorem failsAfter_headerOverflow (hcap : s.config.replyCap < (rawOf ds).length + 8) :
    FailsAfter s ds [] .replyOverflow [] :=
  fun m hm => ⟨m, s.running, hm, (awaitPacket_overflows .deframe 0 hcap).symm⟩

/-- The header fits, and the answer to its read ends the reception (R137 to R139). -/
theorem failsAfter_header (hfit : (rawOf ds).length + 8 ≤ s.config.replyCap)
    (hends : ∀ m x, SameOutsideReply s m → ∃ m', SameOutsideReply s m' ∧
      headerAnswered .deframe 0 (placeAfter s ds) a (receptionAt s ds m [.busRead 8] x) =
        receiveFailed .deframe 0 (placeAfter s ds) code (receptionAt s ds m' [.busRead 8] x)) :
    FailsAfter s ds [a] code [.busRead 8] := by
  intro m hm
  rw [awaitPacket_receptionAt hfit]
  obtain ⟨m', hm', hend⟩ := hends m (some ⟨.deframe, 0, .awaitHeader (placeAfter s ds)⟩) hm
  exact ⟨m', _, hm', feeds_cons rfl hend.symm⟩

/-- The header is accepted, and the answer to the body read ends the reception (R140, R141). -/
theorem failsAfter_body {unread : Nat} (h5 : 5 ≤ h.byteCount.toNat) (hmtu : h.byteCount.toNat ≤ s.mtu.toNat + 5)
    (hfit : (rawOf ds).length + h.byteCount.toNat + 4 ≤ s.config.replyCap)
    (hends : ∀ m ops x, SameOutsideReply s m → ∃ m', SameOutsideReply s m' ∧
      bodyAnswered .deframe 0 (placeAfter s ds) h a (receptionAt s ds m ops x) =
        receiveFailed .deframe 0 (placeAfter s ds) code (receptionAt s ds m' ops x)) :
    FailsAfter s ds [.ok unread h.toBytes, a] code [.busRead 8, .busRead (h.byteCount.toNat - 4)] := by
  intro m hm
  have hstored : SameOutsideReply s (m.write (0x4000 + (rawOf ds).length) h.toBytes) :=
    hm.write (by rw [header_toBytes_length]; omega)
  obtain ⟨m', hm', hend⟩ := hends _ [.busRead 8, .busRead (h.byteCount.toNat - 4)]
    (some ⟨.deframe, 0, .awaitBody (placeAfter s ds) h⟩) hstored
  exact ⟨m', _, hm', feeds_append (feeds_acceptableHeader h5 hmtu hfit m _ unread) ⟨_, rfl, hend.symm⟩⟩

/-- The body does not fit: the header is read, the body is not (R139). -/
theorem failsAfter_bodyOverflow {unread : Nat} (hfit : (rawOf ds).length + 8 ≤ s.config.replyCap)
    (h5 : 5 ≤ h.byteCount.toNat) (hmtu : h.byteCount.toNat ≤ s.mtu.toNat + 5)
    (hcap : s.config.replyCap < (rawOf ds).length + 8 + (h.byteCount.toNat - 4)) :
    FailsAfter s ds [.ok unread h.toBytes] .replyOverflow [.busRead 8] :=
  failsAfter_header hfit fun _ _ hm =>
    ⟨_, hm.write hfit, headerAnswered_overflows .deframe 0 (placeAfter s ds) h _ h5 hmtu hcap⟩

end

/-! ### The statements -/

/-- Settles O38: the header read or the body read of the next packet fails. -/
theorem deframeFailsOnAFailedRead : Obligations.DeframeFailsOnAFailedRead := by
  intro s ds a rest hopen hds
  refine ⟨fun hfit hbus hin ha => ?_, fun h unread h5 hmtu hfit hbus hin ha => ?_⟩
  · exact deframe_fails hopen hds
      (failsAfter_header hfit fun m _ hm => ⟨m, hm, headerAnswered_failed .deframe 0 _ _ ha⟩) rfl hbus hin
  · exact deframe_fails hopen hds
      (failsAfter_body h5 hmtu hfit fun m _ _ hm => ⟨m, hm, bodyAnswered_failed .deframe 0 _ h _ ha⟩) rfl hbus hin

/-- Settles O39: the header of the next packet has a byte count out of range. -/
theorem deframeChecksTheByteCount : Obligations.DeframeChecksTheByteCount := by
  intro s ds h unread rest hopen hds hfit hbus hin hbc
  exact deframe_fails hopen hds
    (failsAfter_header hfit fun _ _ hm =>
      ⟨_, hm.write hfit, headerAnswered_badByteCount .deframe 0 (placeAfter s ds) h _ hbc⟩) rfl hbus hin

/-- Settles O40: the header or the body of the next packet does not fit. -/
theorem deframeChecksTheCapacity : Obligations.DeframeChecksTheCapacity := by
  intro s ds rest hopen hds
  refine ⟨fun hcap hbus hin => ?_, fun h unread hfit h5 hmtu hcap hbus hin => ?_⟩
  · exact deframe_fails hopen hds (failsAfter_headerOverflow hcap) rfl (by rwa [List.append_nil]) hin
  · exact deframe_fails hopen hds (failsAfter_bodyOverflow hfit h5 hmtu hcap) rfl hbus hin

/-- Settles O41: the next packet is read whole, and its PEC byte is wrong. -/
theorem deframeChecksThePec : Obligations.DeframeChecksThePec := by
  intro s ds d rest hopen hcheck hds hbc hpayload hcap hbus hin hpec
  have hraw : (rawOf ds).length + (d.payload.length + 9) ≤ s.config.replyCap := by
    simpa [rawOf] using hcap
  have hfails : FailsAfter s ds d.answers .pecMismatch [.busRead 8, .busRead (d.header.byteCount.toNat - 4)] :=
    failsAfter_body (by omega) (by omega) (by omega) fun _ _ _ hm =>
      ⟨_, hm.write (i := (rawOf ds).length + 8) (by rw [List.length_append, List.length_singleton]; omega),
        bodyAnswered_pecMismatch .deframe 0 (placeAfter s ds) _ hbc hcheck hpec⟩
  rw [hbc] at hfails
  exact deframe_fails hopen hds hfails rfl (by simpa [answersOf] using hbus) hin

end Sys2Proof.Machine
end

section
/-! PROOFS. Where the message bytes of a whole reception stand in REPLYBUF (R147, R159), and what DEFRAME makes of the
packets FRAME sent (R149): they are a whole response, or one of them is the first that does not fit. -/

namespace Sys2Proof.Machine

open Sys2Proof

/-! ### Positions in the reply -/

/-- Packets of at most `mtu` payload bytes carry at most that many message bytes together. -/
theorem messageOf_length_le {mtu : Nat} {ds : List Delivery} (h : ∀ d ∈ ds, d.payload.length ≤ mtu) :
    (messageOf ds).length ≤ ds.length * mtu := by
  induction ds with
  | nil => exact Nat.zero_le _
  | cons d ds ih =>
    have hd := h d (by simp)
    have hds := ih fun e he => h e (by simp [he])
    rw [messageOf_cons, List.length_append, List.length_cons, Nat.succ_mul]
    omega

/-- R159: the position of a byte of a message is inside the raw bytes of any `count` packets that hold the message. -/
theorem rawPosition_lt {mtu len count i : Nat} (hlen : len ≤ count * mtu) (hi : i < len) :
    rawPosition mtu i < len + 9 * count := by
  have hpacket : i / mtu < count := Nat.div_lt_of_lt_mul (by rw [Nat.mul_comm]; omega)
  have hsplit : i / mtu * mtu + i % mtu = i := Nat.div_add_mod' i mtu
  rw [rawPosition, Nat.mul_add]
  omega

/-- RAW_LEN is the number of raw bytes: they fit REPLYBUF, so their number fits 16 bits (R30). -/
theorem response_rawLength_toNat {s : State} {ds : List Delivery} {last : Delivery} (hc : s.config.Legal)
    (h : Response s ds last) :
    (BitVec.ofNat 16 (rawOf (ds ++ [last])).length).toNat = (rawOf (ds ++ [last])).length := by
  obtain ⟨-, -, -, hraw⟩ := h
  have hcap : s.config.replyCap ≤ 8192 := cap_le hc .reply
  rw [BitVec.toNat_ofNat]
  omega

/-- No packet of a response carries more than an MTU (R138). -/
theorem response_message_length_le {s : State} {ds : List Delivery} {last : Delivery} (h : Response s ds last) :
    (messageOf (ds ++ [last])).length ≤ (ds ++ [last]).length * s.mtu.toNat := by
  obtain ⟨⟨hds, -⟩, ⟨-, hlast, -⟩, -, -⟩ := h
  refine messageOf_length_le fun d hd => ?_
  rcases List.mem_append.1 hd with hd | hd
  · obtain ⟨⟨-, hle, -⟩, -⟩ := hds d hd
    exact hle
  · rwa [List.mem_singleton.1 hd]

/-- Settles O44: a reception leaves the response's lengths, and its bytes in REPLYBUF. -/
theorem positionsLieInTheReply : Obligations.PositionsLieInTheReply := by
  intro s ds last rest hc hopen hresp hbus hin
  obtain ⟨b, hb, hrun⟩ := deframeReceivesAResponse s ds last rest hopen hresp hbus hin
  have hlen := response_length_toNat hc hresp
  refine ⟨b, _, hb, hrun, rfl, hlen, fun i hi => ?_, fun hds i hi => ?_⟩
  · have hpos := rawPosition_lt (response_message_length_le hresp) (hlen ▸ hi)
    rw [← rawOf_length] at hpos
    exact hpos.trans_eq (response_rawLength_toNat hc hresp).symm
  · have hi : i < (messageOf (ds ++ [last])).length := hlen ▸ hi
    have hm : 1 ≤ s.mtu.toNat := by
      have hle := response_message_length_le hresp
      exact Nat.pos_of_ne_zero fun h0 => by rw [h0, Nat.mul_zero] at hle; omega
    exact readByte_rawPosition hresp hm hds rfl rfl hi

/-! ### The packets FRAME sent, delivered back -/

/-- Packet `k` of the message `f` describes, as a bus that sends it back delivers it (R122). -/
def echoDelivery (s : State) (f : Sending) (k : Nat) : Delivery where
  header := packetHeader s (payloadLength f.len f.mtu k) k f.count
  payload := memRead s .msg (k * f.mtu) (payloadLength f.len f.mtu k)
  pec := pecOf (packetHeader s (payloadLength f.len f.mtu k) k f.count)
    (memRead s .msg (k * f.mtu) (payloadLength f.len f.mtu k)) ^^^ pecMask s f.count
  unread := (0, 0)

/-- The first `n` packets FRAME sent, delivered back. -/
def echoDeliveries (s : State) (n : Nat) : List Delivery := (List.range n).map (echoDelivery s (sendingOf s))

theorem echoDelivery_answers (s : State) (f : Sending) (k : Nat) :
    (echoDelivery s f k).answers = echoOf (packetBytes s f k) := by
  simp [Delivery.answers, echoDelivery, echoOf, packetBytes, Header.toBytes]

theorem echoDeliveries_answers (s : State) :
    answersOf (echoDeliveries s (framePackets s).length) = (framePackets s).flatMap echoOf := by
  rw [framePackets_length, answersOf, echoDeliveries, framePackets, List.flatMap_map, List.flatMap_map]
  simp only [echoDelivery_answers]

@[simp] theorem echoDeliveries_length (s : State) (n : Nat) : (echoDeliveries s n).length = n := by
  simp [echoDeliveries]

theorem echoDeliveries_succ (s : State) (n : Nat) :
    echoDeliveries s (n + 1) = echoDeliveries s n ++ [echoDelivery s (sendingOf s) n] := by
  rw [echoDeliveries, List.range_succ, List.map_append]
  rfl

theorem mem_echoDeliveries {s : State} {n : Nat} {d : Delivery} :
    d ∈ echoDeliveries s n ↔ ∃ k < n, echoDelivery s (sendingOf s) k = d := by
  simp [echoDeliveries]

/-- Bit 6 of the control byte is EOM (R74). -/
theorem controlByte_eom (c : Config) (som eom owner : Bool) (k : Nat) :
    (controlByte c som eom k owner).getLsbD 6 = eom := by
  have hsom := bit_le_one som
  have heom := bit_le_one eom
  have howner := bit_le_one owner
  have htag := c.msgTag.isLt
  rw [controlByte, BitVec.getLsbD_ofNat, Nat.testBit_eq_decide_div_mod_eq]
  refine Eq.trans ?_ (decide_bit eom)
  rw [decide_eq_true (by omega : 6 < 8), Bool.true_and]
  congr 2
  omega

section
variable {s : State} {k : Nat}

/-- The last packet sent, and no other, has EOM (R119). -/
theorem echoDelivery_eom : (echoDelivery s (sendingOf s) k).header.eom = (k + 1 == (sendingOf s).count) :=
  controlByte_eom ..

/-- What FRAME sent is acceptable to a deframer of the same MTU, if the PEC is unmasked or not checked (R118 to R121,
R138, R141). -/
theorem echoDelivery_acceptable {check : Bool} (hmtu : s.mtu.toNat ≤ 250)
    (hpec : check = true → pecMask s (sendingOf s).count = 0) :
    (echoDelivery s (sendingOf s) k).Acceptable s.mtu.toNat check := by
  have hle : payloadLength (sendingOf s).len (sendingOf s).mtu k ≤ s.mtu.toNat := Nat.min_le_left ..
  refine ⟨?_, ?_, fun hcheck => ?_⟩
  · simp only [echoDelivery, packetHeader, memRead_length, BitVec.toNat_ofNat]
    omega
  · simpa only [echoDelivery, memRead_length] using hle
  · simp only [echoDelivery, hpec hcheck]
    exact BitVec.xor_zero

end

/-- The packets delivered back carry the message, as far as they go (R117). -/
theorem messageOf_echoDeliveries (s : State) (n : Nat) :
    messageOf (echoDeliveries s n) = memRead s .msg 0 (min (n * s.mtu.toNat) s.argB.toNat) := by
  rw [← flatMap_payloads, messageOf, echoDeliveries, List.flatMap_map]
  rfl

/-- A PEC is unmasked without PEC_XOR_FIRST, and where the message is more than one packet (R121). -/
theorem pecMask_eq_zero {s : State} {n : Nat} (h : s.options.getLsbD 1 = false ∨ 2 ≤ n) : pecMask s n = 0 := by
  refine if_neg ?_
  rintro ⟨hone, hxor⟩
  rcases h with h | h
  · exact absurd (hxor.symm.trans h) (by decide)
  · omega

/-! ### Packets that do not all fit -/

/-- The first packet that passes the capacity. -/
theorem exists_overflowing_packet {ds : List Delivery} {cap : Nat} (h : cap < (rawOf ds).length) :
    ∃ pre d post, ds = pre ++ d :: post ∧ (rawOf pre).length ≤ cap ∧ cap < (rawOf pre).length + d.raw.length := by
  induction ds generalizing cap with
  | nil => exact absurd h (Nat.not_lt_zero _)
  | cons e ds ih =>
    rw [rawOf_cons, List.length_append] at h
    by_cases hfirst : cap < e.raw.length
    · exact ⟨[], e, ds, rfl, Nat.zero_le _, (Nat.zero_add _).symm ▸ hfirst⟩
    · obtain ⟨pre, d, post, rfl, hpre, hd⟩ := ih (cap := cap - e.raw.length) (by omega)
      refine ⟨e :: pre, d, post, rfl, ?_, ?_⟩ <;> rw [rawOf_cons, List.length_append] <;> omega

theorem answered_append (as bs : List BusAnswer) (rest : List BusEvent) :
    answered (as ++ bs) rest = answered as (answered bs rest) := by
  simp only [answered, List.map_append, List.append_assoc]

theorem noResetFor_le {n m : Nat} {l : List Input} (h : NoResetFor m l) (hle : n ≤ m) : NoResetFor n l := by
  obtain ⟨k, rfl⟩ := Nat.exists_eq_add_of_le hle
  exact (noResetFor_add.1 h).1

/-- The first packet that does not fit ends DEFRAME, before its header is read or before its body is (R139). -/
theorem deframe_overflows {s : State} {pre post : List Delivery} {d : Delivery} {rest : List BusEvent}
    (hopen : s.busOpen = true) (hpre : Continues s pre) (hd : d.Acceptable s.mtu.toNat (s.options.getLsbD 2))
    (hcap : s.config.replyCap < (rawOf pre).length + d.raw.length)
    (hbus : s.bus = answered (answersOf (pre ++ d :: post)) rest) (hin : NoResetFor (2 * pre.length + 1) s.inputs) :
    ∃ b n ops rest', exec .deframe s = .next b ∧ n ≤ 2 * pre.length + 1 ∧
      Host.Core.run Sys2Proof.core n b = .next (failedReception s pre .replyOverflow ops rest') := by
  obtain ⟨hbc, hpayload, -⟩ := hd
  rw [delivery_raw_length] at hcap
  have hanswers : answersOf (pre ++ d :: post) =
      answersOf pre ++ (.ok d.unread.1 d.header.toBytes :: .ok d.unread.2 (d.payload ++ [d.pec]) :: answersOf post) := by
    simp only [answersOf, List.flatMap_append]
    rfl
  rw [hanswers] at hbus
  by_cases hfit : (rawOf pre).length + 8 ≤ s.config.replyCap
  · rw [List.append_cons, answered_append] at hbus
    obtain ⟨b, hb, hrun⟩ := deframe_fails hopen hpre
      (failsAfter_bodyOverflow hfit (by omega) (by omega) (by omega)) rfl hbus hin
    exact ⟨b, _, _, _, hb, le_rfl, hrun⟩
  · rw [answered_append, ← List.append_nil (answersOf pre)] at hbus
    obtain ⟨b, hb, hrun⟩ := deframe_fails hopen hpre (failsAfter_headerOverflow (Nat.lt_of_not_le hfit)) rfl hbus
      (noResetFor_le hin (Nat.le_succ _))
    exact ⟨b, _, _, _, hb, Nat.le_succ _, hrun⟩

/-! ### The round trip -/

section
variable {s t : State} {rest : List BusEvent} {n : Nat}

/-- Packets sent before the last leave a deframer in its loop, as long as they fit (R139, R143). -/
theorem continues_echoDeliveries (hcount : (framePackets s).length = n + 1) {pre : List Delivery}
    (hpre : pre ⊆ echoDeliveries s n)
    (hacc : ∀ k, (echoDelivery s (sendingOf s) k).Acceptable t.mtu.toNat (t.options.getLsbD 2))
    (hfit : (rawOf pre).length ≤ t.config.replyCap) : Continues t pre := by
  refine ⟨fun d hd => ?_, hfit⟩
  obtain ⟨k, hk, rfl⟩ := mem_echoDeliveries.1 (hpre hd)
  rw [framePackets_length] at hcount
  refine ⟨hacc k, ?_⟩
  rw [echoDelivery_eom, hcount, beq_eq_false_iff_ne]
  omega

/-- All the packets sent are a whole response, if they fit (R149). -/
theorem response_echoDeliveries (hcount : (framePackets s).length = n + 1)
    (hacc : ∀ k, (echoDelivery s (sendingOf s) k).Acceptable t.mtu.toNat (t.options.getLsbD 2))
    (hfit : (rawOf (echoDeliveries s (n + 1))).length ≤ t.config.replyCap) :
    Response t (echoDeliveries s n) (echoDelivery s (sendingOf s) n) := by
  rw [echoDeliveries_succ] at hfit
  have hpre : (rawOf (echoDeliveries s n)).length ≤ t.config.replyCap := by
    simp only [rawOf, List.flatMap_append, List.length_append] at hfit ⊢
    omega
  refine ⟨continues_echoDeliveries hcount (List.Subset.refl _) hacc hpre, hacc n, ?_, hfit⟩
  rw [framePackets_length] at hcount
  rw [echoDelivery_eom, hcount, beq_self_eq_true]

/-- The packets sent, delivered back, carry the whole message (R117). -/
theorem messageOf_framePackets (hm : 1 ≤ s.mtu.toNat) :
    messageOf (echoDeliveries s (framePackets s).length) = memRead s .msg 0 s.argB.toNat := by
  rw [messageOf_echoDeliveries, framePackets_length, min_eq_right]
  exact le_packetCount_mul hm

/-- The raw bytes of the packets sent are nine a packet more than the message (R149). -/
theorem rawOf_framePackets_length (hm : 1 ≤ s.mtu.toNat) :
    (rawOf (echoDeliveries s (framePackets s).length)).length = s.argB.toNat + 9 * (framePackets s).length := by
  rw [rawOf_length, messageOf_framePackets hm, memRead_length, echoDeliveries_length]

/-- A packet sent before the last carries an MTU (R117). -/
theorem echoDelivery_payload_length (hm : 1 ≤ s.mtu.toNat) (hcount : (framePackets s).length = n + 1) :
    ∀ d ∈ echoDeliveries s n, d.payload.length = s.mtu.toNat := by
  intro d hd
  obtain ⟨k, hk, rfl⟩ := mem_echoDeliveries.1 hd
  rw [framePackets_length] at hcount
  simp only [echoDelivery, memRead_length]
  exact payloadLength_of_not_last hm (show k + 1 < (sendingOf s).count by omega)

/-- R149: packets that fit REPLYBUF together are received as the message they carry. -/
theorem framedMessage_received (hc : t.config.Legal) (hopen : t.busOpen = true) (hm : 1 ≤ s.mtu.toNat)
    (hmtu : t.mtu = s.mtu) (hcount : (framePackets s).length = n + 1)
    (hacc : ∀ k, (echoDelivery s (sendingOf s) k).Acceptable t.mtu.toNat (t.options.getLsbD 2))
    (hbus : t.bus = answered (answersOf (echoDeliveries s (n + 1))) rest)
    (hin : NoResetFor (2 * (n + 1)) t.inputs)
    (hfit : s.argB.toNat + 9 * (n + 1) ≤ t.config.replyCap) :
    ∃ b u, exec .deframe t = .next b ∧ Host.Core.run Sys2Proof.core (2 * (n + 1)) b = .next u ∧
      u.running = none ∧ u.err = .ok ∧ u.replyValid = true ∧ u.result = BitVec.ofNat 32 (n + 1) ∧
      u.rxLen.toNat = s.argB.toNat ∧ u.rawLen.toNat = s.argB.toNat + 9 * (n + 1) ∧
      ∀ i < s.argB.toNat, readByte u .reply (rawPosition s.mtu.toNat i) = readByte s .msg i := by
  have hraw := rawOf_framePackets_length hm
  have hmsg := messageOf_framePackets hm
  rw [hcount] at hraw hmsg
  have hresp := response_echoDeliveries hcount hacc (hraw ▸ hfit)
  rw [echoDeliveries_succ] at hbus hmsg hraw
  have hmsgLength := congrArg List.length hmsg
  rw [memRead_length] at hmsgLength
  obtain ⟨b, hb, hrun⟩ := deframeReceivesAResponse t (echoDeliveries s n) _ rest hopen hresp hbus
    (by rwa [echoDeliveries_length])
  rw [echoDeliveries_length] at hrun
  refine ⟨b, _, hb, hrun, rfl, rfl, rfl, rfl, (response_length_toNat hc hresp).trans hmsgLength,
    (response_rawLength_toNat hc hresp).trans hraw, fun i hi => Option.some_injective _ ?_⟩
  rw [← hmtu] at hm ⊢
  refine Eq.trans (readByte_rawPosition (m := t.mem) hresp hm ?_ rfl rfl (hmsgLength ▸ hi)) ?_
  · rw [hmtu]
    exact echoDelivery_payload_length (hmtu ▸ hm) hcount
  · rw [hmsg, List.getElem?_eq_getElem (by rwa [memRead_length]), memRead_getElem, Nat.zero_add]

/-- R149: of packets that do not fit REPLYBUF together, the first that passes its end is not read to its end. -/
theorem framedMessage_overflows (hopen : t.busOpen = true) (hm : 1 ≤ s.mtu.toNat)
    (hcount : (framePackets s).length = n + 1)
    (hacc : ∀ k, (echoDelivery s (sendingOf s) k).Acceptable t.mtu.toNat (t.options.getLsbD 2))
    (hbus : t.bus = answered (answersOf (echoDeliveries s (n + 1))) rest)
    (hin : NoResetFor (2 * (n + 1)) t.inputs)
    (hcap : t.config.replyCap < s.argB.toNat + 9 * (n + 1)) :
    ∃ b k u, exec .deframe t = .next b ∧ k < 2 * (n + 1) ∧ Host.Core.run Sys2Proof.core k b = .next u ∧
      u.running = none ∧ u.err = .replyOverflow ∧ u.replyValid = false := by
  have hraw := rawOf_framePackets_length hm
  rw [hcount] at hraw
  obtain ⟨pre, d, post, hsplit, hpre, hd⟩ := exists_overflowing_packet (hraw ▸ hcap)
  have hinit : echoDeliveries s n = pre ++ (d :: post).dropLast := by
    rw [← List.dropLast_append_cons, ← hsplit, echoDeliveries_succ, List.dropLast_concat]
  have hlen : pre.length ≤ n := by
    rw [← echoDeliveries_length s n, hinit, List.length_append]
    exact Nat.le_add_right ..
  have hsent : d ∈ echoDeliveries s (n + 1) := hsplit ▸ List.mem_append_right pre List.mem_cons_self
  obtain ⟨k, -, rfl⟩ := mem_echoDeliveries.1 hsent
  have hcontinues := continues_echoDeliveries hcount (hinit ▸ List.subset_append_left ..) hacc hpre
  obtain ⟨b, m, ops, rest', hb, hle, hrun⟩ :=
    deframe_overflows hopen hcontinues (hacc k) hd (hsplit ▸ hbus) (noResetFor_le hin (by omega))
  exact ⟨b, m, _, hb, by omega, hrun, rfl, rfl, rfl⟩

end

/-- Settles O42: the packets are a whole response, or the first that does not fit ends DEFRAME. -/
theorem framedMessageRoundTrips : Obligations.FramedMessageRoundTrips := by
  intro s t rest hc hconfig hm hm250 _ hmtu hopen hmask hbus hin
  obtain ⟨n, hcount⟩ := Nat.exists_eq_add_of_le' (show 1 ≤ (framePackets s).length from
    (framePackets_length s).symm ▸ packetCount_pos hm)
  have hacc : ∀ k, (echoDelivery s (sendingOf s) k).Acceptable t.mtu.toNat (t.options.getLsbD 2) := by
    intro k
    rw [hmtu]
    refine echoDelivery_acceptable hm250 fun hcheck => pecMask_eq_zero ?_
    rwa [framePackets_length, hcheck, or_iff_left (show ¬true = false from nofun)] at hmask
  rw [← echoDeliveries_answers] at hbus
  rw [hcount] at hbus hin ⊢
  rw [← hconfig] at hc ⊢
  exact ⟨framedMessage_received hc hopen hm hmtu hcount hacc hbus hin,
    framedMessage_overflows hopen hm hcount hacc hbus hin⟩

end Sys2Proof.Machine
end

section
/-! PROOFS. EXTRACT and PEEK (43_extraction.md): the first data byte in the first packet (R160), the refusals in their
order (R161, R165, R199), and the copy from REPLYBUF into OUTBUF with everything else left as it was. -/

namespace Sys2Proof.Machine

open Sys2Proof

/-! ### The data offset -/

/-- Settles O45: both offsets are in the first packet while the MTU is above them; the example is computed. -/
theorem dataOffsetInTheFirstPacket : Obligations.DataOffsetInTheFirstPacket :=
  ⟨fun _ h => rawPosition_of_lt h, fun _ h => rawPosition_of_lt h, rfl⟩

section
variable {s : State}

/-! ### Refusals -/

theorem extractCommand_refuses_noBuffer (adm : Bool) : extractCommand adm false s = raiseError .noBuffer 0 s :=
  if_pos rfl

theorem extractCommand_refuses_capacity (adm : Bool) (h : s.config.outCap < operandB s) :
    extractCommand adm true s = raiseError .allocationFailure 0 s :=
  (if_neg nofun).trans (if_pos h)

theorem extractCommand_refuses_noReply (adm : Bool) (hcap : operandB s ≤ s.config.outCap)
    (h : s.replyValid = false) : extractCommand adm true s = raiseError .noReply 0 s :=
  (if_neg nofun).trans ((if_neg (Nat.not_lt.2 hcap)).trans (if_pos h))

theorem peekCommand_refuses_length (h : s.config.outCap < operandB s ∨ s.config.replyCap < 8 + operandB s) :
    peekCommand s = raiseError .badLength 0 s :=
  if_pos h

section
variable (hout : operandB s ≤ s.config.outCap) (hreply : 8 + operandB s ≤ s.config.replyCap)
include hout hreply

theorem peekCommand_refuses_noReply (h : s.replyValid = false) : peekCommand s = raiseError .noReply 0 s :=
  (if_neg (not_or.2 ⟨Nat.not_lt.2 hout, Nat.not_lt.2 hreply⟩)).trans (if_pos h)

/-- With its checks passed, PEEK copies and ends (R165). -/
theorem peekCommand_copies (h : s.replyValid = true) :
    peekCommand s =
      succeed (BitVec.ofNat 32 (operandB s)) (memWrite .out 0 (memRead s .reply 8 (operandB s)) s) := by
  rw [peekCommand, if_neg (not_or.2 ⟨Nat.not_lt.2 hout, Nat.not_lt.2 hreply⟩), if_neg (by simp [h])]

end

/-! ### The copy into OUTBUF -/

/-- OUTBUF holds the raw bytes PEEK copied (R165). -/
theorem readByte_out_memRead {sp : Space} {a n i : Nat} (hn : n ≤ s.config.outCap) (hi : i < n) :
    readByte (memWrite .out 0 (memRead s sp a n) s) .out i = readByte s sp (a + i) := by
  have hlen : i < (memRead s sp a n).length := by rwa [memRead_length]
  have hcap : 0 + i < Space.out.cap s.config := by
    rw [Nat.zero_add]
    exact Nat.lt_of_lt_of_le hi hn
  rw [← memRead_getElem s sp a n i hlen, ← readByte_memWrite_inside s .out hlen hcap, Nat.zero_add]

/-- A command that ends with a copy to the start of OUTBUF leaves every later byte of OUTBUF, REPLYBUF and MSGBUF
as they were (R56, R57). -/
theorem readByte_finish_memWrite_out (hc : s.config.Legal) {bs : List Byte} (hlen : bs.length ≤ s.config.outCap)
    (code : StatusCode) (short : Bool) (result : Word) :
    (∀ i, bs.length ≤ i → readByte (finish code short result (memWrite .out 0 bs s)) .out i = readByte s .out i) ∧
    (∀ i, readByte (finish code short result (memWrite .out 0 bs s)) .reply i = readByte s .reply i) ∧
    (∀ i, readByte (finish code short result (memWrite .out 0 bs s)) .msg i = readByte s .msg i) := by
  have hfit : 0 + bs.length ≤ 8192 := (Nat.zero_add _).trans_le (hlen.trans (cap_le hc .out))
  simp only [readByte_finish]
  exact ⟨fun i hi => readByte_memWrite_outside s .out .out (.inr (by omega)),
    readByte_memWrite_other (sp := .out) (sp' := .reply) hc nofun hfit,
    readByte_memWrite_other (sp := .out) (sp' := .msg) hc nofun hfit⟩

end

/-! ### The statements -/

/-- The logical length with the overhead of R155 written out. -/
theorem logicalLength_eq (adm : Bool) (received : Nat) :
    logicalLength adm received = received - if adm then 24 else 12 := by
  cases adm <;> rfl

theorem dataStart_eq (adm : Bool) : dataStart adm = if adm then 20 else 8 := by
  cases adm <;> rfl

/-- Settles O43: one branch of EXTRACT's checks for each refusal, and the copy for the last. -/
theorem extractCopiesTheLogicalResponse : Obligations.ExtractCopiesTheLogicalResponse := by
  intro s adm hc
  simp only [exec_eq, ← logicalLength_eq, ← dataStart_eq]
  refine ⟨congrArg _ (extractCommand_refuses_noBuffer adm),
    fun hcap => congrArg _ (extractCommand_refuses_capacity adm hcap),
    fun hcap hvalid => congrArg _ (extractCommand_refuses_noReply adm hcap hvalid), fun hcap hvalid => ?_⟩
  have hlen : (extractedBytes adm s).length ≤ s.config.outCap := by
    rw [extractedBytes_length]
    exact (Nat.min_le_right ..).trans hcap
  have hframe := readByte_finish_memWrite_out hc hlen
  rw [extractedBytes_length] at hframe
  exact ⟨_, congrArg _ (extractCommand_copies hcap hvalid), rfl,
    fun i hi => (readByte_finish ..).trans (readByte_out_extractedBytes hcap hi), hframe ..⟩

/-- Settles O46: one branch of PEEK's checks for each refusal, and the raw copy for the last. -/
theorem peekCopiesRawBytes : Obligations.PeekCopiesRawBytes := by
  intro s hc
  simp only [exec_eq]
  refine ⟨fun h => congrArg _ (peekCommand_refuses_length h),
    fun hout hreply hvalid => congrArg _ (peekCommand_refuses_noReply hout hreply hvalid),
    fun hout hreply hvalid => ?_⟩
  have hframe := readByte_finish_memWrite_out hc (bs := memRead s .reply 8 (operandB s))
  rw [memRead_length] at hframe
  exact ⟨_, congrArg _ (peekCommand_copies hout hreply hvalid), rfl,
    fun i hi => (readByte_finish ..).trans (readByte_out_memRead hout hi), hframe hout ..⟩

end Sys2Proof.Machine
end

section
/-! PROOFS. The session commands (44_session.md): CLOSE (R176), the open phase whose every attempt fails (R175), and
EXECUTE's refusals and its failed write (R177, R178). -/

namespace Sys2Proof.Machine

open Sys2Proof

/-! ### CLOSE -/

theorem closeCommand_closed {s : State} (h : s.busOpen = false) : closeCommand s = succeed 0 s := if_pos h

theorem closeCommand_issues {s : State} (h : s.busOpen = true) :
    closeCommand s = issue .busClose ⟨.closeBus, 0, .closing⟩ { s with result := 0 } :=
  if_neg (by simp [h])

/-- BUS_OPEN is cleared at either answer, which decides the code alone (R176). -/
theorem closeAnswered_eq (a : BusAnswer) (s : State) :
    closeAnswered a s =
      finish (if a = .err then .transportIOFailure else .ok) false 0 { s with busOpen := false } := by
  cases a <;> rfl

/-- Settles O50: CLOSE's check, its one transaction, and the step of the bus's answer. -/
theorem closeClearsBusOpen : Obligations.CloseClearsBusOpen := by
  intro s
  rw [exec_eq]
  refine ⟨fun hclosed => congrArg _ (closeCommand_closed hclosed), fun hopen => ?_⟩
  intro b
  refine ⟨congrArg _ (closeCommand_issues hopen), fun a rest hbus hin => ?_⟩
  rw [step_answer (s := b) rfl (noResetFor_head hin) hbus]
  exact congrArg _ (closeAnswered_eq a (b.facing (inputsAfter 1 s.inputs) rest))

/-! ### Every attempt to open fails -/

/-- The open phase whose every attempt fails (R175). -/
theorem open_phase_fails (command : BusCommand) {s : State} (hclosed : s.busOpen = false) :
    Feeds (List.replicate s.config.openAttempts .err) (startOpen command s)
      (openFailed command { s with busLog := s.busLog ++ List.replicate s.config.openAttempts .busOpen }) := by
  have hloop := open_loop command s.config.openAttempts 1 s (Nat.add_comm ..).le
  rw [tryOpen_gives_up command (attempt := 1 + s.config.openAttempts) (by simp only; omega)] at hloop
  rw [startOpen, if_neg (by simp [hclosed])]
  exact hloop

/-- A command that begins with the open phase, on a bus that never opens: one step an attempt. -/
theorem fails_to_open {s : State} {rest : List BusEvent} {i : Instr} {command : BusCommand}
    (hstart : commandStart i s = startOpen command s) (hclosed : s.busOpen = false)
    (hbus : s.bus = List.replicate s.config.openAttempts (.answer .err) ++ rest)
    (hin : NoResetFor s.config.openAttempts s.inputs) :
    ∃ b, exec i s = .next b ∧ Host.Core.run Sys2Proof.core s.config.openAttempts b = .next
      ((openFailed command { s with
          busLog := s.busLog ++ List.replicate s.config.openAttempts .busOpen }).facing
        (inputsAfter s.config.openAttempts s.inputs) rest) := by
  have hfeeds := open_phase_fails command hclosed
  rw [← hstart] at hfeeds
  have hlen : (List.replicate s.config.openAttempts BusAnswer.err).length = s.config.openAttempts :=
    List.length_replicate
  have hrun := exec_run hfeeds (hbus.trans (answered_errors _ rest).symm) (hlen.symm ▸ hin)
  rw [hlen] at hrun
  exact hrun

/-- Settles O49: the open phase whose every attempt fails, which OPEN reports with their number. -/
theorem openFailsAfterItsAttempts : Obligations.OpenFailsAfterItsAttempts :=
  fun _ _ hclosed hbus hin => fails_to_open (i := .openBus) (command := .openBus) rfl hclosed hbus hin

/-! ### EXECUTE's failures -/

theorem executeCommand_refuses_length {s : State} (h : s.config.msgCap < s.argB.toNat) :
    executeCommand s = raiseError .badLength 0 s := if_pos h

/-- Settles O52: EXECUTE's one check, and its open phase when every attempt fails. -/
theorem executeRefusals : Obligations.ExecuteRefusals := by
  refine fun s => ⟨fun hlen => ?_, fun rest hlen hclosed hbus hin => ?_⟩
  · rw [exec_eq]
    exact congrArg _ (executeCommand_refuses_length hlen)
  · exact fails_to_open (i := .execute) (executeCommand_starts hlen) hclosed hbus hin

/-- With no packet accepted RESULT holds the packets sent alone (R178). -/
theorem exchangeResult_execute_zero (sent : Nat) : exchangeResult .execute sent 0 = BitVec.ofNat 32 sent <<< 16 :=
  BitVec.or_zero

/-- Settles O53: the open phase, then the transmit phase that ends at a failed write. -/
theorem executeStopsAtAFailedWrite : Obligations.ExecuteStopsAtAFailedWrite := by
  intro s opens answers a rest packet hlen _ hopens hack hpacket ha hbus n hin
  have hsend := send_phase_fails .execute
    (s := { s with
      replyValid := false, busOpen := true
      busLog := s.busLog ++ List.replicate opens.length .busOpen }) hack hpacket ha
  have hn : (opens ++ (answers ++ [a])).length = n := by
    simp only [List.length_append, List.length_singleton, ← Nat.add_assoc]
    rfl
  rw [List.append_assoc] at hbus
  rw [← hn] at hin ⊢
  rw [← exchangeResult_execute_zero]
  exact exec_run (i := .execute) (feeds_append (execute_opens hlen hopens) hsend) hbus hin

end Sys2Proof.Machine
end

section
/-! PROOFS. EXECUTE is OPEN, FRAME and DEFRAME (R177, R181): in each of its phases it stands, step by step, where a
command that runs this phase alone stands, until that command is over. -/

namespace Sys2Proof.Machine

open Sys2Proof

/-! ### Runs with no host input waiting -/

/-- A step of the engine keeps what waits and what is the host's. -/
theorem tick_host (s : State) : (tick s).inputs = s.inputs ∧ (tick s).config = s.config ∧ (tick s).argB = s.argB := by
  unfold tick
  split
  · next r a rest _ _ =>
    have hadv := takeAnswer_advances r a { s with bus := rest }
    obtain ⟨hconfig, -, hargB, -⟩ := hadv.host
    exact ⟨hadv.inputs, hconfig, hargB⟩
  all_goals exact ⟨rfl, rfl, rfl⟩

theorem run_host {n : Nat} {s t : State} (hin : s.inputs = []) (h : Host.Core.run Sys2Proof.core n s = .next t) :
    t.inputs = [] ∧ t.config = s.config ∧ t.argB = s.argB := by
  induction n generalizing s with
  | zero =>
    cases h
    exact ⟨hin, rfl, rfl⟩
  | succ n ih =>
    rw [run_succ (step_no_input hin)] at h
    obtain ⟨hinputs, hconfig, hargB⟩ := tick_host s
    rw [← hinputs] at hin
    rw [← hconfig, ← hargB]
    exact ih hin h

/-- The idle machine holds its state (R207). -/
theorem run_idle {s : State} (hr : s.running = none) (hin : s.inputs = []) (n : Nat) :
    Host.Core.run Sys2Proof.core n s = .next s := by
  induction n with
  | zero => rfl
  | succ n ih =>
    have hstep := step_no_input hin
    rw [tick_idle hr] at hstep
    exact (run_succ hstep n).trans ih

/-- In at most `n` steps the machine comes from `s` to `t`. -/
def ReachesWithin (n : Nat) (s t : State) : Prop := ∃ j ≤ n, Host.Core.run Sys2Proof.core j s = .next t

namespace ReachesWithin

variable {n m : Nat} {s t u : State}

theorem trans (h : ReachesWithin n s t) (h' : ReachesWithin m t u) : ReachesWithin (n + m) s u := by
  obtain ⟨i, hi, hrun⟩ := h
  obtain ⟨j, hj, hrun'⟩ := h'
  exact ⟨i + j, Nat.add_le_add hi hj, (run_add hrun j).trans hrun'⟩

/-- A command that is over before `n` steps have passed leaves the machine idle for the rest of them. -/
theorem run_eq (h : ReachesWithin n s t) (hr : t.running = none) (hin : t.inputs = []) :
    Host.Core.run Sys2Proof.core n s = .next t := by
  obtain ⟨j, hj, hrun⟩ := h
  obtain ⟨d, rfl⟩ := Nat.exists_eq_add_of_le hj
  exact (run_add hrun d).trans (run_idle hr hin d)

end ReachesWithin

/-- FRAME that succeeds passed its two checks (R123). -/
theorem frame_accepted {o t : State} {n : Nat} (hin : o.inputs = [])
    (hrun : Host.Core.run Sys2Proof.core n (commandStart .frame o) = .next t) (hok : t.err = .ok) :
    o.argB.toNat ≤ o.config.msgCap ∧ o.busOpen = true := by
  have hrefused {code : StatusCode} (h : frameCommand o = raiseError code 0 o) : code = .ok := by
    rw [commandStart, h, run_idle (s := raiseError code 0 o) rfl hin] at hrun
    cases hrun
    exact hok
  have hlen : o.argB.toNat ≤ o.config.msgCap :=
    Nat.not_lt.1 fun h => nomatch hrefused (frameCommand_refuses_length h)
  exact ⟨hlen, eq_true_of_ne_false fun h => nomatch hrefused (frameCommand_refuses_closed hlen h)⟩

/-! ### A phase of EXECUTE beside a command that runs it alone -/

/-- `y` as a state of a command begun in `s` that is not over and stands as `x`: what the end of a command writes is
still that of `s`. -/
def State.underway (y s : State) (x : Option Running) : State :=
  { y with err := s.err, short := s.short, result := s.result, portLog := s.portLog, running := x }

/-- While the command of `y` runs its phase, which `own` describes, an EXECUTE begun in `s`, with `sent` packets sent,
stands in `x` in the same phase; when that command is over `after` says where EXECUTE stands. -/
inductive Alongside (s : State) (sent : Nat) (own : State → Running → Prop) (after : State → State → Prop)
    (y x : State) : Prop
  | runs {r : Running} (hr : y.running = some r) (hown : own y r)
      (hx : x = y.underway s (some ⟨.execute, sent, r.phase⟩))
  | ends (hr : y.running = none) (h : after y x)

namespace Alongside

variable {s : State} {sent : Nat} {own : State → Running → Prop} {after : State → State → Prop}

/-- Both take the same branch. -/
theorem ite {c : Prop} [Decidable c] {y y' x x' : State} (h : c → Alongside s sent own after y x)
    (h' : ¬c → Alongside s sent own after y' x') :
    Alongside s sent own after (if c then y else y') (if c then x else x') := by
  split
  · next hc => exact h hc
  · next hc => exact h' hc

section
variable (hfuture : ∀ y r rest, own y r → own { y with bus := rest } r)
  (hanswer : ∀ y r a, own y r → Alongside s sent own after (takeAnswer r a y)
    (takeAnswer ⟨.execute, sent, r.phase⟩ a (y.underway s (some ⟨.execute, sent, r.phase⟩))))
include hfuture hanswer

/-- One step: the bus answers both, or is silent for both. -/
theorem tick {y x : State} {r : Running} (hr : y.running = some r) (h : Alongside s sent own after y x) :
    Alongside s sent own after (tick y) (tick x) := by
  cases h with
  | ends hn => cases hr.symm.trans hn
  | runs hr' hown hx =>
    subst hx
    match hb : y.bus with
    | [] =>
      rw [tick_unanswered hb, tick_unanswered (s := y.underway s _) hb]
      exact .runs hr' hown rfl
    | .silent :: rest =>
      rw [tick_silent hr' hb, tick_silent (s := y.underway s _) rfl hb]
      exact .runs hr' (hfuture y _ rest hown) rfl
    | .answer a :: rest =>
      rw [tick_answer hr' hb, tick_answer (s := y.underway s _) rfl hb]
      exact hanswer { y with bus := rest } _ a (hfuture y _ rest hown)

/-- The whole phase: EXECUTE is through it no later than the command that runs it alone. -/
theorem run {n : Nat} {y x t : State} (h : Alongside s sent own after y x) (hy : y.inputs = []) (hx : x.inputs = [])
    (hrun : Host.Core.run Sys2Proof.core n y = .next t) (ht : t.running = none) :
    ∃ z, ReachesWithin n x z ∧ after t z := by
  induction n generalizing y x with
  | zero =>
    cases hrun
    cases h with
    | runs hr => cases hr.symm.trans ht
    | ends _ h => exact ⟨x, ⟨0, le_rfl, rfl⟩, h⟩
  | succ n ih =>
    match hr : y.running with
    | none =>
      rw [run_idle hr hy] at hrun
      cases hrun
      cases h with
      | runs hr' => cases hr'.symm.trans hr
      | ends _ h => exact ⟨x, ⟨0, Nat.zero_le _, rfl⟩, h⟩
    | some r =>
      rw [run_succ (step_no_input hy)] at hrun
      obtain ⟨z, ⟨j, hj, hz⟩, hafter⟩ := ih (h.tick hfuture hanswer hr) ((tick_host y).1.trans hy)
        ((tick_host x).1.trans hx) hrun
      exact ⟨z, ⟨j + 1, Nat.succ_le_succ hj, (run_succ (step_no_input hx) j).trans hz⟩, hafter⟩

end

end Alongside

/-! ### The open phase -/

/-- OPEN tries to open the bus. -/
def Opens (_ : State) (r : Running) : Prop := ∃ attempt, r = ⟨.openBus, 0, .opening attempt⟩

/-- After an OPEN that succeeded EXECUTE begins to transmit (R177). -/
def TransmitsNext (s y x : State) : Prop :=
  y.err = .ok → x = startSend .execute (operandB y) ({ y with replyValid := false }.underway s none)

theorem opened_alongside (s y : State) (attempts : Nat) (x : Option Running) :
    Alongside s 0 Opens (TransmitsNext s) (opened .openBus attempts y) (opened .execute attempts (y.underway s x)) :=
  .ends rfl fun _ => rfl

theorem tryOpen_alongside (s y : State) (attempt : Nat) (x : Option Running) :
    Alongside s 0 Opens (TransmitsNext s) (tryOpen .openBus attempt y) (tryOpen .execute attempt (y.underway s x)) :=
  .ite (fun _ => .runs rfl ⟨attempt, rfl⟩ rfl) (fun _ => .ends rfl nofun)

theorem startOpen_alongside (s : State) :
    Alongside s 0 Opens (TransmitsNext s) (startOpen .openBus s) (startOpen .execute s) :=
  .ite (fun _ => opened_alongside s s 0 s.running) (fun _ => tryOpen_alongside s s 1 s.running)

theorem opening_answer_alongside (s y : State) (r : Running) (a : BusAnswer) (h : Opens y r) :
    Alongside s 0 Opens (TransmitsNext s) (takeAnswer r a y)
      (takeAnswer ⟨.execute, 0, r.phase⟩ a (y.underway s (some ⟨.execute, 0, r.phase⟩))) := by
  obtain ⟨attempt, rfl⟩ := h
  match a with
  | .ok _ _ => exact opened_alongside s { y with busOpen := true } attempt _
  | .err => exact tryOpen_alongside s y (attempt + 1) _

/-! ### The transmit phase -/

/-- FRAME sends a message of `count` packets, the bus open and the reply not valid. -/
def Transmits (count : Nat) (y : State) (r : Running) : Prop :=
  InTransfer y ∧ ∃ f : Sending, r = ⟨.frame, 0, .sending f⟩ ∧ f.count = count

/-- After a FRAME that succeeded EXECUTE begins to receive (R177). -/
def ReceivesNext (s : State) (count : Nat) (y x : State) : Prop :=
  y.err = .ok → InTransfer y ∧ y.result = BitVec.ofNat 32 count ∧ x = startReceive .execute count (y.underway s none)

theorem startSend_alongside (s : State) {o : State} (hopen : o.busOpen = true) (len : Nat) :
    Alongside s 0 (Transmits (packetCount len (mtuOf o))) (ReceivesNext s (packetCount len (mtuOf o)))
      (startSend .frame len { o with replyValid := false })
      (startSend .execute len ({ o with replyValid := false }.underway s none)) :=
  .runs rfl ⟨⟨hopen, rfl⟩, _, rfl, rfl⟩ rfl

theorem sendFailed_alongside (s y : State) (count sent : Nat) (x : State) :
    Alongside s 0 (Transmits count) (ReceivesNext s count) (sendFailed .frame sent y) x :=
  .ends rfl nofun

theorem sending_answer_alongside (s y : State) (count : Nat) (r : Running) (a : BusAnswer) (h : Transmits count y r) :
    Alongside s 0 (Transmits count) (ReceivesNext s count) (takeAnswer r a y)
      (takeAnswer ⟨.execute, 0, r.phase⟩ a (y.underway s (some ⟨.execute, 0, r.phase⟩))) := by
  obtain ⟨htransfer, f, rfl, hcount⟩ := h
  match a with
  | .err => exact sendFailed_alongside ..
  | .ok _ _ =>
    refine .ite (fun _ => sendFailed_alongside ..) fun _ => .ite (fun _ => ?_) fun _ => ?_
    · exact .runs rfl ⟨htransfer, _, rfl, hcount⟩ rfl
    · subst hcount
      exact .ends rfl fun _ => ⟨htransfer, rfl, allSent_running .execute f.count (y.underway s none) _⟩

/-! ### The receive phase -/

/-- DEFRAME reads a packet's header or its body. -/
def Receives (_ : State) (r : Running) : Prop :=
  ∃ p, r = ⟨.deframe, 0, .awaitHeader p⟩ ∨ ∃ h, r = ⟨.deframe, 0, .awaitBody p h⟩

/-- EXECUTE is over with DEFRAME: it differs in the upper half of RESULT (R178) and in the port's answers. -/
def EndsWith (s : State) (sent : Nat) (y x : State) : Prop :=
  x = { y with result := (BitVec.ofNat 32 sent <<< 16) ||| y.result, portLog := s.portLog ++ [.done] }

section
variable (s y : State) (sent : Nat) (p : Receiving) (x : Option Running)

theorem receiveFailed_alongside (code : StatusCode) :
    Alongside s sent Receives (EndsWith s sent) (receiveFailed .deframe 0 p code y)
      (receiveFailed .execute sent p code (y.underway s x)) :=
  .ends rfl rfl

theorem awaitPacket_alongside :
    Alongside s sent Receives (EndsWith s sent) (awaitPacket .deframe 0 p y)
      (awaitPacket .execute sent p (y.underway s x)) :=
  .ite (fun _ => receiveFailed_alongside ..) fun _ => .runs rfl ⟨p, .inl rfl⟩ rfl

theorem startReceive_alongside :
    Alongside s sent Receives (EndsWith s sent) (startReceive .deframe 0 y)
      (startReceive .execute sent (y.underway s x)) :=
  awaitPacket_alongside s { y with rawLen := 0, rxLen := 0 } sent _ x

theorem headerAnswered_alongside (a : BusAnswer) :
    Alongside s sent Receives (EndsWith s sent) (headerAnswered .deframe 0 p a y)
      (headerAnswered .execute sent p a (y.underway s x)) := by
  match a with
  | .err => exact receiveFailed_alongside ..
  | .ok _ t =>
    unfold headerAnswered
    dsimp only
    match Header.ofBytes? t with
    | none => exact receiveFailed_alongside ..
    | some h =>
      exact .ite (fun _ => receiveFailed_alongside s (memWrite .reply p.raw t y) ..) fun _ =>
        .ite (fun _ => receiveFailed_alongside s (memWrite .reply p.raw t y) ..) fun _ =>
          .runs rfl ⟨p, .inr ⟨h, rfl⟩⟩ rfl

theorem bodyAnswered_alongside (h : Header) (a : BusAnswer) :
    Alongside s sent Receives (EndsWith s sent) (bodyAnswered .deframe 0 p h a y)
      (bodyAnswered .execute sent p h a (y.underway s x)) := by
  match a with
  | .err => exact receiveFailed_alongside ..
  | .ok _ t =>
    refine .ite (fun _ => receiveFailed_alongside ..) fun _ =>
      .ite (fun _ => receiveFailed_alongside s (memWrite .reply (p.raw + 8) t y) ..) fun _ =>
        .ite (fun _ => .ends rfl rfl) fun _ => ?_
    exact awaitPacket_alongside s
      { memWrite .reply (p.raw + 8) t y with
        rawLen := BitVec.ofNat 16 (p.accept h.byteCount.toNat).raw
        rxLen := BitVec.ofNat 16 (p.accept h.byteCount.toNat).received } sent (p.accept h.byteCount.toNat) x

end

theorem receiving_answer_alongside (s y : State) (sent : Nat) (r : Running) (a : BusAnswer) (h : Receives y r) :
    Alongside s sent Receives (EndsWith s sent) (takeAnswer r a y)
      (takeAnswer ⟨.execute, sent, r.phase⟩ a (y.underway s (some ⟨.execute, sent, r.phase⟩))) := by
  obtain ⟨p, rfl | ⟨h, rfl⟩⟩ := h
  · exact headerAnswered_alongside ..
  · exact bodyAnswered_alongside ..

/-! ### The three phases -/

theorem commandStart_inputs (i : Instr) {s : State} (h : s.inputs = []) : (commandStart i s).inputs = [] :=
  (commandStart_advances i s).inputs.trans h

section
variable (s : State) {o t u : State} {n : Nat}

/-- EXECUTE's open phase beside an OPEN that succeeds (R175). -/
theorem execute_beside_open (hlen : s.argB.toNat ≤ s.config.msgCap) (hin : s.inputs = [])
    (hrun : Host.Core.run Sys2Proof.core n (commandStart .openBus s) = .next o) (hover : o.running = none)
    (hok : o.err = .ok) :
    ReachesWithin n (commandStart .execute s)
      (startSend .execute (operandB o) ({ o with replyValid := false }.underway s none)) := by
  have hbeside := startOpen_alongside s
  rw [← executeCommand_starts hlen] at hbeside
  obtain ⟨z, hz, hafter⟩ := hbeside.run (fun _ _ _ h => h) (opening_answer_alongside s)
    (commandStart_inputs .openBus hin) (commandStart_inputs .execute hin) hrun hover
  exact hafter hok ▸ hz

/-- EXECUTE's transmit phase beside a FRAME that succeeds (R122, R123). -/
theorem execute_beside_frame (hin : o.inputs = [])
    (hrun : Host.Core.run Sys2Proof.core n (commandStart .frame o) = .next t) (hover : t.running = none)
    (hok : t.err = .ok) :
    InTransfer t ∧ ∃ count, t.result = BitVec.ofNat 32 count ∧
      ReachesWithin n (startSend .execute (operandB o) ({ o with replyValid := false }.underway s none))
        (startReceive .execute count (t.underway s none)) := by
  obtain ⟨hlen, hopen⟩ := frame_accepted hin hrun hok
  have hbeside := startSend_alongside s hopen (operandB o)
  rw [operandB, ← frameCommand_starts hlen hopen] at hbeside
  obtain ⟨z, hz, hafter⟩ := hbeside.run (fun _ _ _ h => h) (fun y r a => sending_answer_alongside s y _ r a)
    (commandStart_inputs .frame hin) hin hrun hover
  obtain ⟨htransfer, hresult, rfl⟩ := hafter hok
  exact ⟨htransfer, _, hresult, hz⟩

/-- EXECUTE's receive phase beside a DEFRAME, whatever code it ends with (R136, R145, R146). -/
theorem execute_beside_deframe (ht : InTransfer t) (count : Nat) (hin : t.inputs = [])
    (hrun : Host.Core.run Sys2Proof.core n (commandStart .deframe t) = .next u) (hover : u.running = none) :
    ReachesWithin n (startReceive .execute count (t.underway s none))
      { u with result := (BitVec.ofNat 32 count <<< 16) ||| u.result, portLog := s.portLog ++ [.done] } := by
  obtain ⟨hopen, hvalid⟩ := ht
  have hstart : deframeCommand t = startReceive .deframe 0 t := by
    rw [deframeCommand_starts hopen, ← hvalid]
  have hbeside := startReceive_alongside s t count none
  rw [← hstart] at hbeside
  have hinputs : (startReceive .execute count (t.underway s none)).inputs = [] :=
    (startReceive_advances (.refl _) .execute count).inputs.trans hin
  obtain ⟨z, hz, rfl⟩ := hbeside.run (fun _ _ _ h => h) (fun y r a => receiving_answer_alongside s y count r a)
    (commandStart_inputs .deframe hin) hinputs hrun hover
  exact hz

end

/-- Settles O54: EXECUTE goes through its phases beside OPEN, FRAME and DEFRAME, one after the other. -/
theorem executeIsFrameThenDeframe : Obligations.ExecuteIsFrameThenDeframe := by
  intro s o t u o' t' u' k n m hin ho' hrunO hoverO hokO ht' hrunF hoverF hokF hu' hrunD hoverD
  cases (exec_eq .openBus s).symm.trans ho'
  cases (exec_eq .frame o).symm.trans ht'
  cases (exec_eq .deframe t).symm.trans hu'
  obtain ⟨ho, hconfig, hargB⟩ := run_host (commandStart_inputs .openBus hin) hrunO
  obtain ⟨ht, -⟩ := run_host (commandStart_inputs .frame ho) hrunF
  obtain ⟨hu, -⟩ := run_host (commandStart_inputs .deframe ht) hrunD
  have hlen : s.argB.toNat ≤ s.config.msgCap := by
    obtain ⟨hconfig', -, hargB', -⟩ := (commandStart_advances .openBus s).host
    rw [← hargB', ← hconfig', ← hargB, ← hconfig]
    obtain ⟨hlen, -⟩ := frame_accepted ho hrunF hokF
    exact hlen
  obtain ⟨htransfer, count, hresult, hsent⟩ := execute_beside_frame s ho hrunF hoverF hokF
  have hopened := execute_beside_open s hlen hin hrunO hoverO hokO
  have hreceived := execute_beside_deframe s htransfer count ht hrunD hoverD
  rw [hresult]
  exact ⟨_, exec_eq .execute s, ((hopened.trans hsent).trans hreceived).run_eq hoverD hu⟩

end Sys2Proof.Machine
end

section
/-! PROOFS. There is no trap and no fault (R200 to R202): every command, every access of the host and every step gives a
next state. Between commands and accesses the machine holds its state (R207). -/

namespace Sys2Proof.Machine

open Sys2Proof

/-! ### Every step gives a next state -/

/-- A CMD write (R21): an illegal word ends with `BadOp`, and a legal one starts its command. -/
theorem writeCmd_gives_next (v : Word) (s : State) : ∃ t, writeCmd v s = .next t := by
  unfold writeCmd
  split
  · exact ⟨_, rfl⟩
  · next i _ => exact ⟨_, exec_eq i s⟩

theorem write32_gives_next (a : Nat) (v : Word) (s : State) : ∃ t, write32 a v s = .next t := by
  unfold write32
  split
  · exact writeCmd_gives_next v s
  · exact ⟨_, rfl⟩
  · exact ⟨_, rfl⟩

/-- Every access has an answer, an access error included (R50 to R54). -/
theorem hostAccess_gives_next (x : HostAccess) (s : State) : ∃ t, hostAccess x s = .next t := by
  cases x with
  | write32 a v => exact write32_gives_next a.toNat v s
  | read32 | write8 | read8 => exact ⟨_, rfl⟩

theorem step_gives_next (s : State) : ∃ t, step s = .next t := by
  match hr : s.running, hin : s.inputs with
  | _, .reset :: _ => exact ⟨_, step_reset hin⟩
  | _, .wait :: _ => exact ⟨_, step_wait hin⟩
  | _, [] => exact ⟨_, step_no_input hin⟩
  | some _, .host _ :: _ => exact ⟨_, step_running hr (by simp [hin])⟩
  | none, .host x :: _ =>
    rw [step_host hr hin]
    exact hostAccess_gives_next ..

/-- Settles O6: a command starts whatever the state, and each step is a reset, time, a command's step or an access. -/
theorem everyStepGivesANextState : Obligations.EveryStepGivesANextState :=
  ⟨fun i s => ⟨_, exec_eq i s⟩, step_gives_next⟩

/-! ### The idle machine -/

/-- Settles O7: without an access the step is the engine's, which does nothing while no command runs. -/
theorem idleMachineHoldsItsState : Obligations.IdleMachineHoldsItsState := by
  intro s hr
  constructor
  · intro hin
    rw [step_no_input hin, tick_idle hr]
  · intro rest hin
    have hidle : tick { s with inputs := rest } = { s with inputs := rest } := tick_idle hr
    rw [step_wait hin, hidle]

end Sys2Proof.Machine
end

section
/-! PROOFS. Reset and what only reset ends: a command that waits for a bus that never answers (R226), the reset event
whatever runs (R215), and the first reads after it (R217). -/

namespace Sys2Proof.Machine

open Sys2Proof

/-! ### A command the bus never answers -/

/-- Settles O9, by induction on the steps: each leaves the command waiting and the bus silent, so the next does. -/
theorem unansweredCommandWaitsForReset : Obligations.UnansweredCommandWaitsForReset := by
  intro s r n hr hbus hin
  induction n generalizing s with
  | zero =>
    rw [inputsAfter_zero]
    rfl
  | succ n ih =>
    have hstep := step_unanswered hr (noResetFor_head hin) hbus
    have hrest := ih { s with inputs := inputsAfter 1 s.inputs } hr hbus (noResetFor_tail hin)
    rw [run_succ hstep, inputsAfter_succ n]
    exact hrest

/-! ### The reset event -/

/-- Where no byte is known, each reads as its buffer's current draw (R12). -/
theorem readByte_of_mem_nil {s : State} (h : s.mem = []) (sp : Space) (i : Nat) :
    readByte s sp i = Config.freeByte sp.base (drawOf s sp) i := by
  rw [readByte, h, read?_nil, Option.getD_none, ite_self]

/-- Every buffer takes its next draw (R215). -/
@[simp] theorem drawOf_resetEvent (s : State) (sp : Space) : drawOf (resetEvent s) sp = drawOf s sp + 1 := by
  cases sp <;> rfl

theorem readByte_resetEvent (s : State) (sp : Space) (i : Nat) :
    readByte (resetEvent s) sp i = Config.freeByte sp.base (drawOf s sp + 1) i := by
  rw [readByte_of_mem_nil (resetEvent_mem s), drawOf_resetEvent]

/-- Settles O12: the step is the reset event, whose fields are the reset values and whose memory is empty. -/
theorem resetEventSetsResetValues : Obligations.ResetEventSetsResetValues := by
  intro s rest hin
  have hdraw (sp : Space) : drawOf { s with inputs := rest } sp = drawOf s sp := by cases sp <;> rfl
  exact ⟨resetEvent { s with inputs := rest }, step_reset hin, rfl, rfl, rfl, rfl, rfl, rfl, rfl, rfl, rfl, rfl, rfl,
    fun sp i => by rw [readByte_resetEvent, hdraw], rfl, rfl, rfl, rfl⟩

/-! ### The first reads after reset -/

/-- The registers R217 names and what they read as after reset (R40). -/
def resetReads : List (Reg × Word) :=
  [(.status, 0x00000000), (.mtu, 0x00000040), (.options, 0x00000005), (.addr, 0), (.result, 0), (.rxLen, 0),
    (.rawLen, 0)]

theorem readReg_reset : ∀ p ∈ resetReads, readReg p.1 State.reset = p.2 := by decide

/-- A register reads the same whatever host and bus will do. -/
theorem readReg_facing (r : Reg) (s : State) (inputs : List Input) (events : List BusEvent) :
    readReg r (s.facing inputs events) = readReg r s := by
  cases r <;> rfl

/-- Settles O13: a read answers the register or the byte, and at reset these are the reset value and the draw. -/
theorem registersReadAfterReset : Obligations.RegistersReadAfterReset := by
  intro rest events
  constructor
  · intro a v h
    have hmem : (a, v) ∈ resetReads.map fun p => (p.1.address, p.2) := h
    obtain ⟨⟨r, w⟩, hp, heq⟩ := List.mem_map.mp hmem
    cases heq
    have hread : readReg r (State.reset.facing (.host (.read32 r.address) :: rest) events) = w :=
      (readReg_facing r ..).trans (readReg_reset _ hp)
    rw [← hread]
    exact step_readReg r rfl rfl
  · intro sp i hi
    have hcap : i < sp.cap State.reset.config := by cases sp <;> exact hi
    rw [← readByte_reset]
    exact step_readWindow invariantHoldsAtReset.1.config hcap rfl rfl

end Sys2Proof.Machine
end
